-- ==== Sys2Proof/Word.lean ====
section
/-! DEFINITION. Bytes, register words, and the two shapes the cipher works on: a 4-byte column (a word of the key
schedule, rules R9 and R135) and a 16-byte block of four columns (rules R8 and R9). -/

namespace Sys2Proof

/-- A byte: 8 bits, bits 7..0 (rule R7). -/
abbrev Byte := BitVec 8

/-- The contents of a 32-bit register or of a bus data word, bits 31..0 (rule R7). -/
abbrev Word := BitVec 32

/-- Four bytes in order: column `c` of a block is its bytes `4c .. 4c+3` (rule R9), and a word of the key schedule is
`(t0, t1, t2, t3)` with `t0` first in key order (rule R135). -/
structure Col where
  b0 : Byte
  b1 : Byte
  b2 : Byte
  b3 : Byte
deriving DecidableEq, Repr

/-- A block, `bytes[16]`, as its four columns in order: byte `r + 4c` is row `r` of column `c` (rules R8 and R9). -/
structure Block where
  c0 : Col
  c1 : Col
  c2 : Col
  c3 : Col
deriving DecidableEq, Repr

/-- The column of four zero bytes. -/
def Col.zero : Col := ⟨0, 0, 0, 0⟩

/-- The zero block `0^16` (rule R139). -/
def Block.zero : Block := ⟨Col.zero, Col.zero, Col.zero, Col.zero⟩

/-- Exclusive-or of two columns, bytewise (rule R8). -/
def Col.xor (a b : Col) : Col := ⟨a.b0 ^^^ b.b0, a.b1 ^^^ b.b1, a.b2 ^^^ b.b2, a.b3 ^^^ b.b3⟩

/-- Exclusive-or of two blocks, bytewise (rule R8). -/
def Block.xor (a b : Block) : Block := ⟨a.c0.xor b.c0, a.c1.xor b.c1, a.c2.xor b.c2, a.c3.xor b.c3⟩

end Sys2Proof
end

