-- ==== Sys2Proof/Config.lean ====
section
/-! DEFINITION. What an implementation of AESX fixes (rule R6: BASE and BUF_BYTES) and the one value the spec leaves
open without a use (RCON entries outside 1..10, rule R126). -/

namespace Sys2Proof

/-- The build parameters of one AESX (rule R6). Both are held so that every value of the type is legal: `BASE` is a
multiple of 0x2000, `BUF_BYTES` a multiple of 16 in 16 .. 2^20. The configuration stands in `Machine.State` as a field that
no step changes, so a statement over all states holds for every legal BASE and BUF_BYTES (log entry 1). -/
structure Config where
  /-- `BASE / 0x2000`. -/
  baseSlot : Nat
  /-- `BUF_BYTES / 16 - 1`. -/
  bufSlot : Fin 65536
deriving DecidableEq, Repr

/-- BASE: the bus address of register offset 0 (rule R6). -/
def Config.base (c : Config) : Nat := 0x2000 * c.baseSlot

/-- BUF_BYTES: the size of the local buffer in bytes (rules R6 and R71). -/
def Config.bufBytes (c : Config) : Nat := 16 * (c.bufSlot.val + 1)

/-- The values every example of the spec uses: BASE = 0x4000_0000 and BUF_BYTES = 4096 (rule R6). `State.reset` carries
it (DESIGN CHOICE, log entry 1). -/
def Config.specExamples : Config := ⟨0x20000, 255⟩

/-- RCON entries the spec does not give: entry 0 is "reserved and never read" and the table ends at 10 (rule R126; U3 of
spec/93: any value). A free value: nothing in Lean can evaluate it (log entry 2). -/
opaque Config.unusedRcon : Nat → Byte

end Sys2Proof
end

