-- ==== Sys2Proof/Machine/Cipher.lean ====
section
/-! DEFINITION. The pure functions of the cipher engine (spec/40_cipher_engine.md sections 1 to 5): GF(2^8) arithmetic, the
tables, the round transforms, the key schedule, block encryption and decryption. None reads or writes state. -/

namespace Sys2Proof.Machine

/-! ### GF(2^8) arithmetic -/

/-- Multiply by x, that is by 02, reduced by 0x11B (rule R121). -/
def xtime (a : Byte) : Byte :=
  let t : BitVec 9 := a.setWidth 9 <<< 1
  (if t.getLsbD 8 then t ^^^ 0x11B#9 else t).setWidth 8

/-- One pass of rule R122's loop: `rp` holds `(r, p)`, and bit `i` of `b` decides whether `p` is added to `r`. -/
def gmulStep (b : Byte) (rp : Byte × Byte) (i : Nat) : Byte × Byte :=
  (if b.getLsbD i then rp.1 ^^^ rp.2 else rp.1, xtime rp.2)

/-- The product of two field elements (rule R122). -/
def gmul (a b : Byte) : Byte := ((List.range 8).foldl (gmulStep b) (0, a)).1

/-- The square of a field element. -/
def gsquare (a : Byte) : Byte := gmul a a

/-- The multiplicative inverse, as `a^254` computed with `gmul` (rule R123): 254 = 2 + 4 + 8 + 16 + 32 + 64 + 128, so the
power is the product of seven repeated squares. `ginv 0 = 0`. -/
def ginv (a : Byte) : Byte :=
  let a2 := gsquare a
  let a4 := gsquare a2
  let a8 := gsquare a4
  let a16 := gsquare a8
  let a32 := gsquare a16
  let a64 := gsquare a32
  let a128 := gsquare a64
  gmul a2 (gmul a4 (gmul a8 (gmul a16 (gmul a32 (gmul a64 a128)))))

/-! ### Tables -/

/-- The rows of the forward S-box, as rule R124 prints them: row `h` holds the entries of x = 16h .. 16h+15, the entry of
16h first (most significant byte of the row). -/
def sboxRows : List (BitVec 128) :=
  [0x637c777bf26b6fc53001672bfed7ab76, 0xca82c97dfa5947f0add4a2af9ca472c0,
   0xb7fd9326363ff7cc34a5e5f171d83115, 0x04c723c31896059a071280e2eb27b275] ++
  [0x09832c1a1b6e5aa0523bd6b329e32f84, 0x53d100ed20fcb15b6acbbe394a4c58cf,
   0xd0efaafb434d338545f9027f503c9fa8, 0x51a3408f929d38f5bcb6da2110fff3d2] ++
  [0xcd0c13ec5f974417c4a77e3d645d1973, 0x60814fdc222a908846eeb814de5e0bdb,
   0xe0323a0a4906245cc2d3ac629195e479, 0xe7c8376d8dd54ea96c56f4ea657aae08] ++
  [0xba78252e1ca6b4c6e8dd741f4bbd8b8a, 0x703eb5664803f60e613557b986c11d9e,
   0xe1f8981169d98e949b1e87e9ce5528df, 0x8ca1890dbfe6426841992d0fb054bb16]

/-- The rows of the inverse S-box, as rule R125 prints them, laid out as `sboxRows`. -/
def invSboxRows : List (BitVec 128) :=
  [0x52096ad53036a538bf40a39e81f3d7fb, 0x7ce339829b2fff87348e4344c4dee9cb,
   0x547b9432a6c2233dee4c950b42fac34e, 0x082ea16628d924b2765ba2496d8bd125] ++
  [0x72f8f66486689816d4a45ccc5d65b692, 0x6c704850fdedb9da5e154657a78d9d84,
   0x90d8ab008cbcd30af7e45805b8b34506, 0xd02c1e8fca3f0f02c1afbd0301138a6b] ++
  [0x3a9111414f67dcea97f2cfcef0b4e673, 0x96ac7422e7ad3585e2f937e81c75df6e,
   0x47f11a711d29c5896fb7620eaa18be1b, 0xfc563e4bc6d279209adbc0fe78cd5af4] ++
  [0x1fdda8338807c731b11210592780ec5f, 0x60517fa919b54a0d2de57a9f93c99cef,
   0xa0e03b4dae2af5b0c8ebbb3c83539961, 0x172b047eba77d626e169146355210c7d]

/-- The entry of a 256-byte table for `x`: the row is the high nibble of `x`, the column its low nibble (rule R124). Every
table has 16 rows, so the row is always there. -/
def tableEntry (rows : List (BitVec 128)) (x : Byte) : Byte :=
  (rows.getD (x.toNat / 16) 0).extractLsb' (8 * (15 - x.toNat % 16)) 8

/-- `SBOX[x]` (rule R124). -/
def sbox (x : Byte) : Byte := tableEntry sboxRows x

/-- `INV_SBOX[x]` (rule R125). -/
def invSbox (x : Byte) : Byte := tableEntry invSboxRows x

/-- `RCON[j]` for j = 1 .. 10 (rule R126); any other entry is a free value that no command reads (log entry 2). -/
def rcon (j : Nat) : Byte :=
  match j with
  | 1 => 0x01 | 2 => 0x02 | 3 => 0x04 | 4 => 0x08 | 5 => 0x10
  | 6 => 0x20 | 7 => 0x40 | 8 => 0x80 | 9 => 0x1B | 10 => 0x36
  | n => Config.unusedRcon n

/-! ### The state matrix (rule R9) -/

/-- Row `r` of a column. -/
def colRow (a : Col) (r : Fin 4) : Byte :=
  match r with
  | 0 => a.b0
  | 1 => a.b1
  | 2 => a.b2
  | 3 => a.b3

/-- Column `c` of a block. -/
def blockCol (s : Block) (c : Fin 4) : Col :=
  match c with
  | 0 => s.c0
  | 1 => s.c1
  | 2 => s.c2
  | 3 => s.c3

/-- `s[r][c]`, which is byte `r + 4c` of the block. -/
def matrixAt (s : Block) (r c : Fin 4) : Byte := colRow (blockCol s c) r

/-- The block whose matrix is `f`: byte `r + 4c` is `f r c`. -/
def ofMatrix (f : Fin 4 → Fin 4 → Byte) : Block :=
  ⟨⟨f 0 0, f 1 0, f 2 0, f 3 0⟩, ⟨f 0 1, f 1 1, f 2 1, f 3 1⟩, ⟨f 0 2, f 1 2, f 2 2, f 3 2⟩, ⟨f 0 3, f 1 3, f 2 3, f 3 3⟩⟩

/-- Apply a byte function to each byte of a column. -/
def mapCol (f : Byte → Byte) (a : Col) : Col := ⟨f a.b0, f a.b1, f a.b2, f a.b3⟩

/-- Apply a byte function to each byte of a block. -/
def mapBytes (f : Byte → Byte) (s : Block) : Block := ⟨mapCol f s.c0, mapCol f s.c1, mapCol f s.c2, mapCol f s.c3⟩

/-- Apply a column function to each column of a block. -/
def mapCols (f : Col → Col) (s : Block) : Block := ⟨f s.c0, f s.c1, f s.c2, f s.c3⟩

/-! ### Round transforms -/

/-- SubBytes (rule R127). -/
def subBytes (s : Block) : Block := mapBytes sbox s

/-- InvSubBytes (rule R128). -/
def invSubBytes (s : Block) : Block := mapBytes invSbox s

/-- ShiftRows: row `r` is rotated left by `r` positions (rule R129); the column sum is taken mod 4 by `Fin 4`. -/
def shiftRows (s : Block) : Block := ofMatrix fun r c => matrixAt s r (c + r)

/-- InvShiftRows: row `r` is rotated right by `r` positions (rule R130); the difference is taken mod 4 by `Fin 4`. -/
def invShiftRows (s : Block) : Block := ofMatrix fun r c => matrixAt s r (c - r)

/-- One column of MixColumns (rule R131). -/
def mixColumn (a : Col) : Col :=
  ⟨gmul 2 a.b0 ^^^ gmul 3 a.b1 ^^^ a.b2 ^^^ a.b3,
   a.b0 ^^^ gmul 2 a.b1 ^^^ gmul 3 a.b2 ^^^ a.b3,
   a.b0 ^^^ a.b1 ^^^ gmul 2 a.b2 ^^^ gmul 3 a.b3,
   gmul 3 a.b0 ^^^ a.b1 ^^^ a.b2 ^^^ gmul 2 a.b3⟩

/-- One column of InvMixColumns (rule R132). -/
def invMixColumn (a : Col) : Col :=
  ⟨gmul 14 a.b0 ^^^ gmul 11 a.b1 ^^^ gmul 13 a.b2 ^^^ gmul 9 a.b3,
   gmul 9 a.b0 ^^^ gmul 14 a.b1 ^^^ gmul 11 a.b2 ^^^ gmul 13 a.b3,
   gmul 13 a.b0 ^^^ gmul 9 a.b1 ^^^ gmul 14 a.b2 ^^^ gmul 11 a.b3,
   gmul 11 a.b0 ^^^ gmul 13 a.b1 ^^^ gmul 9 a.b2 ^^^ gmul 14 a.b3⟩

/-- MixColumns (rule R131). -/
def mixColumns (s : Block) : Block := mapCols mixColumn s

/-- InvMixColumns (rule R132). -/
def invMixColumns (s : Block) : Block := mapCols invMixColumn s

/-- AddRoundKey (rule R133). -/
def addRoundKey (s k : Block) : Block := s.xor k

/-! ### Key schedule -/

/-- A byte sequence cut into words of four bytes, in order (rule R135). -/
def colsOfBytes : List Byte → List Col
  | a :: b :: c :: d :: rest => ⟨a, b, c, d⟩ :: colsOfBytes rest
  | _ => []

/-- Rotate a key-schedule word left by one byte (rule R135). -/
def rotWord (t : Col) : Col := ⟨t.b1, t.b2, t.b3, t.b0⟩

/-- The word `t` that `w[i]` takes its difference from: `w[i-1]`, rotated, substituted and given its round constant where
`i mod Nk = 0`, substituted only for AES-256 where `i mod 8 = 4` (rule R135). The round constant goes into the first byte
in key order (C1 of spec/90_conflicts.md). -/
def scheduleTemp (nk i : Nat) (prev : Col) : Col :=
  if i % nk = 0 then
    let t := mapCol sbox (rotWord prev)
    { t with b0 := t.b0 ^^^ rcon (i / nk) }
  else if nk = 8 ∧ i % 8 = 4 then mapCol sbox prev
  else prev

/-- `w[i]` from the words before it, where `i` is their number (rule R135). -/
def nextWord (nk : Nat) (w : List Col) : Col :=
  let i := w.length
  (w.getD (i - nk) Col.zero).xor (scheduleTemp nk i (w.getD (i - 1) Col.zero))

/-- `n` further words of the schedule (rule R135's loop). -/
def moreWords (nk : Nat) : Nat → List Col → List Col
  | 0, w => w
  | n + 1, w => moreWords nk n (w ++ [nextWord nk w])

/-- Nr for a key of `n` bytes: 10, 12 or 14 for 16, 24 or 32; no other length has a schedule (rule R134). -/
def roundsOfKeyLength (n : Nat) : Option Nat :=
  if n = 16 then some 10 else if n = 24 then some 12 else if n = 32 then some 14 else none

/-- The 4(Nr+1) words of the schedule of a key (rule R135). -/
def scheduleWords (key : List Byte) (nr : Nat) : List Col :=
  let w := colsOfBytes key
  moreWords w.length (4 * (nr + 1) - w.length) w

/-- Round key `k` from the words of a schedule: words 4k .. 4k+3 (rule R135). -/
def roundKeyOf (w : List Col) (k : Nat) : Block :=
  ⟨w.getD (4 * k) Col.zero, w.getD (4 * k + 1) Col.zero, w.getD (4 * k + 2) Col.zero, w.getD (4 * k + 3) Col.zero⟩

/-- The round-key store KEY_EXPAND leaves: RK[0..Nr] is the schedule, RK[Nr+1..14] are zero blocks (rules R45, R135, R139). -/
def keyExpansion (key : List Byte) (nr : Nat) : Vector Block 15 :=
  let w := scheduleWords key nr
  Vector.ofFn fun k : Fin 15 => if k.val ≤ nr then roundKeyOf w k.val else Block.zero

/-- RK[k]. The store has entries 0 .. 14 and every index used is one of them. -/
def roundKey (rk : Vector Block 15) (k : Nat) : Block := rk[k]?.getD Block.zero

/-! ### Block encrypt and decrypt -/

/-- One of the rounds 1 .. Nr-1 of encryption (rule R136). -/
def encRound (rk : Vector Block 15) (s : Block) (round : Nat) : Block :=
  addRoundKey (mixColumns (shiftRows (subBytes s))) (roundKey rk round)

/-- EncryptBlock (rule R136). -/
def encryptBlock (rk : Vector Block 15) (nr : Nat) (p : Block) : Block :=
  let s := addRoundKey p (roundKey rk 0)
  let s := (List.range' 1 (nr - 1)).foldl (encRound rk) s
  addRoundKey (shiftRows (subBytes s)) (roundKey rk nr)

/-- One of the rounds Nr-1 .. 1 of decryption (rule R137). -/
def decRound (rk : Vector Block 15) (s : Block) (round : Nat) : Block :=
  invSubBytes (invShiftRows (invMixColumns (addRoundKey s (roundKey rk round))))

/-- DecryptBlock (rule R137). -/
def decryptBlock (rk : Vector Block 15) (nr : Nat) (c : Block) : Block :=
  let s := addRoundKey c (roundKey rk nr)
  let s := invSubBytes (invShiftRows s)
  let s := (List.range' 1 (nr - 1)).reverse.foldl (decRound rk) s
  addRoundKey s (roundKey rk 0)

end Sys2Proof.Machine
end

