-- ==== Sys2Proof/Syntax.lean ====
section
/-! DEFINITION. The syntax of AESX: its commands (rule R101), its registers by name (rule R21), the host's bus accesses
(rules R73 to R75, R105), and the events that reach AESX from outside. -/

namespace Sys2Proof

/-- The commands, one constructor per row of spec/opcode_table.json (rule R101). A command has no operand in its word:
"every operand comes from a register named in the command's rule" (rule R100). -/
inductive Instr where
  | keyExpand
  | blockEnc
  | blockDec
  | ecbEnc
  | ecbDec
  | cbcEnc
  | cbcDec
  | ctrXform
  | ctrEdit
  | gfMul
  | gfInv
  | sboxFwd
  | sboxInv
deriving DecidableEq, Repr

/-- The fields of a command word, format CMD32 (rule R100). -/
structure CmdWord where
  /-- Bits 31:8, reserved. -/
  rsv : BitVec 24
  /-- Bits 7:0, the opcode. -/
  op : Byte
deriving DecidableEq, Repr

/-- The registers of rule R21, by name. -/
inductive Reg where
  | cmd
  | status
  | ctrl
  | keyLen
  | key (j : Fin 8)
  | ivLen
  | iv (j : Fin 4)
  | nonceLo
  | nonceHi
  | src
  | dst
  | len
  | offset
  | eLen
  | blkIn (j : Fin 4)
  | blkOut (j : Fin 4)
  | chain (j : Fin 4)
  | rkSel
  | rkData (j : Fin 4)
  | gfA
  | gfB
  | gfR
  | id
  | bufSize
deriving DecidableEq, Repr

/-- The width of a bus access: 8, 16 or 32 bits (rules R73 and R75). -/
inductive Width where
  | w8
  | w16
  | w32
deriving DecidableEq, Repr

/-- One access of a host over the bus. `addr` is the bus address (log entry 5). A write's data are the bus data bits; an
access narrower than 32 bits uses the low ones (rule R75). No field names a master or a privilege: "AESX has a single
access level" (rule R267). -/
inductive BusReq where
  | read (w : Width) (addr : Nat)
  | write (w : Width) (addr : Nat) (data : Word)
deriving DecidableEq, Repr

/-- What happens next, as `Machine.State.inputs` lists it: the engine has its turn, a bus access arrives, the reset input is
asserted, or power is switched on. The order of the list is the order of the events (rules R81, R265, R290, R293; log
entry 3). -/
inductive Event where
  | engine
  | access (r : BusReq)
  | reset
  | powerOn
deriving DecidableEq, Repr

end Sys2Proof
end

