-- ==== Sys2Proof/Machine/State.lean ====
section
/-! DEFINITION. The state of AESX as plain data (spec/10_state.md, spec/20_memory.md), the ways a step can stop, and the
state right after reset (rules R290 and R291). -/

namespace Sys2Proof.Machine

/-- The error codes 0 .. 7 of rule R250; codes 8 .. 15 are "never reported" and have no constructor. -/
inductive ErrCode where
  | noError
  | invalidKeyLength
  | invalidIvLength
  | outOfBounds
  | lengthNotBlockMultiple
  | noKeySchedule
  | illegalCommand
  | bufferRange
deriving DecidableEq, Repr

/-- The sequencer, SEQ (rule R46). -/
inductive Seq where
  | idle
  | busy
deriving DecidableEq, Repr

/-- The values NR takes: 0, 10, 12, 14 (rule R45). -/
inductive Rounds where
  | r0
  | r10
  | r12
  | r14
deriving DecidableEq, Repr

/-- The response to a bus access (rules R74 to R76). A register read answers a word; a buffer read answers its bytes, byte k
on bus data bits 8k+7 : 8k (rule R75; log entry 6). -/
inductive Resp where
  /-- A register read completed with this value. -/
  | readWord (v : Word)
  /-- A buffer read completed with these bytes, lowest offset first. -/
  | readBytes (bs : List Byte)
  /-- A write completed. -/
  | writeDone
  /-- A bus error on a read, with the data it returns (rule R76). -/
  | readError (v : Word)
  /-- A bus error on a write (rule R76). -/
  | writeError
  /-- The access is outside the window and AESX does not respond (rule R75; log entry 8). -/
  | unselected
deriving DecidableEq, Repr

/-- The bytes of the buffer whose init tag is set, by buffer offset, in strictly rising order (rules R71 and R72). An offset
that is not listed is uninitialised and has no value. -/
abbrev Memory := List Host.Cell

/-- Why the machine stops with a fault. -/
inductive Fault where
  /-- A host read or a command's `MemRead` reached the uninitialised buffer byte at this offset: "A model faults on it (fault
  `UninitBufferRead`, naming the byte offset)" (rule R72). Raised by `memRead`. Safe: hardware goes on with an unspecified
  value. -/
  | uninitBufferRead (offset : Nat)
  /-- A bus access before the first reset completes: "AESX responds to no bus access" (rule R293), a stuck state (U15 of
  spec/93). Raised by `step`. Safe: the access never completes. -/
  | busBeforeReset
deriving DecidableEq, Repr

/-- Why the machine refuses an instruction. -/
inductive Refusal where
  /-- The instruction has no meaning in the model. Raised by an arm of `exec`; no arm raises it. Safe. -/
  | notModelled (mnemonic : String)
deriving DecidableEq, Repr

/-- The state of the machine. Each field's rule stands beside it; INVENTORY.md lists them with widths and reset values. -/
structure State where
  /-- BASE and BUF_BYTES (rule R6): parameters, which no step changes (log entry 1). -/
  cfg : Config
  /-- The first reset since power-on has completed (rule R293; log entry 7). -/
  live : Bool
  /-- SEQ, read as STATUS.BUSY (rules R24 and R46). -/
  seq : Seq
  /-- PENDING, the issued command word (rule R46). -/
  pending : Word
  /-- STATUS.DONE (rule R24). -/
  done : Bool
  /-- STATUS.ERR (rule R24). -/
  err : Bool
  /-- STATUS.OVR (rule R24). -/
  ovr : Bool
  /-- STATUS.ERRCODE (rules R24 and R250). -/
  errCode : ErrCode
  /-- STATUS.LAST_OP (rule R24). -/
  lastOp : Byte
  /-- CTRL.IE (rule R26). -/
  ie : Bool
  /-- KEYLEN (rule R27). -/
  keyLen : BitVec 6
  /-- KEY0 .. KEY7 (rule R28). -/
  key : Vector Word 8
  /-- IVLEN (rule R29). -/
  ivLen : BitVec 6
  /-- IV0 .. IV3 (rule R30). -/
  iv : Vector Word 4
  /-- NONCE_LO (rule R31). -/
  nonceLo : Word
  /-- NONCE_HI (rule R31). -/
  nonceHi : Word
  /-- SRC (rule R32). -/
  src : Word
  /-- DST (rule R33). -/
  dst : Word
  /-- LEN (rule R34). -/
  len : Word
  /-- OFFSET (rule R35). -/
  offset : Word
  /-- ELEN (rule R36). -/
  eLen : Word
  /-- BLK_IN0 .. BLK_IN3 (rule R37). -/
  blkIn : Vector Word 4
  /-- BLK_OUT0 .. BLK_OUT3 (rule R38). -/
  blkOut : Vector Word 4
  /-- CHAIN0 .. CHAIN3 (rule R39). -/
  chain : Vector Word 4
  /-- RK_SEL (rule R40). -/
  rkSel : BitVec 4
  /-- GF_A (rule R42). -/
  gfA : Byte
  /-- GF_B (rule R42). -/
  gfB : Byte
  /-- GF_R (rule R43). -/
  gfR : Byte
  /-- KS_VALID, read as STATUS.KS_VALID (rules R24 and R45). -/
  ksValid : Bool
  /-- NR, read as STATUS.NR (rules R24 and R45). -/
  nr : Rounds
  /-- The round-key store RK[0..14] (rule R45). -/
  rk : Vector Block 15
  /-- The buffer BUF with its init tags (rules R71 and R72). -/
  mem : Memory
  /-- The model's own field: what happens next, oldest first (log entry 3). -/
  inputs : List Event
  /-- The model's own field: the response to the last bus access (log entry 4). -/
  resp : Option Resp
deriving DecidableEq, Repr

/-- The machine right after a reset that found the buffer uninitialised, for any configuration (rules R290, R291, R293). -/
def State.resetWith (c : Config) : State where
  cfg := c
  live := true
  seq := .idle
  pending := 0
  done := false
  err := false
  ovr := false
  errCode := .noError
  lastOp := 0
  ie := false
  keyLen := 0
  key := Vector.replicate 8 0
  ivLen := 0
  iv := Vector.replicate 4 0
  nonceLo := 0
  nonceHi := 0
  src := 0
  dst := 0
  len := 0
  offset := 0
  eLen := 0
  blkIn := Vector.replicate 4 0
  blkOut := Vector.replicate 4 0
  chain := Vector.replicate 4 0
  rkSel := 0
  gfA := 0
  gfB := 0
  gfR := 0
  ksValid := false
  nr := .r0
  rk := Vector.replicate 15 Block.zero
  mem := []
  inputs := []
  resp := none

/-- The machine right after power-on and reset (rules R291 and R293), with the BASE and BUF_BYTES of the spec's examples
(DESIGN CHOICE, log entry 1). -/
def State.reset : State := State.resetWith Config.specExamples

end Sys2Proof.Machine
end

