-- ==== Sys2Proof/Machine/Flags.lean ====
section
/-! DEFINITION. STATUS as software sees it, every way its bits change, and the interrupt output (rules R24, R25, R47, R48, R49,
R250, R262). -/

namespace Sys2Proof.Machine

/-- The number of an error code, as STATUS.ERRCODE reads it (rule R250). -/
def ErrCode.code (c : ErrCode) : BitVec 4 :=
  match c with
  | .noError => 0
  | .invalidKeyLength => 1
  | .invalidIvLength => 2
  | .outOfBounds => 3
  | .lengthNotBlockMultiple => 4
  | .noKeySchedule => 5
  | .illegalCommand => 6
  | .bufferRange => 7

/-- The number NR stands for (rule R45). -/
def Rounds.toNat (n : Rounds) : Nat :=
  match n with
  | .r0 => 0
  | .r10 => 10
  | .r12 => 12
  | .r14 => 14

/-- STATUS.BUSY: 1 exactly when SEQ = BUSY (rule R46). -/
def State.busy (s : State) : Bool := s.seq == .busy

/-- The value a read of STATUS returns: the fields of rule R24 from bit 31 down, reserved bits 0. -/
def statusWord (s : State) : Word :=
  s.lastOp ++ 0#4 ++ BitVec.ofNat 4 s.nr.toNat ++ 0#4 ++ s.errCode.code ++ 0#3 ++ BitVec.ofBool s.ksValid ++
    BitVec.ofBool s.ovr ++ BitVec.ofBool s.err ++ BitVec.ofBool s.done ++ BitVec.ofBool s.busy

/-- A write of `v` to STATUS: the W1C bits DONE, ERR (with ERRCODE) and OVR; all other bits are ignored (rule R25). -/
def writeStatus (v : Word) (s : State) : State :=
  { s with
    done := s.done && !v.getLsbD 1
    err := s.err && !v.getLsbD 2
    errCode := if v.getLsbD 2 then .noError else s.errCode
    ovr := s.ovr && !v.getLsbD 3 }

/-- The issue of a command word while SEQ = IDLE (rule R47, first case). Nothing is checked. -/
def acceptCommand (v : Word) (s : State) : State :=
  { s with
    pending := v
    lastOp := v.extractLsb' 0 8
    done := false
    err := false
    errCode := .noError
    seq := .busy }

/-- A write dropped because the engine is busy: only OVR changes (rules R47 and R49). -/
def dropWrite (s : State) : State := { s with ovr := true }

/-- The report of a command that succeeded (rule R48): ERRCODE 0, DONE 1, SEQ idle. ERR is not written: the issue cleared it
(log entry 9). -/
def reportSuccess (s : State) : State := { s with errCode := .noError, done := true, seq := .idle }

/-- The report of a command that failed (rules R48 and R259): ERR 1, ERRCODE the code, DONE 1, SEQ idle. -/
def reportError (c : ErrCode) (s : State) : State := { s with err := true, errCode := c, done := true, seq := .idle }

/-- The interrupt output: `irq = CTRL.IE ∧ STATUS.DONE` (rule R262). -/
def State.irq (s : State) : Bool := s.ie && s.done

end Sys2Proof.Machine
end

