-- ==== Sys2Proof/Machine/Operands.lean ====
section
/-! DEFINITION. How commands read their operands: the byte order inside registers and blocks (rules R8 to R10, R77), the operand
values, the counter block (rule R155), and the legality checks of each command in order (rules R253 to R258). -/

namespace Sys2Proof.Machine

/-! ### Byte order -/

/-- The word whose byte `m`, bits `8m+7 : 8m`, is byte `m` of the column (rules R10 and R77). -/
def colWord (c : Col) : Word := c.b3 ++ c.b2 ++ c.b1 ++ c.b0

/-- The column whose byte `m` is bits `8m+7 : 8m` of the word (rules R10 and R77). -/
def wordCol (w : Word) : Col := ⟨w.extractLsb' 0 8, w.extractLsb' 8 8, w.extractLsb' 16 8, w.extractLsb' 24 8⟩

/-- `Rbytes(NAME, 16)` of a group of four registers, as a block (rule R10): register `c` holds bytes 4c .. 4c+3. -/
def groupBlock (v : Vector Word 4) : Block := ⟨wordCol v[0], wordCol v[1], wordCol v[2], wordCol v[3]⟩

/-- The four registers after `Rbytes(NAME, 16) <- b` (rule R10). -/
def blockGroup (b : Block) : Vector Word 4 := #v[colWord b.c0, colWord b.c1, colWord b.c2, colWord b.c3]

/-- Byte `k` of a register group: register `k / 4`, bits `8(k mod 4)+7 : 8(k mod 4)` (rule R10). -/
def groupByte {n : Nat} (v : Vector Word n) (k : Nat) : Byte := (v[k / 4]?.getD 0).extractLsb' (8 * (k % 4)) 8

/-- `Rbytes(NAME, n)` of a register group (rule R10). -/
def groupBytes {m : Nat} (v : Vector Word m) (n : Nat) : List Byte := (List.range n).map (groupByte v)

/-- The bytes of a column in order. -/
def colBytes (c : Col) : List Byte := [c.b0, c.b1, c.b2, c.b3]

/-- The 16 bytes of a block in order (rule R8). -/
def blockBytes (b : Block) : List Byte := colBytes b.c0 ++ colBytes b.c1 ++ colBytes b.c2 ++ colBytes b.c3

/-- The block of a sequence of 16 bytes (rule R8). -/
def blockOfBytes (bs : List Byte) : Block :=
  let b (k : Nat) : Byte := bs.getD k 0
  ⟨⟨b 0, b 1, b 2, b 3⟩, ⟨b 4, b 5, b 6, b 7⟩, ⟨b 8, b 9, b 10, b 11⟩, ⟨b 12, b 13, b 14, b 15⟩⟩

/-- Byte `k` of a block, for k < 16 (rule R8). -/
def blockByte (b : Block) (k : Nat) : Byte := (blockBytes b).getD k 0

/-- Bytewise exclusive-or of two byte sequences (rule R8). -/
def xorBytes (a b : List Byte) : List Byte := List.zipWith (· ^^^ ·) a b

/-- The `n`-byte little-endian encoding of `v mod 2^(8n)`: byte `k` is `(v >> 8k) & 0xFF` (rule R8). -/
def leBytes (n v : Nat) : List Byte := (List.range n).map fun k => BitVec.ofNat 8 (v >>> (8 * k))

/-! ### Operand values -/

/-- The key KEY_EXPAND reads: `Rbytes(KEY, KEYLEN)` (rules R28 and R139). -/
def keyBytes (s : State) : List Byte := groupBytes s.key s.keyLen.toNat

/-- NONCE = NONCE_HI × 2^32 + NONCE_LO (rule R31). -/
def nonce (s : State) : Nat := s.nonceHi.toNat * 2 ^ 32 + s.nonceLo.toNat

/-- `CtrBlock(N, i) = le_bytes_8(N) ++ le_bytes_8(i)` (rule R155). -/
def ctrBlock (n i : Nat) : Block := blockOfBytes (leBytes 8 n ++ leBytes 8 i)

/-- EncryptBlock under the stored schedule (rule R136). -/
def State.encrypt (s : State) (p : Block) : Block := encryptBlock s.rk s.nr.toNat p

/-- DecryptBlock under the stored schedule (rule R137). -/
def State.decrypt (s : State) (c : Block) : Block := decryptBlock s.rk s.nr.toNat c

/-- The keystream block of block index `i` (rules R155 and R156). -/
def keystream (s : State) (i : Nat) : Block := s.encrypt (ctrBlock (nonce s) i)

/-! ### Checks (rule R253)

Lengths and address sums are exact, with no wrap-around (rule R13). -/

/-- An error when a condition holds. -/
def failIf (p : Prop) [Decidable p] (c : ErrCode) : Option ErrCode := if p then some c else none

/-- Check 2: KEYLEN ∈ {16, 24, 32} (rule R254). -/
def checkKeyLen (s : State) : Option ErrCode :=
  failIf ((roundsOfKeyLength s.keyLen.toNat).isNone = true) .invalidKeyLength

/-- Check 3: KS_VALID = 1 (rule R255). -/
def checkSchedule (s : State) : Option ErrCode := failIf (s.ksValid = false) .noKeySchedule

/-- Check 4: IVLEN = 16 (rule R257). -/
def checkIvLen (s : State) : Option ErrCode := failIf (s.ivLen.toNat ≠ 16) .invalidIvLength

/-- Check 5: LEN mod 16 = 0 (rule R257). -/
def checkBlockMultiple (s : State) : Option ErrCode := failIf (s.len.toNat % 16 ≠ 0) .lengthNotBlockMultiple

/-- Check 6: OFFSET + ELEN ≤ LEN (rule R257). -/
def checkEditBounds (s : State) : Option ErrCode := failIf (s.offset.toNat + s.eLen.toNat > s.len.toNat) .outOfBounds

/-- Check 7 for ECB, CBC and CTR_XFORM: both ranges fit (rule R258). -/
def checkRanges (s : State) : Option ErrCode :=
  failIf (s.src.toNat + s.len.toNat > s.cfg.bufBytes ∨ s.dst.toNat + s.len.toNat > s.cfg.bufBytes) .bufferRange

/-- Check 7 for CTR_EDIT: both ranges fit (rule R258). -/
def checkEditRanges (s : State) : Option ErrCode :=
  failIf (s.dst.toNat + s.len.toNat > s.cfg.bufBytes ∨ s.src.toNat + s.eLen.toNat > s.cfg.bufBytes) .bufferRange

/-- The checks of a command after check 1 (the legality of its word, which decoding makes), in rule R253's order. -/
def commandChecks (i : Instr) (s : State) : List (Option ErrCode) :=
  match i with
  | .keyExpand => [checkKeyLen s]
  | .blockEnc => [checkSchedule s]
  | .blockDec => [checkSchedule s]
  | .ecbEnc => [checkSchedule s, checkBlockMultiple s, checkRanges s]
  | .ecbDec => [checkSchedule s, checkBlockMultiple s, checkRanges s]
  | .cbcEnc => [checkSchedule s, checkIvLen s, checkBlockMultiple s, checkRanges s]
  | .cbcDec => [checkSchedule s, checkIvLen s, checkBlockMultiple s, checkRanges s]
  | .ctrXform => [checkSchedule s, checkRanges s]
  | .ctrEdit => [checkSchedule s, checkEditBounds s, checkEditRanges s]
  | .gfMul => []
  | .gfInv => []
  | .sboxFwd => []
  | .sboxInv => []

/-- The error a command reports: the first check that fails (rule R253), or none. -/
def commandError (i : Instr) (s : State) : Option ErrCode := (commandChecks i s).findSome? id

/-- The buffer bytes a command writes when its checks pass, as first offset and count (rules R151 to R157, R292). -/
def storedRange (i : Instr) (s : State) : Nat × Nat :=
  match i with
  | .ecbEnc => (s.dst.toNat, s.len.toNat)
  | .ecbDec => (s.dst.toNat, s.len.toNat)
  | .cbcEnc => (s.dst.toNat, s.len.toNat)
  | .cbcDec => (s.dst.toNat, s.len.toNat)
  | .ctrXform => (s.dst.toNat, s.len.toNat)
  | .ctrEdit => (s.dst.toNat + s.offset.toNat, s.eLen.toNat)
  | .keyExpand => (0, 0)
  | .blockEnc => (0, 0)
  | .blockDec => (0, 0)
  | .gfMul => (0, 0)
  | .gfInv => (0, 0)
  | .sboxFwd => (0, 0)
  | .sboxInv => (0, 0)

end Sys2Proof.Machine
end

