-- ==== Sys2Proof/Machine/Ops.lean ====
section
/-! DEFINITION. The named operations the meanings share: the buffer (rules R11, R71, R72), the completion of a command with or
without an error (rules R48 and R259), and the chunk loop of the mode commands (rule R150).

AESX takes no exceptions: "an error is never a trap: nothing is vectored, no context is saved" (spec/60_exceptions.md). What
stands in their place is `completeError`, and in place of a return the host's acknowledgement, `writeStatus` (rule R263). -/

namespace Sys2Proof.Machine

/-! ### The buffer -/

/-- The canonical form of a memory: offsets strictly rising. Every listed byte differs from an unlisted one, which has no
value. -/
abbrev Memory.wf (m : Memory) : Prop := m.Pairwise fun a b => a.1 < b.1

/-- The byte at an offset, none where its init tag is clear (rule R72). -/
def Memory.byteAt (m : Memory) (a : Nat) : Option Byte :=
  match m with
  | [] => none
  | (k, v) :: rest => if k = a then some v else Memory.byteAt rest a

/-- Write one byte: its value and its init tag are set (rule R72). -/
def Memory.setByte (m : Memory) (a : Nat) (v : Byte) : Memory :=
  match m with
  | [] => [(a, v)]
  | (k, w) :: rest =>
    if a < k then (a, v) :: (k, w) :: rest
    else if a = k then (a, v) :: rest
    else (k, w) :: Memory.setByte rest a v

/-- Clear the init tags of the `n` bytes from offset `a` (rule R292). -/
def Memory.clearRange (m : Memory) (a n : Nat) : Memory := m.filter fun c => !(decide (a ≤ c.1) && decide (c.1 < a + n))

/-- Read one byte; an uninitialised byte is a fault (rule R72). -/
def memReadByte (m : Memory) (a : Nat) : Except Fault Byte :=
  match m.byteAt a with
  | some v => .ok v
  | none => .error (.uninitBufferRead a)

/-- `MemRead(a, n)` (rule R11): the fault names the lowest uninitialised offset (log entry 10). -/
def memRead (m : Memory) (a n : Nat) : Except Fault (List Byte) :=
  match n with
  | 0 => .ok []
  | n + 1 =>
    match memReadByte m a with
    | .error f => .error f
    | .ok b =>
      match memRead m (a + 1) n with
      | .error f => .error f
      | .ok bs => .ok (b :: bs)

/-- `MemWrite(a, n, v)` with n the length of `v`, in ascending order (rule R11). -/
def memWrite (m : Memory) (a : Nat) (bs : List Byte) : Memory :=
  match bs with
  | [] => m
  | b :: rest => memWrite (m.setByte a b) (a + 1) rest

/-! ### Completion -/

/-- Invalidate the round-key store: KS_VALID 0, NR 0, every RK[k] zero (rules R139 and R259). -/
def invalidateSchedule (s : State) : State :=
  { s with ksValid := false, nr := .r0, rk := Vector.replicate 15 Block.zero }

/-- The writes a failed command makes besides the report: only INVALID_KEY_LENGTH has any (rule R259). -/
def errorWrites (c : ErrCode) (s : State) : State :=
  match c with
  | .invalidKeyLength => invalidateSchedule s
  | .noError => s
  | .invalidIvLength => s
  | .outOfBounds => s
  | .lengthNotBlockMultiple => s
  | .noKeySchedule => s
  | .illegalCommand => s
  | .bufferRange => s

/-- Completion with an error (rules R48 and R259). -/
def completeError (c : ErrCode) (s : State) : State := reportError c (errorWrites c s)

/-- `Execute` and completion of a command (rules R48, R252, R253): the checks, then the command's writes, in one atomic step. A
fault of the writes stops the machine. -/
def runCommand (i : Instr) (writes : State → Except Fault State) (s : State) : Host.Outcome State Fault Refusal :=
  match commandError i s with
  | some c => .next (completeError c s)
  | none =>
    match writes s with
    | .ok t => .next (reportSuccess t)
    | .error f => .fault f

/-! ### The chunk loop of the mode commands -/

/-- What a mode command does with one chunk: from the block index, the chaining value and the input chunk, the output chunk and
the next chaining value. -/
abbrev ChunkFn := Nat → Block → List Byte → List Byte × Block

/-- `n` chunks from block index `i` on, each read whole, computed and written before the next is read (rule R150). The chunk
has 16 bytes, or what is left of LEN (rule R156). -/
def chunkLoop (f : ChunkFn) (src dst len : Nat) (n i : Nat) (chain : Block) (m : Memory) : Except Fault (Memory × Block) :=
  match n with
  | 0 => .ok (m, chain)
  | n + 1 =>
    match memRead m (src + 16 * i) (min 16 (len - 16 * i)) with
    | .error e => .error e
    | .ok d => chunkLoop f src dst len n (i + 1) (f i chain d).2 (memWrite m (dst + 16 * i) (f i chain d).1)

/-- ⌈LEN / 16⌉ (rule R156); LEN / 16 where LEN is a multiple of 16. -/
def chunkCount (len : Nat) : Nat := (len + 15) / 16

/-- All chunks of a mode command, from block index 0 (rule R150): the buffer and the chaining value it leaves. -/
def runChunks (f : ChunkFn) (chain : Block) (s : State) : Except Fault (Memory × Block) :=
  chunkLoop f s.src.toNat s.dst.toNat s.len.toNat (chunkCount s.len.toNat) 0 chain s.mem

end Sys2Proof.Machine
end

