-- ==== Sys2Proof/Machine/Registers.lean ====
section
/-! DEFINITION. The register part of the window: the map of rule R21, what a read of each register returns, and what a write
does to it (rules R22 to R49). -/

namespace Sys2Proof.Machine

/-- The offset of a register (rule R21). -/
def regOffset (r : Reg) : Nat :=
  match r with
  | .cmd => 0x000
  | .status => 0x004
  | .ctrl => 0x008
  | .keyLen => 0x00C
  | .key j => 0x010 + 4 * j.val
  | .ivLen => 0x030
  | .iv j => 0x034 + 4 * j.val
  | .nonceLo => 0x044
  | .nonceHi => 0x048
  | .src => 0x04C
  | .dst => 0x050
  | .len => 0x054
  | .offset => 0x058
  | .eLen => 0x05C
  | .blkIn j => 0x060 + 4 * j.val
  | .blkOut j => 0x070 + 4 * j.val
  | .chain j => 0x080 + 4 * j.val
  | .rkSel => 0x090
  | .rkData j => 0x094 + 4 * j.val
  | .gfA => 0x0A4
  | .gfB => 0x0A8
  | .gfR => 0x0AC
  | .id => 0x0B0
  | .bufSize => 0x0B4

/-- The register at a word-aligned offset of the register part, none where the offset is reserved (rules R21 and R22). -/
def regAt (off : Nat) : Option Reg :=
  match off with
  | 0x000 => some .cmd
  | 0x004 => some .status
  | 0x008 => some .ctrl
  | 0x00C => some .keyLen
  | 0x010 => some (.key 0) | 0x014 => some (.key 1) | 0x018 => some (.key 2) | 0x01C => some (.key 3)
  | 0x020 => some (.key 4) | 0x024 => some (.key 5) | 0x028 => some (.key 6) | 0x02C => some (.key 7)
  | 0x030 => some .ivLen
  | 0x034 => some (.iv 0) | 0x038 => some (.iv 1) | 0x03C => some (.iv 2) | 0x040 => some (.iv 3)
  | 0x044 => some .nonceLo
  | 0x048 => some .nonceHi
  | 0x04C => some .src
  | 0x050 => some .dst
  | 0x054 => some .len
  | 0x058 => some .offset
  | 0x05C => some .eLen
  | 0x060 => some (.blkIn 0) | 0x064 => some (.blkIn 1) | 0x068 => some (.blkIn 2) | 0x06C => some (.blkIn 3)
  | 0x070 => some (.blkOut 0) | 0x074 => some (.blkOut 1) | 0x078 => some (.blkOut 2) | 0x07C => some (.blkOut 3)
  | 0x080 => some (.chain 0) | 0x084 => some (.chain 1) | 0x088 => some (.chain 2) | 0x08C => some (.chain 3)
  | 0x090 => some .rkSel
  | 0x094 => some (.rkData 0) | 0x098 => some (.rkData 1) | 0x09C => some (.rkData 2) | 0x0A0 => some (.rkData 3)
  | 0x0A4 => some .gfA
  | 0x0A8 => some .gfB
  | 0x0AC => some .gfR
  | 0x0B0 => some .id
  | 0x0B4 => some .bufSize
  | _ => none

/-- RK_DATAj: word `j` of the selected round key where the schedule is valid and holds it, else 0 (rule R41). -/
def readRkData (j : Fin 4) (s : State) : Word :=
  if s.ksValid = true ∧ s.rkSel.toNat ≤ s.nr.toNat then colWord (blockCol (roundKey s.rk s.rkSel.toNat) j) else 0

/-- The value a read of a register returns (rules R23 to R44). No read has a side effect (rule R74). -/
def readReg (r : Reg) (s : State) : Word :=
  match r with
  | .cmd => 0
  | .status => statusWord s
  | .ctrl => (BitVec.ofBool s.ie).setWidth 32
  | .keyLen => s.keyLen.setWidth 32
  | .key j => s.key[j]
  | .ivLen => s.ivLen.setWidth 32
  | .iv j => s.iv[j]
  | .nonceLo => s.nonceLo
  | .nonceHi => s.nonceHi
  | .src => s.src
  | .dst => s.dst
  | .len => s.len
  | .offset => s.offset
  | .eLen => s.eLen
  | .blkIn j => s.blkIn[j]
  | .blkOut j => s.blkOut[j]
  | .chain j => s.chain[j]
  | .rkSel => s.rkSel.setWidth 32
  | .rkData j => readRkData j s
  | .gfA => s.gfA.setWidth 32
  | .gfB => s.gfB.setWidth 32
  | .gfR => s.gfR.setWidth 32
  | .id => 0x31534541
  | .bufSize => BitVec.ofNat 32 s.cfg.bufBytes

/-- What a write of `v` to a register does when it is not dropped: RW registers store their writable bits, CMD issues, STATUS
clears, RO registers ignore it (rules R22 to R44). -/
def storeReg (r : Reg) (v : Word) (s : State) : State :=
  match r with
  | .cmd => acceptCommand v s
  | .status => writeStatus v s
  | .ctrl => { s with ie := v.getLsbD 0 }
  | .keyLen => { s with keyLen := v.setWidth 6 }
  | .key j => { s with key := s.key.set j v }
  | .ivLen => { s with ivLen := v.setWidth 6 }
  | .iv j => { s with iv := s.iv.set j v }
  | .nonceLo => { s with nonceLo := v }
  | .nonceHi => { s with nonceHi := v }
  | .src => { s with src := v }
  | .dst => { s with dst := v }
  | .len => { s with len := v }
  | .offset => { s with offset := v }
  | .eLen => { s with eLen := v }
  | .blkIn j => { s with blkIn := s.blkIn.set j v }
  | .blkOut _ => s
  | .chain _ => s
  | .rkSel => { s with rkSel := v.setWidth 4 }
  | .rkData _ => s
  | .gfA => { s with gfA := v.setWidth 8 }
  | .gfB => { s with gfB := v.setWidth 8 }
  | .gfR => s
  | .id => s
  | .bufSize => s

/-- The registers whose writes are dropped while SEQ = BUSY (the list of rule R49). -/
def dropsWhileBusy (r : Reg) : Bool :=
  match r with
  | .cmd => true
  | .status => false
  | .ctrl => false
  | .keyLen => true
  | .key _ => true
  | .ivLen => true
  | .iv _ => true
  | .nonceLo => true
  | .nonceHi => true
  | .src => true
  | .dst => true
  | .len => true
  | .offset => true
  | .eLen => true
  | .blkIn _ => true
  | .blkOut _ => false
  | .chain _ => false
  | .rkSel => true
  | .rkData _ => false
  | .gfA => true
  | .gfB => true
  | .gfR => false
  | .id => false
  | .bufSize => false

/-- A host write of `v` to a register, with the drop of rule R49. -/
def writeReg (r : Reg) (v : Word) (s : State) : State :=
  if s.busy && dropsWhileBusy r then dropWrite s else storeReg r v s

/-- A read at a word-aligned offset of the register part; a reserved offset reads 0 (rule R22). -/
def readOffset (off : Nat) (s : State) : Word :=
  match regAt off with
  | some r => readReg r s
  | none => 0

/-- A write at a word-aligned offset of the register part; a reserved offset ignores it (rule R22). -/
def writeOffset (off : Nat) (v : Word) (s : State) : State :=
  match regAt off with
  | some r => writeReg r v s
  | none => s

end Sys2Proof.Machine
end

