-- ==== Sys2Proof/Machine/Bus.lean ====
section
/-! DEFINITION. The bus port: where an access goes, when it is held, and what it does (rules R70 to R81). -/

namespace Sys2Proof.Machine

/-- Where a bus access goes (rules R70 and R84). -/
inductive Target where
  /-- Not in AESX's window. -/
  | outside
  /-- The register part, at this offset. -/
  | register (off : Nat)
  /-- The buffer part, at this buffer offset. -/
  | buffer (a : Nat)
deriving DecidableEq, Repr

/-- The bytes of an access of a width. -/
def widthBytes (w : Width) : Nat :=
  match w with
  | .w8 => 1
  | .w16 => 2
  | .w32 => 4

/-- The width of an access. -/
def reqWidth (r : BusReq) : Width :=
  match r with
  | .read w _ => w
  | .write w _ _ => w

/-- The bus address of an access. -/
def reqAddr (r : BusReq) : Nat :=
  match r with
  | .read _ a => a
  | .write _ a _ => a

/-- The part of the window a bus address falls in (rules R70 and R84). -/
def targetOf (c : Config) (addr : Nat) : Target :=
  if addr < c.base then .outside
  else if addr - c.base < 0x1000 then .register (addr - c.base)
  else if addr - c.base < 0x1000 + c.bufBytes then .buffer (addr - c.base - 0x1000)
  else .outside

/-- An access to the buffer part while SEQ = BUSY is held (rule R78; log entry 11). -/
def isHeld (r : BusReq) (s : State) : Bool :=
  match targetOf s.cfg (reqAddr r) with
  | .outside => false
  | .register _ => false
  | .buffer _ => s.busy

/-- Record the response to an access (log entry 4). -/
def respond (r : Resp) (s : State) : State := { s with resp := some r }

/-- A bus error: an error response and no other change; a read returns data 0 (rule R76). -/
def busError (r : BusReq) (s : State) : State :=
  match r with
  | .read _ _ => respond (.readError 0) s
  | .write _ _ _ => respond .writeError s

/-- An access to the register part: 32 bits wide at a multiple of 4, else a bus error (rules R73 and R74). -/
def registerAccess (r : BusReq) (off : Nat) (s : State) : State :=
  if reqWidth r = .w32 ∧ off % 4 = 0 then
    match r with
    | .read _ _ => respond (.readWord (readOffset off s)) s
    | .write _ _ v => respond .writeDone (writeOffset off v s)
  else busError r s

/-- The bytes a write puts on the bus: byte `k` is data bits `8k+7 : 8k` (rule R75). -/
def dataBytes (w : Width) (v : Word) : List Byte := (List.range (widthBytes w)).map fun k => v.extractLsb' (8 * k) 8

/-- An access to the buffer part at buffer offset `a`: naturally aligned and inside the buffer, else a bus error (rule R75). -/
def bufferAccess (r : BusReq) (a : Nat) (s : State) : Except Fault State :=
  if a % widthBytes (reqWidth r) = 0 ∧ a + widthBytes (reqWidth r) ≤ s.cfg.bufBytes then
    match r with
    | .read w _ =>
      match memRead s.mem a (widthBytes w) with
      | .error f => .error f
      | .ok bs => .ok (respond (.readBytes bs) s)
    | .write w _ v => .ok (respond .writeDone { s with mem := memWrite s.mem a (dataBytes w v) })
  else .ok (busError r s)

/-- A bus access that is not held, in one atomic step (rule R80). An access outside the window is not answered (rule R75; log
entry 8). -/
def busAccess (r : BusReq) (s : State) : Host.Outcome State Fault Refusal :=
  match targetOf s.cfg (reqAddr r) with
  | .outside => .next (respond .unselected s)
  | .register off => .next (registerAccess r off s)
  | .buffer a =>
    match bufferAccess r a s with
    | .error f => .fault f
    | .ok t => .next t

end Sys2Proof.Machine
end

