-- ==== Sys2Proof/WellFormed.lean ====
section
/-! DEFINITION. Which command words are legal (rules R100 and R101), as checks on the fields of the word. -/

namespace Sys2Proof

/-- The opcodes of rule R101. -/
def listedOps : List Byte :=
  [0x01, 0x02, 0x03, 0x10, 0x11, 0x12, 0x13, 0x14, 0x15, 0x20, 0x21, 0x22, 0x23]

/-- The reserved bits are zero (rule R100). -/
def CmdWord.rsvZero (w : CmdWord) : Bool := w.rsv == 0

/-- The opcode is one of rule R101's. -/
def CmdWord.opListed (w : CmdWord) : Bool := listedOps.contains w.op

/-- "A command word is legal exactly when `rsv = 0` and `op` is one of these values" (rule R101). -/
def CmdWord.wf (w : CmdWord) : Bool := w.rsvZero && w.opListed

/-- An instruction has no operand, so every instruction is well-formed (rule R100). -/
def Instr.wf (_ : Instr) : Bool := true

end Sys2Proof
end

