-- ==== Sys2Proof/Decode.lean ====
section
/-! DEFINITION. Decoding the 32-bit value written to CMD (rules R100 to R103), total on every value, and the encoder. -/

namespace Sys2Proof

/-- Why a command word is no command (rule R103). -/
inductive DecodeError where
  /-- Bits 31:8 are not all zero. -/
  | reservedBitsSet
  /-- The opcode is not in the map of rule R101. -/
  | unlistedOpcode
deriving DecidableEq, Repr

/-- The fields of a command word (rule R100). -/
def CmdWord.ofWord (w : Word) : CmdWord := ⟨w.extractLsb' 8 24, w.extractLsb' 0 8⟩

/-- The word of two fields (rule R100). -/
def CmdWord.toWord (c : CmdWord) : Word := c.rsv ++ c.op

/-- The opcode map, from opcode to command (rule R102). -/
def commandOfOp (op : Byte) : Option Instr :=
  match op.toNat with
  | 0x01 => some .keyExpand
  | 0x02 => some .blockEnc
  | 0x03 => some .blockDec
  | 0x10 => some .ecbEnc
  | 0x11 => some .ecbDec
  | 0x12 => some .cbcEnc
  | 0x13 => some .cbcDec
  | 0x14 => some .ctrXform
  | 0x15 => some .ctrEdit
  | 0x20 => some .gfMul
  | 0x21 => some .gfInv
  | 0x22 => some .sboxFwd
  | 0x23 => some .sboxInv
  | _ => none

/-- The decoder: the command of a word, or why it is none (rules R102 and R103). -/
def decode (w : Word) : Except DecodeError Instr :=
  if (CmdWord.ofWord w).rsv = 0 then
    match commandOfOp (CmdWord.ofWord w).op with
    | some i => .ok i
    | none => .error .unlistedOpcode
  else .error .reservedBitsSet

/-- The opcode of a command (rule R101, the column `op`). -/
def opcode (i : Instr) : Byte :=
  match i with
  | .keyExpand => 0x01
  | .blockEnc => 0x02
  | .blockDec => 0x03
  | .ecbEnc => 0x10
  | .ecbDec => 0x11
  | .cbcEnc => 0x12
  | .cbcDec => 0x13
  | .ctrXform => 0x14
  | .ctrEdit => 0x15
  | .gfMul => 0x20
  | .gfInv => 0x21
  | .sboxFwd => 0x22
  | .sboxInv => 0x23

/-- The encoder: the command's word, with its reserved bits zero (rules R100 and R101). -/
def encode (i : Instr) : Word := CmdWord.toWord ⟨0, opcode i⟩

/-- The value of a table row's bits, `nbits` of them, the rest zero. -/
def tableValue (nbits w : Nat) : Nat := w % 2 ^ nbits

/-- The command the decoder reads from a word numbered as spec/opcode_table.json numbers it: one 32-bit word, bit 0 the
least significant. A value that does not fit in 32 bits is no command word: "Every command word is exactly 32 bits" (rule
R100). -/
def decodeTableWord (nbits w : Nat) : Option Instr :=
  if tableValue nbits w < 2 ^ 32 then
    match decode (BitVec.ofNat 32 (tableValue nbits w)) with
    | .ok i => some i
    | .error _ => none
  else none

end Sys2Proof
end

