-- ==== Sys2Proof/Machine/Reset.lean ====
section
/-! DEFINITION. The reset input, the abort of a command in flight, and power-on (rules R290 to R293). -/

namespace Sys2Proof.Machine

/-- The buffer bytes a reset makes uninitialised, as first offset and count: those the command in flight could have written,
if its checks would pass (rule R292). -/
def abortedRange (s : State) : Nat × Nat :=
  match s.seq with
  | .idle => (0, 0)
  | .busy =>
    match decode s.pending with
    | .error _ => (0, 0)
    | .ok i =>
      match commandError i s with
      | some _ => (0, 0)
      | none => storedRange i s

/-- The buffer after a reset (rules R290 and R292). -/
def resetMemory (s : State) : Memory := s.mem.clearRange (abortedRange s).1 (abortedRange s).2

/-- The reset event (rule R290): every register and the round-key store at their reset values, SEQ idle; the buffer as rule
R292 says. The parameters stay, and so do the model's own fields (log entries 3 and 4). -/
def resetEvent (s : State) : State :=
  { State.resetWith s.cfg with mem := resetMemory s, inputs := s.inputs, resp := s.resp }

/-- Power is switched on: reset is asserted and has not completed, and every buffer byte is uninitialised (rules R271 and R293;
log entry 7). -/
def powerOnEvent (s : State) : State :=
  { State.resetWith s.cfg with live := false, inputs := s.inputs, resp := s.resp }

end Sys2Proof.Machine
end

