-- ==== Sys2Proof/Machine/Engine.lean ====
section
/-! DEFINITION. The engine commands KEY_EXPAND, BLOCK_ENC and BLOCK_DEC (rules R139 to R141). -/

namespace Sys2Proof.Machine

/-- NR for a key of `n` bytes (rule R134); r0 for a length that has no schedule, which the check has refused. -/
def roundsField (n : Nat) : Rounds :=
  match roundsOfKeyLength n with
  | some 10 => .r10
  | some 12 => .r12
  | some 14 => .r14
  | _ => .r0

/-- KEY_EXPAND's writes when KEYLEN is legal (rule R139). -/
def keyExpandWrites (s : State) : Except Fault State :=
  let nr := roundsField s.keyLen.toNat
  .ok { s with ksValid := true, nr := nr, rk := keyExpansion (keyBytes s) nr.toNat }

/-- KEY_EXPAND (rule R139). A KEYLEN that is not 16, 24 or 32 completes with INVALID_KEY_LENGTH and destroys the schedule. -/
def execKeyExpand (s : State) : Host.Outcome State Fault Refusal := runCommand .keyExpand keyExpandWrites s

/-- BLOCK_ENC's write (rule R140). -/
def blockEncWrites (s : State) : Except Fault State :=
  .ok { s with blkOut := blockGroup (s.encrypt (groupBlock s.blkIn)) }

/-- BLOCK_ENC (rule R140). -/
def execBlockEnc (s : State) : Host.Outcome State Fault Refusal := runCommand .blockEnc blockEncWrites s

/-- BLOCK_DEC's write (rule R141). -/
def blockDecWrites (s : State) : Except Fault State :=
  .ok { s with blkOut := blockGroup (s.decrypt (groupBlock s.blkIn)) }

/-- BLOCK_DEC (rule R141). -/
def execBlockDec (s : State) : Host.Outcome State Fault Refusal := runCommand .blockDec blockDecWrites s

end Sys2Proof.Machine
end

