-- ==== Sys2Proof/Machine/Modes.lean ====
section
/-! DEFINITION. The mode commands ECB, CBC and CTR with its random-access edit (rules R150 to R157). -/

namespace Sys2Proof.Machine

/-- One ECB block: a block function applied to the chunk; no chaining (rules R151 and R152). -/
def ecbChunk (f : Block → Block) : ChunkFn := fun _ chain d => (blockBytes (f (blockOfBytes d)), chain)

/-- One block of CBC encryption: the chaining value is the ciphertext computed (rule R153). -/
def cbcEncChunk (s : State) : ChunkFn := fun _ chain d =>
  let c := s.encrypt ((blockOfBytes d).xor chain)
  (blockBytes c, c)

/-- One block of CBC decryption: the chaining value is the input block (rule R154). -/
def cbcDecChunk (s : State) : ChunkFn := fun _ chain d =>
  let c := blockOfBytes d
  (blockBytes ((s.decrypt c).xor chain), c)

/-- One CTR chunk: as many keystream bytes as the chunk has (rule R156). -/
def ctrChunk (s : State) : ChunkFn := fun i chain d =>
  (xorBytes d ((blockBytes (keystream s i)).take d.length), chain)

/-- The writes of a command that leaves only the buffer changed. -/
def bufferWrites (f : ChunkFn) (s : State) : Except Fault State :=
  match runChunks f Block.zero s with
  | .error e => .error e
  | .ok r => .ok { s with mem := r.1 }

/-- The writes of a CBC command: the buffer, and CHAIN with the final chaining value (rules R153 and R154). -/
def cbcWrites (f : ChunkFn) (s : State) : Except Fault State :=
  match runChunks f (groupBlock s.iv) s with
  | .error e => .error e
  | .ok r => .ok { s with mem := r.1, chain := blockGroup r.2 }

/-- ECB_ENC's writes (rule R151). -/
def ecbEncWrites (s : State) : Except Fault State := bufferWrites (ecbChunk s.encrypt) s

/-- ECB_ENC (rule R151). -/
def execEcbEnc (s : State) : Host.Outcome State Fault Refusal := runCommand .ecbEnc ecbEncWrites s

/-- ECB_DEC's writes (rule R152). -/
def ecbDecWrites (s : State) : Except Fault State := bufferWrites (ecbChunk s.decrypt) s

/-- ECB_DEC (rule R152). -/
def execEcbDec (s : State) : Host.Outcome State Fault Refusal := runCommand .ecbDec ecbDecWrites s

/-- CBC_ENC's writes (rule R153). -/
def cbcEncWrites (s : State) : Except Fault State := cbcWrites (cbcEncChunk s) s

/-- CBC_ENC (rule R153). -/
def execCbcEnc (s : State) : Host.Outcome State Fault Refusal := runCommand .cbcEnc cbcEncWrites s

/-- CBC_DEC's writes (rule R154). -/
def cbcDecWrites (s : State) : Except Fault State := cbcWrites (cbcDecChunk s) s

/-- CBC_DEC (rule R154). -/
def execCbcDec (s : State) : Host.Outcome State Fault Refusal := runCommand .cbcDec cbcDecWrites s

/-- CTR_XFORM's writes (rule R156). -/
def ctrXformWrites (s : State) : Except Fault State := bufferWrites (ctrChunk s) s

/-- CTR_XFORM (rule R156). -/
def execCtrXform (s : State) : Host.Outcome State Fault Refusal := runCommand .ctrXform ctrXformWrites s

/-- `n` bytes of a CTR edit from byte `j` on, in ascending order (rule R157): byte `j` of the new plaintext is read, and its
exclusive-or with the keystream byte of ciphertext offset OFFSET + j is written there. -/
def editLoop (s : State) (n j : Nat) (m : Memory) : Except Fault Memory :=
  match n with
  | 0 => .ok m
  | n + 1 =>
    let p := s.offset.toNat + j
    match memReadByte m (s.src.toNat + j) with
    | .error e => .error e
    | .ok b => editLoop s n (j + 1) (memWrite m (s.dst.toNat + p) [b ^^^ blockByte (keystream s (p / 16)) (p % 16)])

/-- CTR_EDIT's writes (rule R157). -/
def ctrEditWrites (s : State) : Except Fault State :=
  match editLoop s s.eLen.toNat 0 s.mem with
  | .error e => .error e
  | .ok m => .ok { s with mem := m }

/-- CTR_EDIT (rule R157). -/
def execCtrEdit (s : State) : Host.Outcome State Fault Refusal := runCommand .ctrEdit ctrEditWrites s

end Sys2Proof.Machine
end

