-- ==== Sys2Proof/Machine/Probe.lean ====
section
/-! DEFINITION. The GF(2^8) and S-box probe commands (rules R170 to R173). None checks anything after decoding. -/

namespace Sys2Proof.Machine

/-- The write of a probe command: its result goes to GF_R (rule R43). -/
def probeWrites (f : State → Byte) (s : State) : Except Fault State := .ok { s with gfR := f s }

/-- GF_MUL (rule R170). -/
def execGfMul (s : State) : Host.Outcome State Fault Refusal :=
  runCommand .gfMul (probeWrites fun s => gmul s.gfA s.gfB) s

/-- GF_INV (rule R171). -/
def execGfInv (s : State) : Host.Outcome State Fault Refusal :=
  runCommand .gfInv (probeWrites fun s => ginv s.gfA) s

/-- SBOX_FWD (rule R172). -/
def execSboxFwd (s : State) : Host.Outcome State Fault Refusal :=
  runCommand .sboxFwd (probeWrites fun s => sbox s.gfA) s

/-- SBOX_INV (rule R173). -/
def execSboxInv (s : State) : Host.Outcome State Fault Refusal :=
  runCommand .sboxInv (probeWrites fun s => invSbox s.gfA) s

end Sys2Proof.Machine
end

