-- ==== Sys2Proof/Machine/Sequencer.lean ====
section
/-! DEFINITION. The engine's turn: the completion step of the command in flight (rules R46 and R48). -/

namespace Sys2Proof.Machine

/-- The engine's turn. While SEQ = BUSY it is the completion step: the pending word is decoded and its command run, and a word
that is no command completes with ILLEGAL_COMMAND (rules R48, R102, R103, R256). While SEQ = IDLE it changes nothing. -/
def engineTurn (s : State) : Host.Outcome State Fault Refusal :=
  match s.seq with
  | .idle => .next s
  | .busy =>
    match decode s.pending with
    | .ok i => exec i s
    | .error _ => .next (completeError .illegalCommand s)

end Sys2Proof.Machine
end

