-- ==== Sys2Proof/Machine/Step.lean ====
section
/-! DEFINITION. One step of the machine: the next event of `inputs`, or the engine's turn where none is left or the next one is
a held access (rules R48, R78, R81, R265, R290; log entry 3). -/

namespace Sys2Proof.Machine

/-- One step. -/
def step (s : State) : Host.Outcome State Fault Refusal :=
  match s.inputs with
  | [] => engineTurn s
  | .engine :: rest => engineTurn { s with inputs := rest }
  | .reset :: rest => .next (resetEvent { s with inputs := rest })
  | .powerOn :: rest => .next (powerOnEvent { s with inputs := rest })
  | .access r :: rest =>
    if s.live = false then .fault .busBeforeReset
    else if isHeld r s then engineTurn s
    else busAccess r { s with inputs := rest }

/-- The state whose next step runs the command of a word numbered as spec/opcode_table.json numbers it: the word is issued as a
CMD write issues it (rule R47), and the engine has the next turn (log entry 12). -/
def State.withFetchWord (s : State) (nbits w : Nat) : State :=
  { acceptCommand (BitVec.ofNat 32 (tableValue nbits w)) s with inputs := .engine :: s.inputs }

end Sys2Proof.Machine
end

