-- ==== Sys2Proof/Machine/HostSyntax.lean ====
section
/-! DEFINITION. The host's transaction syntax and pseudo-instructions (rules R105 and R106), as scripts of events for
`State.inputs`. A script of a program is the concatenation of its lines. -/

namespace Sys2Proof.Machine

/-- `WR <reg>, <value>` (rule R105). -/
def wrReg (c : Config) (r : Reg) (v : Word) : Event := .access (.write .w32 (c.base + regOffset r) v)

/-- `RD <reg>` (rule R105). -/
def rdReg (c : Config) (r : Reg) : Event := .access (.read .w32 (c.base + regOffset r))

/-- `WRB <a>, <bytes>`, as one 8-bit write per byte (rule R105). -/
def wrBytes (c : Config) (a : Nat) (bs : List Byte) : List Event :=
  match bs with
  | [] => []
  | b :: rest => .access (.write .w8 (c.base + 0x1000 + a) (b.setWidth 32)) :: wrBytes c (a + 1) rest

/-- `RDB <a>, <n>`, as 8-bit reads (rule R105). -/
def rdBytes (c : Config) (a n : Nat) : List Event :=
  (List.range n).map fun k => .access (.read .w8 (c.base + 0x1000 + a + k))

/-- `CMD <mnemonic>` (rule R105). -/
def cmdLine (c : Config) (i : Instr) : Event := wrReg c .cmd (encode i)

/-- `WAIT` where the command completes after `polls` polls have found it busy: the polls, the completion step, and the poll
that leaves the loop (rule R106; "each `CMD` is followed by one completion step before `WAIT` exits", spec/95 section 3; log
entry 13). -/
def waitLines (c : Config) (polls : Nat) : List Event := List.replicate polls (rdReg c .status) ++ [.engine, rdReg c .status]

/-- `CHECK` reads STATUS (rule R106). -/
def checkLine (c : Config) : Event := rdReg c .status

/-- What `CHECK` expects of the value it reads: DONE = 1 and ERR = 0 (rule R106). -/
def checkPasses (v : Word) : Bool := v.getLsbD 1 && !v.getLsbD 2

/-- Writes of words to the registers of a group, from the first register on. DESIGN CHOICE (log entry 15): words past the last
register of the group are not written. -/
def groupLines {n : Nat} (c : Config) (reg : Fin n → Reg) (ws : List Col) : List Event :=
  (List.finRange n).filterMap fun j => (ws[j.val]?).map fun w => wrReg c (reg j) (colWord w)

/-- `LDKEY <hex key>`: the key bytes packed little-endian, then KEYLEN with their number (rule R106). DESIGN CHOICE (log entry 15),
for a byte count that is no multiple of 4 or is above 32, where the rule does not say how the last register is filled: a KEY register
is written only where all four of its bytes are given, the last 1 to 3 bytes and the bytes past 32 are dropped, and KEYLEN is written
with the full count. -/
def ldKey (c : Config) (key : List Byte) : List Event :=
  groupLines c Reg.key (colsOfBytes key) ++ [wrReg c .keyLen (BitVec.ofNat 32 key.length)]

/-- `LDIV <hex 16 bytes>` (rule R106; another count as in `ldKey`, log entry 15). -/
def ldIv (c : Config) (iv : List Byte) : List Event := groupLines c Reg.iv (colsOfBytes iv) ++ [wrReg c .ivLen 0x10]

/-- `LDBLK <hex 16 bytes>` (rule R106; another count as in `ldKey`, log entry 15). -/
def ldBlk (c : Config) (b : List Byte) : List Event := groupLines c Reg.blkIn (colsOfBytes b)

/-- `LDNONCE <u64>` (rule R106); only bits 63:0 of the number are used (log entry 15). -/
def ldNonce (c : Config) (n : Nat) : List Event :=
  [wrReg c .nonceLo (BitVec.ofNat 32 n), wrReg c .nonceHi (BitVec.ofNat 32 (n >>> 32))]

/-- `RUN <mnemonic>`: `CMD` then `WAIT` (rule R106). -/
def runLines (c : Config) (i : Instr) (polls : Nat) : List Event := cmdLine c i :: waitLines c polls

end Sys2Proof.Machine
end

