-- ==== Sys2Proof/Safety.lean ====
section
/-! DEFINITION. The terms the claims use: the invariant of the machine, which bytes a command reads, when ranges do not clobber
each other, and the register classes of rules R22 and R49. -/

namespace Sys2Proof.Machine

/-- The invariant of the machine: the buffer is in canonical form and inside BUF_BYTES (rule R71), the round-key store is as
rule R45 says, and the report is as rules R47, R48, R250 and R293 leave it. -/
structure Inv (s : State) : Prop where
  /-- The buffer's canonical form. -/
  memWf : s.mem.wf
  /-- Every initialised byte is in the buffer (rule R71). -/
  memBound : ∀ c ∈ s.mem, c.1 < s.cfg.bufBytes
  /-- "KS_VALID = 1 ⇔ NR ∈ {10,12,14}" (rule R45). -/
  validIffRounds : s.ksValid = true ↔ s.nr ≠ .r0
  /-- "When KS_VALID = 1, RK[0..NR] is the key schedule of the key KEY_EXPAND last read, and RK[NR+1..14] are zero blocks"
  (rule R45): the store is the expansion of some key of the length that NR goes with. -/
  validSchedule : s.ksValid = true →
    ∃ key : List Byte, roundsOfKeyLength key.length = some s.nr.toNat ∧ s.rk = keyExpansion key s.nr.toNat
  /-- "When KS_VALID = 0, NR = 0 and every RK[k] is zero" (rule R45). -/
  noSchedule : s.ksValid = false → s.rk = Vector.replicate 15 Block.zero
  /-- While a command is in flight the report is clear and LAST_OP is its opcode byte (rule R47). -/
  busyReport : s.seq = .busy →
    s.done = false ∧ s.err = false ∧ s.errCode = .noError ∧ s.lastOp = s.pending.extractLsb' 0 8
  /-- ERR is set exactly when ERRCODE is an error (rules R25, R48, R250). -/
  errIffCode : s.err = true ↔ s.errCode ≠ .noError
  /-- Before the first reset completes no command is in flight and `irq` is low (log entry 7, DESIGN CHOICE; rule R293 says
  only that AESX responds to no bus access). -/
  beforeReset : s.live = false → s.seq = .idle ∧ s.irq = false

/-- The `n` buffer bytes from offset `a` are initialised (rule R72). -/
def Initialised (m : Memory) (a n : Nat) : Prop := ∀ k, k < n → (m.byteAt (a + k)).isSome = true

/-- The buffer bytes a command reads when its checks pass, as first offset and count (rules R151 to R157). -/
def readRange (i : Instr) (s : State) : Nat × Nat :=
  match i with
  | .ecbEnc => (s.src.toNat, s.len.toNat)
  | .ecbDec => (s.src.toNat, s.len.toNat)
  | .cbcEnc => (s.src.toNat, s.len.toNat)
  | .cbcDec => (s.src.toNat, s.len.toNat)
  | .ctrXform => (s.src.toNat, s.len.toNat)
  | .ctrEdit => (s.src.toNat, s.eLen.toNat)
  | .keyExpand => (0, 0)
  | .blockEnc => (0, 0)
  | .blockDec => (0, 0)
  | .gfMul => (0, 0)
  | .gfInv => (0, 0)
  | .sboxFwd => (0, 0)
  | .sboxInv => (0, 0)

/-- The step answers a next state. -/
def StepSafe (s : State) : Prop := ∃ t, step s = .next t

/-- The ranges `[src, src+n)` and `[dst, dst+n)` are equal or disjoint: "Software that wants the source's functions must keep the
ranges equal or disjoint" (rule R302). -/
def NoClobber (src dst n : Nat) : Prop := src = dst ∨ src + n ≤ dst ∨ dst + n ≤ src

/-- The block at a buffer offset, none where one of its bytes is uninitialised. -/
def blockAt (m : Memory) (a : Nat) : Option Block :=
  match memRead m a 16 with
  | .ok bs => some (blockOfBytes bs)
  | .error _ => none

/-- The source and destination ranges of a mode command fit in the buffer (rule R258). -/
def RangesFit (s : State) : Prop :=
  s.src.toNat + s.len.toNat ≤ s.cfg.bufBytes ∧ s.dst.toNat + s.len.toNat ≤ s.cfg.bufBytes

/-- The ranges of a CTR edit are in bounds and fit in the buffer (rules R257 and R258). -/
def EditFits (s : State) : Prop :=
  s.offset.toNat + s.eLen.toNat ≤ s.len.toNat ∧
    s.dst.toNat + s.len.toNat ≤ s.cfg.bufBytes ∧ s.src.toNat + s.eLen.toNat ≤ s.cfg.bufBytes

/-- The writable bits of the RW registers (rules R26 to R37, R40, R42); none for a register that is not RW. -/
def writableMask (r : Reg) : Option Word :=
  match r with
  | .cmd => none
  | .status => none
  | .ctrl => some 0x1
  | .keyLen => some 0x3F
  | .key _ => some 0xFFFFFFFF
  | .ivLen => some 0x3F
  | .iv _ => some 0xFFFFFFFF
  | .nonceLo => some 0xFFFFFFFF
  | .nonceHi => some 0xFFFFFFFF
  | .src => some 0xFFFFFFFF
  | .dst => some 0xFFFFFFFF
  | .len => some 0xFFFFFFFF
  | .offset => some 0xFFFFFFFF
  | .eLen => some 0xFFFFFFFF
  | .blkIn _ => some 0xFFFFFFFF
  | .blkOut _ => none
  | .chain _ => none
  | .rkSel => some 0xF
  | .rkData _ => none
  | .gfA => some 0xFF
  | .gfB => some 0xFF
  | .gfR => none
  | .id => none
  | .bufSize => none

/-- The registers rule R49 lists as dropped while SEQ = BUSY. -/
def droppedRegs : List Reg :=
  [.cmd, .keyLen, .ivLen, .nonceLo, .nonceHi, .src, .dst, .len, .offset, .eLen, .rkSel, .gfA, .gfB] ++
    (List.finRange 8).map Reg.key ++ (List.finRange 4).map Reg.iv ++ (List.finRange 4).map Reg.blkIn

/-- The read-only registers of rule R21. -/
def readOnlyRegs : List Reg :=
  [.gfR, .id, .bufSize] ++ (List.finRange 4).map Reg.blkOut ++ (List.finRange 4).map Reg.chain ++
    (List.finRange 4).map Reg.rkData

/-- The commands that need a key schedule (rule R255). -/
def cipherCommands : List Instr := [.blockEnc, .blockDec, .ecbEnc, .ecbDec, .cbcEnc, .cbcDec, .ctrXform, .ctrEdit]

/-- The state a command leaves when it fails with a code and writes nothing besides the report (rules R48 and R259). -/
def failed (c : ErrCode) (s : State) : State := { s with err := true, errCode := c, done := true, seq := .idle }

/-- Word `i` of a round-key store: column `i mod 4` of RK[i / 4] (rule R135). -/
def storeWord (rk : Vector Block 15) (i : Nat) : Col :=
  let b := roundKey rk (i / 4)
  match i % 4 with
  | 0 => b.c0
  | 1 => b.c1
  | 2 => b.c2
  | _ => b.c3

end Sys2Proof.Machine
end

