-- ==== Sys2Proof/Certificates/Slice0/Obligations.lean ====
section
/-! DEFINITION. The statements about the machine. Each docstring names the rule of spec/ it formalises, and the log entry where a
clause is the model's choice. The fields `inputs` and `resp` are the model's own (log entries 3 and 4): a clause that says what
becomes of them rests on those entries, whatever rule its statement cites. -/

open Sys2Proof Sys2Proof.Machine

/-! ### Encoding and decoding -/

/-- Rule R101, on a few words written out from the table: op 0x01 is KEY_EXPAND, op 0x15 CTR_EDIT, op 0x23 SBOX_INV, a word with
a reserved bit set and op 0x00 are none; and every command's word decodes to it, as a table word too. -/
def Obligations.SampleWordsDecode : Prop :=
  decode 0b00000000000000000000000000000001#32 = .ok .keyExpand ∧
  decode 0b00000000000000000000000000010101#32 = .ok .ctrEdit ∧
  decode 0b00000000000000000000000000100011#32 = .ok .sboxInv ∧
  decode 0x00000122#32 = .error .reservedBitsSet ∧
  decode 0x00000000#32 = .error .unlistedOpcode ∧
  ∀ i : Instr, i.wf = true → decode (encode i) = .ok i ∧ decodeTableWord 32 (encode i).toNat = some i

/-- Rules R101 and R102: a word is a command exactly when it is one of the thirteen of the map, and it is the command the map
gives it. -/
def Obligations.DecodeFollowsOpcodeMap : Prop :=
  ∀ (w : Word) (i : Instr), decode w = .ok i ↔
    (w, i) ∈ [(0x01#32, Instr.keyExpand), (0x02#32, .blockEnc), (0x03#32, .blockDec), (0x10#32, .ecbEnc),
      (0x11#32, .ecbDec), (0x12#32, .cbcEnc), (0x13#32, .cbcDec), (0x14#32, .ctrXform), (0x15#32, .ctrEdit),
      (0x20#32, .gfMul), (0x21#32, .gfInv), (0x22#32, .sboxFwd), (0x23#32, .sboxInv)]

/-- Rule R103: every other word is illegal, by name: a reserved bit set, or else an unlisted opcode. -/
def Obligations.IllegalWordsAreRefusedByName : Prop :=
  ∀ w : Word,
    (decode w = .error .reservedBitsSet ↔ w.extractLsb' 8 24 ≠ 0) ∧
    (decode w = .error .unlistedOpcode ↔ w.extractLsb' 8 24 = 0 ∧ w.extractLsb' 0 8 ∉ listedOps) ∧
    ((∃ i, decode w = .ok i) ↔ (CmdWord.ofWord w).wf = true)

/-- The word a command was decoded from is the word the encoder gives it: no bit of a command word is dropped. -/
def Obligations.EncodeReturnsTheDecodedWord : Prop :=
  ∀ (w : Word) (i : Instr), decode w = .ok i → encode i = w

/-- Rules R48 and R102: while SEQ = BUSY the engine's turn runs the command PENDING decodes to, at that state. When the engine has
its turn is the model's: where `inputs` says so and where it is empty (log entry 3, DESIGN CHOICE), and where a held access waits
(log entry 3, DEDUCED from rule R78). While SEQ = IDLE no engine step is enabled (rules R48, R291), and the engine's turn changes nothing
but takes its event (log entry 3, DESIGN CHOICE). That the state `withFetchWord` gives has its command as the next step is the model's too (log
entry 12, DESIGN CHOICE). -/
def Obligations.StepRunsDecodedCommand : Prop :=
  (∀ (s : State) (i : Instr), s.seq = .busy → decode s.pending = .ok i →
    (s.inputs = [] → step s = exec i s) ∧
    (∀ rest, s.inputs = .engine :: rest → step s = exec i { s with inputs := rest }) ∧
    (∀ r rest, s.inputs = .access r :: rest → s.live = true → isHeld r s = true → step s = exec i s)) ∧
  (∀ s : State, s.seq = .idle →
    (s.inputs = [] → step s = .next s) ∧
    ∀ rest, s.inputs = .engine :: rest → step s = .next { s with inputs := rest }) ∧
  ∀ (s : State) (nbits w : Nat) (i : Instr), decodeTableWord nbits w = some i →
    step (s.withFetchWord nbits w) = exec i (acceptCommand (BitVec.ofNat 32 (w % 2 ^ nbits)) s)

/-- Rules R103 and R259: an illegal word completes with ERR = 1, ERRCODE = ILLEGAL_COMMAND and no other effect. It does so at each
turn the engine has: as an event of `inputs` and where `inputs` is empty (log entry 3, DESIGN CHOICE), and where a held access
waits, which then still waits (log entry 3, DEDUCED from rule R78). -/
def Obligations.IllegalCommandCompletesWithError : Prop :=
  ∀ (s : State) (e : DecodeError), s.seq = .busy → decode s.pending = .error e →
    (s.inputs = [] →
      step s = .next { s with err := true, errCode := .illegalCommand, done := true, seq := .idle }) ∧
    (∀ rest, s.inputs = .engine :: rest →
      step s = .next { s with inputs := rest, err := true, errCode := .illegalCommand, done := true, seq := .idle }) ∧
    ∀ r rest, s.inputs = .access r :: rest → s.live = true → isHeld r s = true →
      step s = .next { s with err := true, errCode := .illegalCommand, done := true, seq := .idle }

/-! ### Registers -/

/-- Rule R22's RW registers, with the writable bits of rules R26 to R42: while IDLE a write stores the writable bits and no
others, and no other register reads differently, but for RK_DATA after a write of RK_SEL (rule R41). Rule R74: it has no side effect,
so the buffer, the round-key store, the sequencer and the model's own fields are as before. -/
def Obligations.WritableRegistersStoreTheirBits : Prop :=
  ∀ (s : State) (r : Reg) (mask v : Word), s.seq = .idle → writableMask r = some mask →
    readReg r (writeReg r v s) = v &&& mask ∧
    (∀ q : Reg, q ≠ r → (r = .rkSel → ∀ j, q ≠ .rkData j) → readReg q (writeReg r v s) = readReg q s) ∧
    let t := writeReg r v s
    t.mem = s.mem ∧ t.rk = s.rk ∧ t.nr = s.nr ∧ t.ksValid = s.ksValid ∧ t.seq = s.seq ∧ t.pending = s.pending ∧ t.cfg = s.cfg ∧
      t.live = s.live ∧ t.inputs = s.inputs ∧ t.resp = s.resp

/-- Rule R22: a write to a read-only register or to a reserved offset is ignored, busy or not, without OVR; a reserved offset
reads 0. Rule R21: each register's offset, as its table gives it; the offsets 0x0B8 to 0xFFC are reserved; and each register answers at
its offset and at no other. -/
def Obligations.ReadOnlyAndReservedIgnoreWrites : Prop :=
  (∀ (s : State) (r : Reg) (v : Word), r ∈ readOnlyRegs → writeReg r v s = s) ∧
  (∀ (s : State) (off : Nat) (v : Word), regAt off = none → writeOffset off v s = s ∧ readOffset off s = 0) ∧
  (∀ off : Nat, 0xB8 ≤ off → regAt off = none) ∧
  (∀ (off : Nat) (r : Reg), regAt off = some r ↔ off = regOffset r) ∧
  (regOffset .cmd = 0x000 ∧ regOffset .status = 0x004 ∧ regOffset .ctrl = 0x008 ∧ regOffset .keyLen = 0x00C ∧
    regOffset .ivLen = 0x030 ∧ regOffset .nonceLo = 0x044 ∧ regOffset .nonceHi = 0x048 ∧ regOffset .src = 0x04C ∧
    regOffset .dst = 0x050 ∧ regOffset .len = 0x054 ∧ regOffset .offset = 0x058 ∧ regOffset .eLen = 0x05C ∧
    regOffset .rkSel = 0x090 ∧ regOffset .gfA = 0x0A4 ∧ regOffset .gfB = 0x0A8 ∧ regOffset .gfR = 0x0AC ∧ regOffset .id = 0x0B0 ∧
    regOffset .bufSize = 0x0B4) ∧
  (List.finRange 8).map (fun j => regOffset (.key j)) = [0x010, 0x014, 0x018, 0x01C, 0x020, 0x024, 0x028, 0x02C] ∧
  (List.finRange 4).map (fun j => regOffset (.iv j)) = [0x034, 0x038, 0x03C, 0x040] ∧
  (List.finRange 4).map (fun j => regOffset (.blkIn j)) = [0x060, 0x064, 0x068, 0x06C] ∧
  (List.finRange 4).map (fun j => regOffset (.blkOut j)) = [0x070, 0x074, 0x078, 0x07C] ∧
  (List.finRange 4).map (fun j => regOffset (.chain j)) = [0x080, 0x084, 0x088, 0x08C] ∧
  (List.finRange 4).map (fun j => regOffset (.rkData j)) = [0x094, 0x098, 0x09C, 0x0A0]

/-- Rules R23 and R47: CMD reads 0; a write of `v` while IDLE makes it PENDING, records its low byte in LAST_OP, clears DONE, ERR
and ERRCODE and makes SEQ busy, with no check and no other change; while BUSY it only sets OVR. An illegal word is issued like any
other and fails at completion (the engine's turn as an event of `inputs`: log entry 3). -/
def Obligations.CmdWriteIssues : Prop :=
  ∀ (s : State) (v : Word), readReg .cmd s = 0 ∧
    (s.seq = .idle → writeReg .cmd v s =
      { s with pending := v, lastOp := v.extractLsb' 0 8, done := false, err := false, errCode := .noError, seq := .busy }) ∧
    (s.seq = .busy → writeReg .cmd v s = { s with ovr := true }) ∧
    (s.seq = .idle → ∀ (e : DecodeError) (rest : List Event), decode v = .error e →
      step { writeReg .cmd v s with inputs := .engine :: rest } =
        .next (failed .illegalCommand { writeReg .cmd v s with inputs := rest }))

/-- Rule R24: the fields of STATUS, at their bits, and zero at the reserved ones; rule R46: BUSY reads 1 exactly when SEQ = BUSY; rule
R250: the eight error codes, which ERRCODE reads; rule R45: the four values of NR. -/
def Obligations.StatusFieldsReadAtTheirBits : Prop :=
  (ErrCode.noError.code = 0 ∧ ErrCode.invalidKeyLength.code = 1 ∧ ErrCode.invalidIvLength.code = 2 ∧ ErrCode.outOfBounds.code = 3 ∧
    ErrCode.lengthNotBlockMultiple.code = 4 ∧ ErrCode.noKeySchedule.code = 5 ∧ ErrCode.illegalCommand.code = 6 ∧
    ErrCode.bufferRange.code = 7) ∧
  (Rounds.r0.toNat = 0 ∧ Rounds.r10.toNat = 10 ∧ Rounds.r12.toNat = 12 ∧ Rounds.r14.toNat = 14) ∧
  ∀ s : State, let w := readReg .status s
    (w.getLsbD 0 = true ↔ s.seq = .busy) ∧ w.getLsbD 1 = s.done ∧ w.getLsbD 2 = s.err ∧ w.getLsbD 3 = s.ovr ∧
    w.getLsbD 4 = s.ksValid ∧ w.extractLsb' 5 3 = 0 ∧ w.extractLsb' 8 4 = s.errCode.code ∧ w.extractLsb' 12 4 = 0 ∧
    (w.extractLsb' 16 4).toNat = s.nr.toNat ∧ w.extractLsb' 20 4 = 0 ∧ w.extractLsb' 24 8 = s.lastOp

/-- Rule R25: what a write to STATUS does, whether or not the engine is busy; every other bit is ignored and OVR is never set. -/
def Obligations.StatusWriteClearsOnes : Prop :=
  ∀ (s : State) (v : Word), writeReg .status v s =
    { s with
      done := if v.getLsbD 1 then false else s.done
      err := if v.getLsbD 2 then false else s.err
      errCode := if v.getLsbD 2 then .noError else s.errCode
      ovr := if v.getLsbD 3 then false else s.ovr }

/-- Rule R49: while BUSY a write to a listed register is dropped and sets OVR; writes to STATUS and CTRL take effect as usual;
writes to read-only registers and reserved offsets are ignored without OVR; and an access to the register part is never held: a
read answers the value the register has, and nothing else changes. -/
def Obligations.WritesWhileBusyAreDropped : Prop :=
  ∀ (s : State) (v : Word), s.seq = .busy →
    (∀ r, r ∈ droppedRegs → writeReg r v s = { s with ovr := true }) ∧
    writeReg .ctrl v s = { s with ie := v.getLsbD 0 } ∧
    writeReg .status v s =
      { s with
        done := if v.getLsbD 1 then false else s.done
        err := if v.getLsbD 2 then false else s.err
        errCode := if v.getLsbD 2 then .noError else s.errCode
        ovr := if v.getLsbD 3 then false else s.ovr } ∧
    (∀ r, r ∈ readOnlyRegs → writeReg r v s = s) ∧
    (∀ off, regAt off = none → writeOffset off v s = s) ∧
    ∀ (addr off : Nat), targetOf s.cfg addr = .register off → off % 4 = 0 →
      isHeld (.read .w32 addr) s = false ∧
      busAccess (.read .w32 addr) s = .next { s with resp := some (.readWord (readOffset off s)) }

/-- Rule R41: byte `m` of RK_DATAj is byte `4j+m` of RK[RK_SEL] where the schedule is valid and RK_SEL ≤ NR, else the word is 0;
after reset it reads 0; and a write to it is ignored. -/
def Obligations.RkDataReadsSelectedRoundKey : Prop :=
  ∀ (s : State) (j : Fin 4),
    (s.ksValid = true → s.rkSel.toNat ≤ s.nr.toNat → ∀ m : Nat, m < 4 →
      (readReg (.rkData j) s).extractLsb' (8 * m) 8 = blockByte (roundKey s.rk s.rkSel.toNat) (4 * j.val + m)) ∧
    (¬(s.ksValid = true ∧ s.rkSel.toNat ≤ s.nr.toNat) → readReg (.rkData j) s = 0) ∧
    readReg (.rkData j) State.reset = 0 ∧ ∀ v : Word, writeReg (.rkData j) v s = s

/-- Rules R28 and R10: a word written to KEYj holds key bytes 4j .. 4j+3, little-endian, and no other key byte; the key KEY_EXPAND
reads is the first KEYLEN bytes. Rules R10 and R77: the registers of every group hold its bytes in that order as software reads them,
and the blocks the engine reads from IV and BLK_IN and writes to BLK_OUT and CHAIN have theirs in it too. Rules R8 and R9: so have the
blocks it reads from and writes to the buffer, and byte r+4c of a block is row r of its column c. -/
def Obligations.KeyRegistersAreLittleEndian : Prop :=
  (∀ (s : State) (j : Fin 8) (v : Word), s.seq = .idle →
      (∀ m : Nat, m < 4 → groupByte (writeReg (.key j) v s).key (4 * j.val + m) = v.extractLsb' (8 * m) 8) ∧
      (∀ k : Nat, k / 4 ≠ j.val → groupByte (writeReg (.key j) v s).key k = groupByte s.key k) ∧
      (keyBytes s).length = s.keyLen.toNat ∧
      ∀ k : Nat, k < s.keyLen.toNat → (keyBytes s)[k]? = some (groupByte s.key k)) ∧
  (∀ (s : State) (m : Nat), m < 4 →
    (∀ j : Fin 8, (readReg (.key j) s).extractLsb' (8 * m) 8 = groupByte s.key (4 * j.val + m)) ∧
    ∀ j : Fin 4,
      (readReg (.iv j) s).extractLsb' (8 * m) 8 = groupByte s.iv (4 * j.val + m) ∧
      (readReg (.blkIn j) s).extractLsb' (8 * m) 8 = groupByte s.blkIn (4 * j.val + m) ∧
      (readReg (.blkOut j) s).extractLsb' (8 * m) 8 = groupByte s.blkOut (4 * j.val + m) ∧
      (readReg (.chain j) s).extractLsb' (8 * m) 8 = groupByte s.chain (4 * j.val + m)) ∧
  (∀ (v : Vector Word 4) (k : Nat), k < 16 → blockByte (groupBlock v) k = groupByte v k) ∧
  (∀ (b : Block) (k : Nat), k < 16 → groupByte (blockGroup b) k = blockByte b k) ∧
  (∀ (b : Block), (blockBytes b).length = 16 ∧ ∀ k : Nat, k < 16 → (blockBytes b)[k]? = some (blockByte b k)) ∧
  (∀ (d : List Byte) (k : Nat), d.length = 16 → k < 16 → d[k]? = some (blockByte (blockOfBytes d) k)) ∧
  ∀ (b : Block) (r c : Fin 4), blockByte b (r.val + 4 * c.val) = colRow (blockCol b c) r

/-- Rule R45 ("Only KEY_EXPAND and reset write this store"): a step that changes the round-key store, NR or KS_VALID is the completion of KEY_EXPAND, a
reset, or power-on. -/
def Obligations.ScheduleWrittenOnlyByKeyExpandAndReset : Prop :=
  ∀ (s t : State), step s = .next t → (t.rk ≠ s.rk ∨ t.nr ≠ s.nr ∨ t.ksValid ≠ s.ksValid) →
    (s.seq = .busy ∧ decode s.pending = .ok .keyExpand ∧ t.seq = .idle) ∨
      s.inputs.head? = some .reset ∨ s.inputs.head? = some .powerOn

/-- Rule R44: ID and BUFSIZE are constants; no step changes them, a reset included. -/
def Obligations.IdentificationNeverChanges : Prop :=
  ∀ (s t : State), readReg .id s = 0x31534541 ∧ (readReg .bufSize s).toNat = s.cfg.bufBytes ∧
    (step s = .next t → readReg .id t = readReg .id s ∧ readReg .bufSize t = readReg .bufSize s ∧ t.cfg = s.cfg)

/-! ### Frames -/

/-- What the commands that write no buffer byte leave unchanged, whether they succeed or fail: KEY_EXPAND changes the round-key
store with NR and KS_VALID, BLOCK_ENC and BLOCK_DEC change BLK_OUT (rules R38 and R140), the probes change GF_R (rule R43), and
each changes DONE, ERR, ERRCODE and SEQ (rule R48). Every other register, every buffer byte included, is as before. -/
def Obligations.RegisterCommandFrames : Prop :=
  ∀ (s t : State),
    (exec .keyExpand s = .next t → t =
      { s with ksValid := t.ksValid, nr := t.nr, rk := t.rk, done := t.done, err := t.err, errCode := t.errCode, seq := t.seq }) ∧
    (∀ i, i ∈ [Instr.blockEnc, .blockDec] → exec i s = .next t → t =
      { s with blkOut := t.blkOut, done := t.done, err := t.err, errCode := t.errCode, seq := t.seq }) ∧
    (∀ i, i ∈ [Instr.gfMul, .gfInv, .sboxFwd, .sboxInv] → exec i s = .next t → t =
      { s with gfR := t.gfR, done := t.done, err := t.err, errCode := t.errCode, seq := t.seq })

/-- What the mode commands leave unchanged, whether they succeed or fail: every register but CHAIN (which only CBC writes, rule
R39), DONE, ERR, ERRCODE and SEQ, and every buffer byte outside `[DST, DST+LEN)`, or outside `[DST+OFFSET, DST+OFFSET+ELEN)` for
CTR_EDIT (rules R151 to R157, R79). -/
def Obligations.BufferCommandFrames : Prop :=
  ∀ (s t : State),
    (∀ i, i ∈ [Instr.ecbEnc, .ecbDec, .ctrXform, .ctrEdit] → exec i s = .next t → t =
      { s with mem := t.mem, done := t.done, err := t.err, errCode := t.errCode, seq := t.seq }) ∧
    (∀ i, i ∈ [Instr.cbcEnc, .cbcDec] → exec i s = .next t → t =
      { s with mem := t.mem, chain := t.chain, done := t.done, err := t.err, errCode := t.errCode, seq := t.seq }) ∧
    (∀ i, i ∈ [Instr.ecbEnc, .ecbDec, .cbcEnc, .cbcDec, .ctrXform] → exec i s = .next t →
      ∀ a : Nat, ¬(s.dst.toNat ≤ a ∧ a < s.dst.toNat + s.len.toNat) → t.mem.byteAt a = s.mem.byteAt a) ∧
    (exec .ctrEdit s = .next t → ∀ a : Nat,
      ¬(s.dst.toNat + s.offset.toNat ≤ a ∧ a < s.dst.toNat + s.offset.toNat + s.eLen.toNat) →
      t.mem.byteAt a = s.mem.byteAt a)

/-! ### The bus -/

/-- Rules R73 and R76: an access to the register part that is not 32 bits wide at a multiple of 4, and a misaligned access to the
buffer part, is a bus error: an error response, read data 0, and no other change. -/
def Obligations.BusErrorsChangeNothing : Prop :=
  ∀ (s : State) (r : BusReq),
    ((∃ off, targetOf s.cfg (reqAddr r) = .register off ∧ ¬(reqWidth r = .w32 ∧ off % 4 = 0)) ∨
      (∃ a, targetOf s.cfg (reqAddr r) = .buffer a ∧ a % widthBytes (reqWidth r) ≠ 0)) →
    busAccess r s = .next { s with resp := some (match r with
      | .read _ _ => .readError 0
      | .write _ _ _ => .writeError) }

/-- Rule R74: a legal register read answers the register's value and changes nothing; a legal register write has the effect of its
register's rule and nothing else; and so at every word-aligned offset of the register part, the reserved ones too (rules R22, R84; what
a reserved offset reads and ignores is ReadOnlyAndReservedIgnoreWrites). Rules R49, R78 and R81: only an access to the buffer part while SEQ = BUSY is held, and the step
that finds any other access next performs it and takes it off `inputs` (the list is the model's, log entry 3; that a misaligned access
is held too is log entry 11, DEDUCED). -/
def Obligations.RegisterAccessEffects : Prop :=
  (∀ (s : State) (r : Reg),
    busAccess (.read .w32 (s.cfg.base + regOffset r)) s = .next { s with resp := some (.readWord (readReg r s)) } ∧
    ∀ v : Word, busAccess (.write .w32 (s.cfg.base + regOffset r) v) s =
      .next { writeReg r v s with resp := some .writeDone }) ∧
  (∀ (s : State) (off : Nat), off % 4 = 0 → off < 0x1000 →
    busAccess (.read .w32 (s.cfg.base + off)) s = .next { s with resp := some (.readWord (readOffset off s)) } ∧
    ∀ v : Word, busAccess (.write .w32 (s.cfg.base + off) v) s =
      .next { writeOffset off v s with resp := some .writeDone }) ∧
  ∀ (s : State) (r : BusReq),
    (isHeld r s = true ↔ s.seq = .busy ∧ ∃ a, targetOf s.cfg (reqAddr r) = .buffer a) ∧
    ∀ rest, s.inputs = .access r :: rest → s.live = true → isHeld r s = false →
      step s = busAccess r { s with inputs := rest }

/-- Rule R75: an aligned buffer write of `w` bytes sets BUF[a+k] to data bits 8k+7 : 8k and leaves every other byte; an aligned
buffer read of initialised bytes answers BUF[a] .. BUF[a+w-1] and changes nothing; aligned accesses never reach past the buffer. Rules
R6, R70 and R84: which bus address reaches which offset of which part, under the constraints on BASE and BUF_BYTES. Rules R11 and R72:
what MemRead and MemWrite, which the commands use too, do to each byte. -/
def Obligations.BufferAccessIsLittleEndian : Prop :=
  (∀ (c : Config) (addr a : Nat),
    (targetOf c addr = .buffer a ↔ addr = c.base + 0x1000 + a ∧ a < c.bufBytes) ∧
    (targetOf c addr = .register a ↔ addr = c.base + a ∧ a < 0x1000) ∧
    c.base % 0x2000 = 0 ∧ c.bufBytes % 16 = 0 ∧ 16 ≤ c.bufBytes ∧ c.bufBytes ≤ 2 ^ 20) ∧
  (widthBytes .w8 = 1 ∧ widthBytes .w16 = 2 ∧ widthBytes .w32 = 4) ∧
  (∀ (w : Width) (addr : Nat) (v : Word), reqWidth (.read w addr) = w ∧ reqAddr (.read w addr) = addr ∧
    reqWidth (.write w addr v) = w ∧ reqAddr (.write w addr v) = addr) ∧
  (∀ (m : Memory) (a b n : Nat) (v : Byte) (bs : List Byte),
    (memRead m a n = .ok bs ↔ bs.length = n ∧ ∀ k, k < n → m.byteAt (a + k) = bs[k]?) ∧
    (memWrite m a bs).byteAt b = (if a ≤ b ∧ b < a + bs.length then bs[b - a]? else m.byteAt b) ∧
    (m.setByte a v).byteAt b = if a = b then some v else m.byteAt b) ∧
  ∀ (s : State) (w : Width) (addr a : Nat), targetOf s.cfg addr = .buffer a → a % widthBytes w = 0 →
    a + widthBytes w ≤ s.cfg.bufBytes ∧
    (∀ v : Word, ∃ m : Memory,
      busAccess (.write w addr v) s = .next { s with mem := m, resp := some .writeDone } ∧
      (∀ k : Nat, k < widthBytes w → m.byteAt (a + k) = some (v.extractLsb' (8 * k) 8)) ∧
      ∀ b : Nat, ¬(a ≤ b ∧ b < a + widthBytes w) → m.byteAt b = s.mem.byteAt b) ∧
    (Initialised s.mem a (widthBytes w) → ∃ bs : List Byte,
      busAccess (.read w addr) s = .next { s with resp := some (.readBytes bs) } ∧
      bs.length = widthBytes w ∧ ∀ k : Nat, k < widthBytes w → bs[k]? = s.mem.byteAt (a + k))

/-- Rule R72: a host read of an uninitialised byte faults, naming the byte's offset. Which of several uninitialised bytes of one access
is named, the lowest, is the model's (log entry 10, DESIGN CHOICE). -/
def Obligations.UninitialisedHostReadFaults : Prop :=
  ∀ (s : State) (w : Width) (addr a k : Nat), targetOf s.cfg addr = .buffer a → a % widthBytes w = 0 →
    k < widthBytes w → Initialised s.mem a k → s.mem.byteAt (a + k) = none →
    busAccess (.read w addr) s = .fault (.uninitBufferRead (a + k))

/-- Rule R78: while BUSY an access to the buffer part is held. The step is the engine's completion, after which the access still
waits, unanswered; the step after it performs the access, against the buffer as the command left it. That the hold is the completion
with the access kept at the head of `inputs` is the model's (log entry 3, DEDUCED), and so is the hold of a misaligned access, whose
bus error is answered after the completion (log entry 11, DEDUCED). -/
def Obligations.BufferAccessHeldWhileBusy : Prop :=
  ∀ (s t : State) (r : BusReq) (rest : List Event) (a : Nat), s.live = true → s.seq = .busy →
    s.inputs = .access r :: rest → targetOf s.cfg (reqAddr r) = .buffer a →
    step s = engineTurn s ∧
    (step s = .next t → t.seq = .idle ∧ t.inputs = s.inputs ∧ t.resp = s.resp ∧
      step t = busAccess r { t with inputs := rest })

/-- Rules R75 and R293: AESX does not respond to an access outside its window, which changes nothing; and it responds to no access
before the first reset completes. The mark `unselected` is the model's (log entry 8, DESIGN CHOICE), and so is the stop
`busBeforeReset` for the second, which spec/93 treats as stuck (U15; log entry 7, DESIGN CHOICE). -/
def Obligations.UnansweredAccesses : Prop :=
  (∀ (s : State) (r : BusReq),
    (reqAddr r < s.cfg.base ∨ s.cfg.base + 0x1000 + s.cfg.bufBytes ≤ reqAddr r) →
    busAccess r s = .next { s with resp := some .unselected }) ∧
  ∀ (s : State) (r : BusReq) (rest : List Event), s.live = false → s.inputs = .access r :: rest →
    step s = .fault .busBeforeReset

/-! ### The engine commands -/

/-- Rule R139: KEY_EXPAND with KEYLEN 16, 24 or 32 sets KS_VALID, NR = 10, 12 or 14, and RK to the expansion of the key, and reports
success; with any other KEYLEN it invalidates the store and reports INVALID_KEY_LENGTH. Nothing else changes. -/
def Obligations.KeyExpandInstallsOrDestroysSchedule : Prop :=
  ∀ s : State,
    (∀ nr : Rounds, (s.keyLen.toNat, nr) ∈ [(16, Rounds.r10), (24, .r12), (32, .r14)] →
      exec .keyExpand s = .next
        { s with
          ksValid := true, nr := nr, rk := keyExpansion (keyBytes s) nr.toNat
          errCode := .noError, done := true, seq := .idle }) ∧
    (s.keyLen.toNat ∉ [16, 24, 32] →
      exec .keyExpand s = .next
        { s with
          ksValid := false, nr := .r0, rk := Vector.replicate 15 Block.zero
          err := true, errCode := .invalidKeyLength, done := true, seq := .idle })

/-- Rules R134 and R135: Nr is 10, 12 or 14 for a key of 16, 24 or 32 bytes, and no other length has a schedule. The words of the store KEY_EXPAND leaves are the key's words, then each `w[i]` is `w[i-Nk]` plus `w[i-1]`, the latter
rotated, substituted and given RCON[i/Nk] in its first byte where i mod Nk = 0, and substituted only for Nk = 8 where i mod 8 = 4;
round keys past Nr are zero (rule R45). -/
def Obligations.KeyScheduleFollowsRecurrence : Prop :=
  (∀ n nr : Nat, roundsOfKeyLength n = some nr ↔ (n, nr) ∈ [(16, 10), (24, 12), (32, 14)]) ∧
  ∀ (key : List Byte) (nr : Nat), roundsOfKeyLength key.length = some nr →
    let nk := key.length / 4
    let rk := keyExpansion key nr
    (∀ i m : Nat, i < nk → m < 4 → (colBytes (storeWord rk i))[m]? = key[4 * i + m]?) ∧
    (∀ i : Nat, nk ≤ i → i < 4 * (nr + 1) →
      let t := storeWord rk (i - 1)
      let u : Col :=
        if i % nk = 0 then ⟨sbox t.b1 ^^^ rcon (i / nk), sbox t.b2, sbox t.b3, sbox t.b0⟩
        else if nk = 8 ∧ i % 8 = 4 then ⟨sbox t.b0, sbox t.b1, sbox t.b2, sbox t.b3⟩
        else t
      storeWord rk i = (storeWord rk (i - nk)).xor u) ∧
    ∀ k : Nat, nr < k → roundKey rk k = Block.zero

/-- Rules R140 and R141: BLOCK_ENC and BLOCK_DEC with a valid schedule put the encryption or decryption of BLK_IN into BLK_OUT and
report success; without one they write nothing and report NO_KEY_SCHEDULE. -/
def Obligations.BlockCommandsTransformBlkIn : Prop :=
  ∀ s : State,
    (s.ksValid = true →
      exec .blockEnc s = .next
        { s with
          blkOut := blockGroup (encryptBlock s.rk s.nr.toNat (groupBlock s.blkIn))
          errCode := .noError, done := true, seq := .idle } ∧
      exec .blockDec s = .next
        { s with
          blkOut := blockGroup (decryptBlock s.rk s.nr.toNat (groupBlock s.blkIn))
          errCode := .noError, done := true, seq := .idle }) ∧
    (s.ksValid = false →
      exec .blockEnc s = .next (failed .noKeySchedule s) ∧ exec .blockDec s = .next (failed .noKeySchedule s))

/-- Rules R127, R128, R131, R136 and R137 (and R132's matrix): what SubBytes, InvSubBytes, MixColumns and InvMixColumns put in each
byte, the sum of two blocks byte by byte (rule R133), and the rounds of EncryptBlock and DecryptBlock, as a sequence of states `st`. -/
def Obligations.RoundsFollowTheCipherRules : Prop :=
  (∀ (s : Block) (k : Nat), k < 16 →
    blockByte (subBytes s) k = sbox (blockByte s k) ∧ blockByte (invSubBytes s) k = invSbox (blockByte s k) ∧
    ∀ t : Block, blockByte (s.xor t) k = blockByte s k ^^^ blockByte t k) ∧
  (∀ (s : Block) (c : Fin 4),
    let a (k : Nat) := blockByte s (4 * c.val + k)
    let m (k : Nat) := blockByte (mixColumns s) (4 * c.val + k)
    let v (k : Nat) := blockByte (invMixColumns s) (4 * c.val + k)
    m 0 = gmul 2 (a 0) ^^^ gmul 3 (a 1) ^^^ a 2 ^^^ a 3 ∧ m 1 = a 0 ^^^ gmul 2 (a 1) ^^^ gmul 3 (a 2) ^^^ a 3 ∧
    m 2 = a 0 ^^^ a 1 ^^^ gmul 2 (a 2) ^^^ gmul 3 (a 3) ∧ m 3 = gmul 3 (a 0) ^^^ a 1 ^^^ a 2 ^^^ gmul 2 (a 3) ∧
    v 0 = gmul 14 (a 0) ^^^ gmul 11 (a 1) ^^^ gmul 13 (a 2) ^^^ gmul 9 (a 3) ∧
    v 1 = gmul 9 (a 0) ^^^ gmul 14 (a 1) ^^^ gmul 11 (a 2) ^^^ gmul 13 (a 3) ∧
    v 2 = gmul 13 (a 0) ^^^ gmul 9 (a 1) ^^^ gmul 14 (a 2) ^^^ gmul 11 (a 3) ∧
    v 3 = gmul 11 (a 0) ^^^ gmul 13 (a 1) ^^^ gmul 9 (a 2) ^^^ gmul 14 (a 3)) ∧
  ∀ (rk : Vector Block 15) (nr : Nat) (b : Block), 1 ≤ nr →
    (∃ st : Nat → Block, st 0 = b.xor (roundKey rk 0) ∧
      (∀ round : Nat, 1 ≤ round → round < nr →
        st round = (mixColumns (shiftRows (subBytes (st (round - 1))))).xor (roundKey rk round)) ∧
      encryptBlock rk nr b = (shiftRows (subBytes (st (nr - 1)))).xor (roundKey rk nr)) ∧
    ∃ st : Nat → Block, st (nr - 1) = invSubBytes (invShiftRows (b.xor (roundKey rk nr))) ∧
      (∀ round : Nat, 1 ≤ round → round < nr →
        st (round - 1) = invSubBytes (invShiftRows (invMixColumns ((st round).xor (roundKey rk round))))) ∧
      decryptBlock rk nr b = (st 0).xor (roundKey rk 0)

/-- The known answers of spec/95 (V1 and V2): the AES-128 vector of the source, and the last round key of the all-zero key. -/
def Obligations.KnownAnswersHold : Prop :=
  encryptBlock (keyExpansion ((List.range 16).map (BitVec.ofNat 8)) 10) 10
      ⟨⟨0x00, 0x11, 0x22, 0x33⟩, ⟨0x44, 0x55, 0x66, 0x77⟩, ⟨0x88, 0x99, 0xaa, 0xbb⟩, ⟨0xcc, 0xdd, 0xee, 0xff⟩⟩ =
    ⟨⟨0x69, 0xc4, 0xe0, 0xd8⟩, ⟨0x6a, 0x7b, 0x04, 0x30⟩, ⟨0xd8, 0xcd, 0xb7, 0x80⟩, ⟨0x70, 0xb4, 0xc5, 0x5a⟩⟩ ∧
  roundKey (keyExpansion (List.replicate 16 0) 10) 10 =
    ⟨⟨0xb4, 0xef, 0x5b, 0xcb⟩, ⟨0x3e, 0x92, 0xe2, 0x11⟩, ⟨0x23, 0xe9, 0x51, 0xcf⟩, ⟨0x6f, 0x8f, 0x18, 0x8e⟩⟩

/-- Rule R138 and its converse, which the rule marks as derived: for every key, and indeed for every round-key store and round count, decryption undoes encryption
and encryption undoes decryption. -/
def Obligations.DecryptInvertsEncrypt : Prop :=
  ∀ (rk : Vector Block 15) (nr : Nat) (p : Block),
    decryptBlock rk nr (encryptBlock rk nr p) = p ∧ encryptBlock rk nr (decryptBlock rk nr p) = p

/-- Rules R125, R130 and R132, by derivation from rules R127 to R132: each inverse transform undoes its transform, on every block, and
MixColumns undoes InvMixColumns, which no rule says in words; and where rules R129 and R130 say a byte of the matrix goes. -/
def Obligations.InverseTransformsUndo : Prop :=
  ∀ s : Block, invSubBytes (subBytes s) = s ∧ invShiftRows (shiftRows s) = s ∧ invMixColumns (mixColumns s) = s ∧
    mixColumns (invMixColumns s) = s ∧
    (∀ r c : Fin 4, blockByte (shiftRows s) (r.val + 4 * c.val) = blockByte s (r.val + 4 * ((c.val + r.val) % 4))) ∧
    ∀ r c : Fin 4, blockByte (invShiftRows s) (r.val + 4 * ((c.val + r.val) % 4)) = blockByte s (r.val + 4 * c.val)

/-- Rules R124, R125 and R126: SBOX[x] is the affine map of the inverse of x, bit by bit; INV_SBOX inverts SBOX; SBOX has no fixed
point and no opposite fixed point (rule R172); RCON starts at 1 and doubles by xtime. -/
def Obligations.TablesFollowTheirConstruction : Prop :=
  (∀ (x : Byte) (i : Nat), i < 8 → (sbox x).getLsbD i =
    ((ginv x).getLsbD i ^^ (ginv x).getLsbD ((i + 4) % 8) ^^ (ginv x).getLsbD ((i + 5) % 8) ^^
      (ginv x).getLsbD ((i + 6) % 8) ^^ (ginv x).getLsbD ((i + 7) % 8) ^^ (0x63#8).getLsbD i)) ∧
  (∀ x : Byte, invSbox (sbox x) = x ∧ sbox (invSbox x) = x ∧ sbox x ≠ x ∧ sbox x ≠ x ^^^ 0xFF) ∧
  rcon 1 = 0x01 ∧ ∀ j : Nat, 1 ≤ j → j ≤ 9 → rcon (j + 1) = xtime (rcon j)

/-- Rule R122: the product is commutative and associative, distributes over ⊕, has identity 1, and a product with 0 is 0. Rule R121: the
product with 2 is `xtime`, the shift reduced by 0x11B; with the laws it fixes every product. -/
def Obligations.FieldMultiplicationLaws : Prop :=
  ∀ a b c : Byte, gmul a b = gmul b a ∧ gmul (gmul a b) c = gmul a (gmul b c) ∧
    gmul a (b ^^^ c) = gmul a b ^^^ gmul a c ∧ gmul (a ^^^ b) c = gmul a c ^^^ gmul b c ∧ gmul a 1 = a ∧ gmul a 0 = 0 ∧
    gmul a 2 = xtime a ∧ xtime a = (a <<< 1) ^^^ (if a.getLsbD 7 then 0x1B else 0)

/-- Rule R123: for a ≠ 0, `ginv a` is the unique byte whose product with `a` is 1; it is a^254, the 254-fold product; ginv 0 = 0. -/
def Obligations.InverseIsTheUniqueInverse : Prop :=
  ginv 0 = 0 ∧ ∀ a : Byte, ginv a = (gmul a)^[254] 1 ∧
    (a ≠ 0 → gmul a (ginv a) = 1 ∧ ∀ y : Byte, gmul a y = 1 → y = ginv a)

/-- Rules R170 to R173: the probes put their result into GF_R, with or without a key schedule, and report success; nothing else
changes. -/
def Obligations.ProbeCommandsWriteGfR : Prop :=
  ∀ s : State,
    exec .gfMul s = .next { s with gfR := gmul s.gfA s.gfB, errCode := .noError, done := true, seq := .idle } ∧
    exec .gfInv s = .next { s with gfR := ginv s.gfA, errCode := .noError, done := true, seq := .idle } ∧
    exec .sboxFwd s = .next { s with gfR := sbox s.gfA, errCode := .noError, done := true, seq := .idle } ∧
    exec .sboxInv s = .next { s with gfR := invSbox s.gfA, errCode := .noError, done := true, seq := .idle }

/-! ### The mode commands -/

/-- Rules R150, R151 and R152: with a schedule, a LEN that is a multiple of 16, ranges that fit and initialised source bytes, ECB_ENC
and ECB_DEC succeed. The buffer goes through one state per block: block k is read at SRC+16k, transformed and written at DST+16k,
before the next is read, whatever the overlap of the ranges. -/
def Obligations.EcbProcessesBlocksInOrder : Prop :=
  ∀ (s : State) (i : Instr) (f : Block → Block),
    (i, f) ∈ [(Instr.ecbEnc, encryptBlock s.rk s.nr.toNat), (.ecbDec, decryptBlock s.rk s.nr.toNat)] →
    s.ksValid = true → s.len.toNat % 16 = 0 → RangesFit s → Initialised s.mem s.src.toNat s.len.toNat →
    ∃ bufs : Nat → Memory, bufs 0 = s.mem ∧
      (∀ k : Nat, k < s.len.toNat / 16 → ∃ d : List Byte, memRead (bufs k) (s.src.toNat + 16 * k) 16 = .ok d ∧
        bufs (k + 1) = memWrite (bufs k) (s.dst.toNat + 16 * k) (blockBytes (f (blockOfBytes d)))) ∧
      exec i s = .next { s with mem := bufs (s.len.toNat / 16), errCode := .noError, done := true, seq := .idle }

/-- Rules R150 and R153: CBC_ENC succeeds under the conditions of ECB and IVLEN = 16. Block k is read, added to the chaining value,
encrypted and written before the next is read; the chaining value starts at IV and is then the ciphertext computed; CHAIN takes the
last one, and is IV where LEN = 0. -/
def Obligations.CbcEncryptChainsCiphertext : Prop :=
  ∀ s : State, s.ksValid = true → s.ivLen.toNat = 16 → s.len.toNat % 16 = 0 → RangesFit s →
    Initialised s.mem s.src.toNat s.len.toNat →
    ∃ (bufs : Nat → Memory) (chain : Nat → Block), bufs 0 = s.mem ∧ chain 0 = groupBlock s.iv ∧
      (∀ k : Nat, k < s.len.toNat / 16 → ∃ d : List Byte, memRead (bufs k) (s.src.toNat + 16 * k) 16 = .ok d ∧
        chain (k + 1) = encryptBlock s.rk s.nr.toNat ((blockOfBytes d).xor (chain k)) ∧
        bufs (k + 1) = memWrite (bufs k) (s.dst.toNat + 16 * k) (blockBytes (chain (k + 1)))) ∧
      exec .cbcEnc s = .next
        { s with
          mem := bufs (s.len.toNat / 16), chain := blockGroup (chain (s.len.toNat / 16))
          errCode := .noError, done := true, seq := .idle }

/-- Rules R150 and R154: CBC_DEC succeeds under the same conditions. Block k is read, decrypted, added to the chaining value and
written before the next is read; the chaining value starts at IV and is then the input block; CHAIN takes the last one. -/
def Obligations.CbcDecryptChainsInput : Prop :=
  ∀ s : State, s.ksValid = true → s.ivLen.toNat = 16 → s.len.toNat % 16 = 0 → RangesFit s →
    Initialised s.mem s.src.toNat s.len.toNat →
    ∃ (bufs : Nat → Memory) (chain : Nat → Block), bufs 0 = s.mem ∧ chain 0 = groupBlock s.iv ∧
      (∀ k : Nat, k < s.len.toNat / 16 → ∃ d : List Byte, memRead (bufs k) (s.src.toNat + 16 * k) 16 = .ok d ∧
        chain (k + 1) = blockOfBytes d ∧
        bufs (k + 1) = memWrite (bufs k) (s.dst.toNat + 16 * k)
          (blockBytes ((decryptBlock s.rk s.nr.toNat (blockOfBytes d)).xor (chain k)))) ∧
      exec .cbcDec s = .next
        { s with
          mem := bufs (s.len.toNat / 16), chain := blockGroup (chain (s.len.toNat / 16))
          errCode := .noError, done := true, seq := .idle }

/-- Rules R150, R155 and R156: CTR_XFORM succeeds with a schedule, ranges that fit and initialised source bytes, for every LEN. Chunk
k has 16 bytes, or what is left of LEN; each of its bytes is added to the keystream byte of the same place, the keystream block
being the encryption of the counter block: byte j of it is byte j of NONCE_HI:NONCE_LO, and byte 8+j is byte j of the 64-bit block
index, least significant byte first. -/
def Obligations.CtrTransformAddsKeystream : Prop :=
  ∀ s : State,
    (∀ k j : Nat, j < 8 →
      blockByte (ctrBlock (nonce s) k) j = (s.nonceHi ++ s.nonceLo).extractLsb' (8 * j) 8 ∧
      blockByte (ctrBlock (nonce s) k) (8 + j) = (BitVec.ofNat 64 k).extractLsb' (8 * j) 8) ∧
    (s.ksValid = true → RangesFit s → Initialised s.mem s.src.toNat s.len.toNat →
      ∃ bufs : Nat → Memory, bufs 0 = s.mem ∧
        (∀ k : Nat, k < (s.len.toNat + 15) / 16 → ∃ d : List Byte,
          memRead (bufs k) (s.src.toNat + 16 * k) (min 16 (s.len.toNat - 16 * k)) = .ok d ∧
          bufs (k + 1) = memWrite (bufs k) (s.dst.toNat + 16 * k)
            (List.zipWith (· ^^^ ·) d (blockBytes (encryptBlock s.rk s.nr.toNat (ctrBlock (nonce s) k))))) ∧
        exec .ctrXform s = .next
          { s with mem := bufs ((s.len.toNat + 15) / 16), errCode := .noError, done := true, seq := .idle })

/-- Rule R157: CTR_EDIT succeeds with a schedule, an edit in bounds, ranges that fit and an initialised new plaintext. Byte j of the
new plaintext is read, added to the keystream byte of ciphertext offset OFFSET+j and written at DST+OFFSET+j, before the next is
read. -/
def Obligations.CtrEditRewritesItsBytes : Prop :=
  ∀ s : State, s.ksValid = true → EditFits s → Initialised s.mem s.src.toNat s.eLen.toNat →
    ∃ bufs : Nat → Memory, bufs 0 = s.mem ∧
      (∀ j : Nat, j < s.eLen.toNat → ∃ b : Byte, (bufs j).byteAt (s.src.toNat + j) = some b ∧
        bufs (j + 1) = (bufs j).setByte (s.dst.toNat + s.offset.toNat + j)
          (b ^^^ blockByte (encryptBlock s.rk s.nr.toNat
            (ctrBlock (nonce s) ((s.offset.toNat + j) / 16))) ((s.offset.toNat + j) % 16))) ∧
      exec .ctrEdit s = .next { s with mem := bufs s.eLen.toNat, errCode := .noError, done := true, seq := .idle }

/-- Rule R150: where the ranges are equal (in place) or disjoint, the result is the one with separate buffers: each output block or
byte comes from the input as it was before the command. -/
def Obligations.InPlaceEqualsSeparateBuffers : Prop :=
  ∀ (s t : State), NoClobber s.src.toNat s.dst.toNat s.len.toNat → t.err = false →
    (exec .ecbEnc s = .next t → ∀ k : Nat, k < s.len.toNat / 16 →
      blockAt t.mem (s.dst.toNat + 16 * k) =
        (blockAt s.mem (s.src.toNat + 16 * k)).map (encryptBlock s.rk s.nr.toNat)) ∧
    (exec .ecbDec s = .next t → ∀ k : Nat, k < s.len.toNat / 16 →
      blockAt t.mem (s.dst.toNat + 16 * k) =
        (blockAt s.mem (s.src.toNat + 16 * k)).map (decryptBlock s.rk s.nr.toNat)) ∧
    (exec .cbcEnc s = .next t → ∀ k : Nat, k < s.len.toNat / 16 → ∃ p prev : Block,
      blockAt s.mem (s.src.toNat + 16 * k) = some p ∧
      some prev = (if k = 0 then some (groupBlock s.iv) else blockAt t.mem (s.dst.toNat + 16 * (k - 1))) ∧
      blockAt t.mem (s.dst.toNat + 16 * k) = some (encryptBlock s.rk s.nr.toNat (p.xor prev))) ∧
    (exec .cbcDec s = .next t → ∀ k : Nat, k < s.len.toNat / 16 → ∃ c prev : Block,
      blockAt s.mem (s.src.toNat + 16 * k) = some c ∧
      some prev = (if k = 0 then some (groupBlock s.iv) else blockAt s.mem (s.src.toNat + 16 * (k - 1))) ∧
      blockAt t.mem (s.dst.toNat + 16 * k) = some ((decryptBlock s.rk s.nr.toNat c).xor prev)) ∧
    (exec .ctrXform s = .next t → ∀ j : Nat, j < s.len.toNat →
      t.mem.byteAt (s.dst.toNat + j) =
        (s.mem.byteAt (s.src.toNat + j)).map (· ^^^ blockByte (keystream s (j / 16)) (j % 16)))

/-- Rule R158: CTR_XFORM applied to its own output, with the same nonce and key, gives the input back, for every LEN. -/
def Obligations.CtrTransformIsAnInvolution : Prop :=
  ∀ s : State, s.ksValid = true → RangesFit s → NoClobber s.src.toNat s.dst.toNat s.len.toNat →
    Initialised s.mem s.src.toNat s.len.toNat →
    ∃ t u : State, exec .ctrXform s = .next t ∧ exec .ctrXform { t with src := s.dst } = .next u ∧
      memRead u.mem s.dst.toNat s.len.toNat = memRead s.mem s.src.toNat s.len.toNat ∧
      ∀ j : Nat, j < s.len.toNat → u.mem.byteAt (s.dst.toNat + j) = s.mem.byteAt (s.src.toNat + j)

/-- Rule R159: CTR_EDIT of the output of CTR_XFORM leaves the bytes that CTR_XFORM of the edited plaintext leaves, where the new
plaintext does not overlap the ciphertext. -/
def Obligations.CtrEditEqualsTransformOfEdited : Prop :=
  ∀ (s : State) (newAt : Word) (new : List Byte), s.ksValid = true → RangesFit s →
    NoClobber s.src.toNat s.dst.toNat s.len.toNat → Initialised s.mem s.src.toNat s.len.toNat →
    EditFits { s with src := newAt } →
    (newAt.toNat + s.eLen.toNat ≤ s.dst.toNat ∨ s.dst.toNat + s.len.toNat ≤ newAt.toNat) →
    memRead s.mem newAt.toNat s.eLen.toNat = .ok new →
    ∃ t u v : State, exec .ctrXform s = .next t ∧ exec .ctrEdit { t with src := newAt } = .next u ∧
      exec .ctrXform { s with mem := memWrite s.mem (s.src.toNat + s.offset.toNat) new } = .next v ∧
      ∀ j : Nat, j < s.len.toNat → u.mem.byteAt (s.dst.toNat + j) = v.mem.byteAt (s.dst.toNat + j)

/-- Rule R160: ECB_DEC of ECB_ENC's output and CBC_DEC of CBC_ENC's output give the input back, for every key, IV and LEN that is a
multiple of 16; only CBC needs IVLEN = 16. -/
def Obligations.ModesRoundTrip : Prop :=
  ∀ (s : State) (enc dec : Instr), (enc, dec) ∈ [(Instr.ecbEnc, Instr.ecbDec), (.cbcEnc, .cbcDec)] →
    s.ksValid = true → (enc = .cbcEnc → s.ivLen.toNat = 16) → s.len.toNat % 16 = 0 → RangesFit s →
    NoClobber s.src.toNat s.dst.toNat s.len.toNat → Initialised s.mem s.src.toNat s.len.toNat →
    ∃ t u : State, exec enc s = .next t ∧ exec dec { t with src := s.dst } = .next u ∧
      ∀ j : Nat, j < s.len.toNat → u.mem.byteAt (s.dst.toNat + j) = s.mem.byteAt (s.src.toNat + j)

/-- Rule R161: a CBC command over P1 ++ P2 leaves the buffer and the chaining value that two commands leave, the second over P2 with
IV ← CHAIN, whatever the overlap of the ranges. The rule marks itself as derived from rules R153 and R154. -/
def Obligations.CbcContinuesAcrossCommands : Prop :=
  ∀ (s : State) (i : Instr) (len1 len2 src2 dst2 : Word), i ∈ [Instr.cbcEnc, .cbcDec] →
    s.ksValid = true → s.ivLen.toNat = 16 → RangesFit s → Initialised s.mem s.src.toNat s.len.toNat →
    len1.toNat % 16 = 0 → len2.toNat % 16 = 0 → s.len.toNat = len1.toNat + len2.toNat →
    src2.toNat = s.src.toNat + len1.toNat → dst2.toNat = s.dst.toNat + len1.toNat →
    ∃ t a b : State, exec i s = .next t ∧ exec i { s with len := len1 } = .next a ∧
      exec i { a with iv := a.chain, src := src2, dst := dst2, len := len2 } = .next b ∧
      b.mem = t.mem ∧ b.chain = t.chain

/-! ### Errors and reports -/

/-- Rule R255: each of the eight cipher commands reports NO_KEY_SCHEDULE when KS_VALID = 0, whatever its other operands, and writes
nothing else; KS_VALID is 0 after reset and after a failed KEY_EXPAND. -/
def Obligations.CipherCommandsNeedSchedule : Prop :=
  (∀ (s : State) (i : Instr), i ∈ cipherCommands → s.ksValid = false → exec i s = .next (failed .noKeySchedule s)) ∧
  (∀ c : Config, (State.resetWith c).ksValid = false) ∧
  ∀ s t : State, s.keyLen.toNat ∉ [16, 24, 32] → exec .keyExpand s = .next t → t.ksValid = false

/-- Rule R257, in rule R253's order: with a schedule, CBC reports INVALID_IV_LENGTH when IVLEN ≠ 16; ECB, and CBC with IVLEN = 16,
report LENGTH_NOT_BLOCK_MULTIPLE when LEN mod 16 ≠ 0; CTR_EDIT reports OUT_OF_BOUNDS when OFFSET + ELEN > LEN, as exact sums; CTR_XFORM has no length check. -/
def Obligations.ParameterErrorsReportedInOrder : Prop :=
  ∀ s : State, s.ksValid = true →
    (∀ i, i ∈ [Instr.cbcEnc, .cbcDec] → s.ivLen.toNat ≠ 16 → exec i s = .next (failed .invalidIvLength s)) ∧
    (∀ i, i ∈ [Instr.ecbEnc, .ecbDec, .cbcEnc, .cbcDec] → (i ∈ [Instr.cbcEnc, .cbcDec] → s.ivLen.toNat = 16) →
      s.len.toNat % 16 ≠ 0 → exec i s = .next (failed .lengthNotBlockMultiple s)) ∧
    (s.offset.toNat + s.eLen.toNat > s.len.toNat → exec .ctrEdit s = .next (failed .outOfBounds s)) ∧
    ∀ t, exec .ctrXform s = .next t → t.errCode = .noError ∨ t.errCode = .bufferRange

/-- Rule R258, last in rule R253's order: with every earlier check passed, a range that does not fit in the buffer is reported as
BUFFER_RANGE, as exact sums. -/
def Obligations.RangeErrorsReportedLast : Prop :=
  ∀ s : State, s.ksValid = true →
    (∀ i, i ∈ [Instr.ecbEnc, .ecbDec, .cbcEnc, .cbcDec, .ctrXform] →
      (i ∈ [Instr.cbcEnc, .cbcDec] → s.ivLen.toNat = 16) → (i ≠ .ctrXform → s.len.toNat % 16 = 0) →
      (s.src.toNat + s.len.toNat > s.cfg.bufBytes ∨ s.dst.toNat + s.len.toNat > s.cfg.bufBytes) →
      exec i s = .next (failed .bufferRange s)) ∧
    (s.offset.toNat + s.eLen.toNat ≤ s.len.toNat →
      (s.dst.toNat + s.len.toNat > s.cfg.bufBytes ∨ s.src.toNat + s.eLen.toNat > s.cfg.bufBytes) →
      exec .ctrEdit s = .next (failed .bufferRange s))

/-- Rule R259: a command that raises an error writes only the report, and, for INVALID_KEY_LENGTH only, invalidates the store: for every command that raises one, and for every illegal word (the engine's turn as an event of `inputs`:
log entry 3). -/
def Obligations.FailedCommandsWriteOnlyTheReport : Prop :=
  (∀ (s t : State) (i : Instr), s.err = false → exec i s = .next t → t.err = true →
    t.errCode ≠ .noError ∧
    (t.errCode ≠ .invalidKeyLength →
      t = { s with err := true, errCode := t.errCode, done := true, seq := .idle }) ∧
    (t.errCode = .invalidKeyLength →
      t = { s with
        err := true, errCode := t.errCode, done := true, seq := .idle
        ksValid := false, nr := .r0, rk := Vector.replicate 15 Block.zero })) ∧
  ∀ (s : State) (e : DecodeError) (rest : List Event), s.seq = .busy → decode s.pending = .error e →
    s.inputs = .engine :: rest →
    step s = .next { s with inputs := rest, err := true, errCode := .illegalCommand, done := true, seq := .idle }

/-- Rules R48, R72 and R252: a command whose read range is initialised completes, with DONE = 1 and SEQ idle; a command that stops
does so on an uninitialised byte of its read range, and no command is refused. Rule R72 and U7: a command whose checks pass and that
reads an uninitialised byte, where its writes do not reach its later reads, faults. The byte named is the first in the order of the
reads, rules R150 and R157; within one read it is the lowest, the model's choice (log entry 10, DESIGN CHOICE). -/
def Obligations.CommandsStopOnlyOnUninitialisedBytes : Prop :=
  ∀ (s : State) (i : Instr),
    (Initialised s.mem (readRange i s).1 (readRange i s).2 → ∃ t : State, exec i s = .next t) ∧
    (∀ t, exec i s = .next t → t.done = true ∧ t.seq = .idle) ∧
    (∀ f, exec i s = .fault f → ∃ a : Nat, f = .uninitBufferRead a ∧ s.mem.byteAt a = none ∧
      (readRange i s).1 ≤ a ∧ a < (readRange i s).1 + (readRange i s).2) ∧
    (∀ k : Nat, commandError i s = none → NoClobber (readRange i s).1 (storedRange i s).1 (readRange i s).2 →
      k < (readRange i s).2 → Initialised s.mem (readRange i s).1 k → s.mem.byteAt ((readRange i s).1 + k) = none →
      exec i s = .fault (.uninitBufferRead ((readRange i s).1 + k))) ∧
    ∀ r, exec i s ≠ .refused r

/-- Rule R260: in every state that meets the invariant, after every completion (a step from BUSY to IDLE that is no reset) DONE = 1,
ERR = 1 exactly when ERRCODE is an error, and ERRCODE names the first check that failed or ILLEGAL_COMMAND. The report then stays:
a step of an idle engine that is no STATUS write, no CMD write, no reset and no power-on leaves DONE, ERR and ERRCODE. -/
def Obligations.ReportIsExactAndStays : Prop :=
  (∀ s t : State, Inv s → s.seq = .busy → step s = .next t → t.seq = .idle →
    s.inputs.head? ≠ some .reset → s.inputs.head? ≠ some .powerOn →
    t.done = true ∧ (t.err = true ↔ t.errCode ≠ .noError) ∧
    t.errCode = (match decode s.pending with
      | .ok i => (commandError i s).getD .noError
      | .error _ => .illegalCommand)) ∧
  ∀ (s t : State), s.seq = .idle → step s = .next t →
    s.inputs.head? ≠ some .reset → s.inputs.head? ≠ some .powerOn →
    (∀ v, s.inputs.head? ≠ some (.access (.write .w32 (s.cfg.base + regOffset .status) v)) ∧
      s.inputs.head? ≠ some (.access (.write .w32 (s.cfg.base + regOffset .cmd) v))) →
    t.done = s.done ∧ t.err = s.err ∧ t.errCode = s.errCode

/-- Rule R262: `irq` is IE ∧ DONE as software reads them; a completion with IE = 1 leaves it high; a step that raises it is such a
completion or a write of CTRL that sets IE while DONE = 1; and a W1C of DONE, an issue, a write of 0 to IE, and a reset leave it low. -/
def Obligations.InterruptRaisedOnlyByCompletionOrEnable : Prop :=
  ∀ (s t : State),
    s.irq = ((readReg .ctrl s).getLsbD 0 && (readReg .status s).getLsbD 1) ∧
    (step s = .next t → s.irq = false → t.irq = true →
      (s.seq = .busy ∧ t.seq = .idle ∧ s.ie = true) ∨
      (s.done = true ∧ ∃ v : Word, s.inputs.head? = some (.access (.write .w32 (s.cfg.base + regOffset .ctrl) v)) ∧
        v.getLsbD 0 = true)) ∧
    (step s = .next t → s.seq = .busy → t.seq = .idle → s.inputs.head? ≠ some .reset → s.inputs.head? ≠ some .powerOn →
      s.ie = true → t.irq = true) ∧
    (step s = .next t → ∀ v : Word,
      (s.inputs.head? = some (.access (.write .w32 (s.cfg.base + regOffset .status) v)) ∧ v.getLsbD 1 = true) ∨
      (s.inputs.head? = some (.access (.write .w32 (s.cfg.base + regOffset .ctrl) v)) ∧ v.getLsbD 0 = false) ∨
      (s.inputs.head? = some (.access (.write .w32 (s.cfg.base + regOffset .cmd) v)) ∧ s.seq = .idle) →
      t.irq = false) ∧
    (step s = .next t → s.inputs.head? = some .reset → t.irq = false)

/-- Rule R266: a dropped write sets OVR and changes nothing else; nothing else sets it; and it is sticky until a STATUS write with
bit 3 set, a reset, or power-on. (The event taken off `inputs` and the response are the model's: log entries 3 and 4.) -/
def Obligations.OverrunIsStickyAndOnlyFromDroppedWrites : Prop :=
  ∀ s t : State, step s = .next t →
    (s.live = true → s.seq = .busy → ∀ r ∈ droppedRegs, ∀ v : Word,
      s.inputs.head? = some (.access (.write .w32 (s.cfg.base + regOffset r) v)) →
      t = { s with ovr := true, inputs := s.inputs.tail, resp := some .writeDone }) ∧
    (s.ovr = false → t.ovr = true → s.seq = .busy ∧ ∃ r ∈ droppedRegs, ∃ v : Word,
      s.inputs.head? = some (.access (.write .w32 (s.cfg.base + regOffset r) v))) ∧
    (s.ovr = true → t.ovr = false → s.inputs.head? = some .reset ∨ s.inputs.head? = some .powerOn ∨
      ∃ v : Word, s.inputs.head? = some (.access (.write .w32 (s.cfg.base + regOffset .status) v)) ∧ v.getLsbD 3 = true)

/-- Rule R48 ("the result is the same as if the command ran at the instant of issue"): a register access between issue and completion
does not change what the command writes, nor the error it reports. -/
def Obligations.ResultIsAsAtIssue : Prop :=
  ∀ (s t u : State) (r : BusReq) (i : Instr) (off : Nat), s.seq = .busy → targetOf s.cfg (reqAddr r) = .register off →
    busAccess r s = .next t → exec i s = .next u →
    ∃ v : State, exec i t = .next v ∧ v.mem = u.mem ∧ v.blkOut = u.blkOut ∧ v.chain = u.chain ∧ v.gfR = u.gfR ∧
      v.rk = u.rk ∧ v.nr = u.nr ∧ v.ksValid = u.ksValid ∧ v.errCode = u.errCode

/-- Rules R47, R48 and R81: from a live idle machine, a CMD write of a command whose read range is initialised, followed by the engine's
turn, ends with the command completed, LAST_OP its opcode, and the next event waiting. -/
def Obligations.IssueThenCompletion : Prop :=
  ∀ (s : State) (i : Instr) (rest : List Event), s.live = true → s.seq = .idle →
    s.inputs = .access (.write .w32 (s.cfg.base + regOffset .cmd) (encode i)) :: .engine :: rest →
    Initialised s.mem (readRange i s).1 (readRange i s).2 →
    ∃ t u : State, step s = .next t ∧ t.seq = .busy ∧ t.done = false ∧ t.pending = encode i ∧ step t = .next u ∧
      u.seq = .idle ∧ u.done = true ∧ u.lastOp = opcode i ∧ u.inputs = rest ∧
      u.errCode = (commandError i s).getD .noError

/-! ### Reset -/

/-- Rule R291: the values after reset, for every configuration, as software reads them and inside the engine. -/
def Obligations.ResetValues : Prop :=
  ∀ c : Config, let s := State.resetWith c
    (∀ r : Reg, r ≠ .id → r ≠ .bufSize → readReg r s = 0) ∧ readReg .id s = 0x31534541 ∧
    (readReg .bufSize s).toNat = c.bufBytes ∧ s.seq = .idle ∧ s.pending = 0 ∧ s.ksValid = false ∧ s.nr = .r0 ∧
    (∀ k : Nat, roundKey s.rk k = Block.zero) ∧ s.irq = false ∧ s.live = true

/-- Rules R290, R271 and R293: a reset, whatever SEQ is, leaves every register and the round-key store at their reset values, and the
buffer of an idle machine as it was; power-on leaves the same but an uninitialised buffer and a machine that is not live. The model's choices: the events that
wait in `inputs` and the response in `resp` survive both (log entries 3 and 4, DESIGN CHOICE), and power-on leaves `live` false and the
registers at their reset values until the first reset completes (log entry 7, DESIGN CHOICE). -/
def Obligations.ResetEventsRestoreResetValues : Prop :=
  (∀ (s : State) (rest : List Event), s.inputs = .reset :: rest → ∃ m : Memory,
    step s = .next { State.resetWith s.cfg with mem := m, inputs := rest, resp := s.resp } ∧
    (s.seq = .idle → m = s.mem)) ∧
  ∀ (s : State) (rest : List Event), s.inputs = .powerOn :: rest →
    step s = .next { State.resetWith s.cfg with live := false, mem := [], inputs := rest, resp := s.resp }

/-- Rule R292: a reset while BUSY leaves every register and the round-key store at their reset values, with no report, and makes
uninitialised exactly the bytes the command could have written had its checks passed:
`[DST, DST+LEN)` for ECB, CBC and CTR_XFORM, `[DST+OFFSET, DST+OFFSET+ELEN)` for CTR_EDIT, none for any other word or where a check
would fail. Every other byte keeps its value and tag. That the events that wait in `inputs` and the response in `resp` survive is the model's
(log entries 3 and 4, DESIGN CHOICE). -/
def Obligations.ResetAbortsCommandInFlight : Prop :=
  ∀ (s t : State) (rest : List Event), s.seq = .busy → s.inputs = .reset :: rest → step s = .next t →
    t = { State.resetWith s.cfg with mem := t.mem, inputs := rest, resp := s.resp } ∧
    (∀ i, decode s.pending = .ok i → commandError i s = none →
      i ∈ [Instr.ecbEnc, .ecbDec, .cbcEnc, .cbcDec, .ctrXform] → ∀ a : Nat, t.mem.byteAt a =
        if s.dst.toNat ≤ a ∧ a < s.dst.toNat + s.len.toNat then none else s.mem.byteAt a) ∧
    (decode s.pending = .ok .ctrEdit → commandError .ctrEdit s = none → ∀ a : Nat, t.mem.byteAt a =
        if s.dst.toNat + s.offset.toNat ≤ a ∧ a < s.dst.toNat + s.offset.toNat + s.eLen.toNat then none
        else s.mem.byteAt a) ∧
    ((∀ i, decode s.pending = .ok i → (commandError i s).isSome = true ∨
        i ∉ [Instr.ecbEnc, .ecbDec, .cbcEnc, .cbcDec, .ctrXform, .ctrEdit]) → t.mem = s.mem)

/-! ### The invariant -/

/-- The machine's invariant (rules R45, R47, R71, R250, R260; its part `beforeReset` is the model's, log entry 7) holds after reset, for
every configuration. -/
def Obligations.ResetMeetsTheInvariant : Prop := ∀ c : Config, Inv (State.resetWith c)

/-- Every step keeps the machine's invariant, from every state that meets it: the buffer stays canonical and inside BUF_BYTES, KS_VALID
= 1 exactly when NR is 10, 12 or 14, the store is the expansion of some key or all zero, and the report agrees with SEQ. Its part `beforeReset`,
no command in flight and `irq` low before the first reset completes, rests on log entry 7 (DESIGN CHOICE, unsafe for `irq` in that
time). -/
def Obligations.StepKeepsTheInvariant : Prop := ∀ s t : State, Inv s → step s = .next t → Inv t
end

