-- ==== Sys2Proof/Laws/Memory.lean ====
section
/-! SUPPORT. The laws of the buffer: read after write, the canonical form and the bound kept by every operation, and what `memRead`
and `memWrite` do, byte by byte. -/

namespace Sys2Proof.Machine

/-! ### One byte -/

@[simp] theorem byteAt_nil (a : Nat) : Memory.byteAt [] a = none := rfl

theorem byteAt_cons (k : Nat) (v : Byte) (m : Memory) (a : Nat) :
    Memory.byteAt ((k, v) :: m) a = if k = a then some v else m.byteAt a := rfl

theorem byteAt_setByte (m : Memory) (a b : Nat) (v : Byte) :
    (m.setByte a v).byteAt b = if a = b then some v else m.byteAt b := by
  induction m with
  | nil => simp [Memory.setByte, byteAt_cons]
  | cons c rest ih =>
    obtain ⟨k, w⟩ := c
    simp only [Memory.setByte]
    split
    · simp [byteAt_cons]
    · split
      · subst k
        simp only [byteAt_cons]
        split <;> rfl
      · simp only [byteAt_cons, ih]
        split <;> split <;> first | rfl | omega

@[simp] theorem byteAt_setByte_self (m : Memory) (a : Nat) (v : Byte) : (m.setByte a v).byteAt a = some v := by
  simp [byteAt_setByte]

theorem mem_setByte {m : Memory} {a : Nat} {v : Byte} {c : Host.Cell} (h : c ∈ m.setByte a v) : c = (a, v) ∨ c ∈ m := by
  induction m with
  | nil => simpa [Memory.setByte] using h
  | cons d rest ih =>
    obtain ⟨k, w⟩ := d
    simp only [Memory.setByte] at h
    split at h
    · simpa using h
    · split at h <;> simp only [List.mem_cons] at h ⊢
      · tauto
      · rcases h with h | h
        · tauto
        · rcases ih h with h | h <;> tauto

theorem wf_setByte {m : Memory} (h : m.wf) (a : Nat) (v : Byte) : (m.setByte a v).wf := by
  induction m with
  | nil => simp [Memory.setByte]
  | cons d rest ih =>
    obtain ⟨k, w⟩ := d
    obtain ⟨hk, hr⟩ := List.pairwise_cons.mp h
    simp only [Memory.setByte]
    split
    · rename_i hlt
      refine List.pairwise_cons.mpr ⟨fun c hc => ?_, h⟩
      rcases List.mem_cons.mp hc with rfl | hc
      · exact hlt
      · exact Nat.lt_trans hlt (hk c hc)
    · split
      · subst k
        exact List.pairwise_cons.mpr ⟨hk, hr⟩
      · refine List.pairwise_cons.mpr ⟨fun c hc => ?_, ih hr⟩
        rcases mem_setByte hc with rfl | hc
        · show k < a
          omega
        · exact hk c hc

theorem byteAt_clearRange (m : Memory) (a n b : Nat) :
    (m.clearRange a n).byteAt b = if a ≤ b ∧ b < a + n then none else m.byteAt b := by
  induction m with
  | nil => simp [Memory.clearRange]
  | cons c rest ih =>
    obtain ⟨k, w⟩ := c
    simp only [Memory.clearRange, List.filter_cons] at ih ⊢
    by_cases hk : a ≤ k ∧ k < a + n
    · have : (!(decide (a ≤ k) && decide (k < a + n))) = false := by simp [hk]
      simp only [this, Bool.false_eq_true, if_false, ih, byteAt_cons]
      split
      · rfl
      · split
        · subst k; contradiction
        · rfl
    · have : (!(decide (a ≤ k) && decide (k < a + n))) = true := by
        simp only [Bool.not_eq_true', Bool.and_eq_false_iff, decide_eq_false_iff_not]; omega
      simp only [this, if_true, byteAt_cons, ih]
      split
      · subst k; simp [hk]
      · rfl

theorem wf_clearRange {m : Memory} (h : m.wf) (a n : Nat) : (m.clearRange a n).wf := List.Pairwise.filter _ h

theorem mem_clearRange {m : Memory} {a n : Nat} {c : Host.Cell} (h : c ∈ m.clearRange a n) : c ∈ m :=
  (List.mem_filter.mp h).1

@[simp] theorem clearRange_zero (m : Memory) (a : Nat) : m.clearRange a 0 = m := by
  refine List.filter_eq_self.mpr fun c _ => ?_
  simp only [Bool.not_eq_true', Bool.and_eq_false_iff, decide_eq_false_iff_not]; omega

/-- Two buffers in canonical form that answer alike at every offset are the same list. -/
theorem memory_ext {m n : Memory} (hm : m.wf) (hn : n.wf) (h : ∀ a, m.byteAt a = n.byteAt a) : m = n := by
  induction m generalizing n with
  | nil =>
    cases n with
    | nil => rfl
    | cons d _ =>
      obtain ⟨k, w⟩ := d
      have := h k
      simp [byteAt_cons] at this
  | cons c rest ih =>
    obtain ⟨k, v⟩ := c
    cases n with
    | nil =>
      have := h k
      simp [byteAt_cons] at this
    | cons d rest' =>
      obtain ⟨l, w⟩ := d
      obtain ⟨hk, hr⟩ := List.pairwise_cons.mp hm
      obtain ⟨hl, hr'⟩ := List.pairwise_cons.mp hn
      have none_below : ∀ {q : Memory} {a b : Nat}, (∀ c ∈ q, a < c.1) → b ≤ a → q.byteAt b = none := by
        intro q a b hq hb
        induction q with
        | nil => rfl
        | cons e q' ihq =>
          obtain ⟨x, y⟩ := e
          have hx : a < x := hq (x, y) (by simp)
          rw [byteAt_cons, if_neg (by omega)]
          exact ihq fun c hc => hq c (by simp [hc])
      have hkl : k = l := by
        rcases Nat.lt_trichotomy k l with hlt | heq | hgt
        · have := h k
          rw [byteAt_cons, if_pos rfl, byteAt_cons, if_neg (by omega), none_below hl (by omega)] at this
          exact absurd this (by simp)
        · exact heq
        · have := h l
          rw [byteAt_cons, if_neg (by omega), byteAt_cons, if_pos rfl, none_below hk (by omega)] at this
          exact absurd this (by simp)
      subst hkl
      have hvw : v = w := by simpa [byteAt_cons] using h k
      subst hvw
      congr 1
      refine ih hr hr' fun a => ?_
      have := h a
      simp only [byteAt_cons] at this
      split at this
      · subst_vars
        rw [none_below hk le_rfl, none_below hl le_rfl]
      · exact this

/-! ### Byte sequences -/

theorem memReadByte_ok_iff {m : Memory} {a : Nat} {b : Byte} : memReadByte m a = .ok b ↔ m.byteAt a = some b := by
  unfold memReadByte
  cases m.byteAt a <;> simp

theorem memReadByte_error_iff {m : Memory} {a : Nat} {f : Fault} :
    memReadByte m a = .error f ↔ m.byteAt a = none ∧ f = .uninitBufferRead a := by
  unfold memReadByte
  cases m.byteAt a <;> simp [eq_comm]

/-- What a successful read answers: as many bytes as asked for, each the buffer's. -/
theorem memRead_ok_iff {m : Memory} {a n : Nat} {bs : List Byte} :
    memRead m a n = .ok bs ↔ bs.length = n ∧ ∀ k, k < n → m.byteAt (a + k) = bs[k]? := by
  induction n generalizing a bs with
  | zero =>
    simp only [memRead, Except.ok.injEq]
    constructor
    · rintro rfl; simp
    · rintro ⟨h, -⟩; exact (List.length_eq_zero_iff.mp h).symm
  | succ n ih =>
    simp only [memRead]
    cases hb : memReadByte m a with
    | error f =>
      obtain ⟨hnone, -⟩ := memReadByte_error_iff.mp hb
      simp only [reduceCtorEq, false_iff, not_and]
      intro hl hk
      have := hk 0 (by omega)
      rw [Nat.add_zero, hnone, eq_comm, List.getElem?_eq_none_iff] at this
      omega
    | ok b =>
      have hb' := memReadByte_ok_iff.mp hb
      cases hr : memRead m (a + 1) n with
      | error f =>
        simp only [reduceCtorEq, false_iff, not_and]
        intro hl hk
        cases bs with
        | nil => simp at hl
        | cons c cs =>
          have : memRead m (a + 1) n = .ok cs := ih.mpr ⟨by simpa using hl, fun k hkn => by
            have := hk (k + 1) (by omega)
            rw [show a + 1 + k = a + (k + 1) by omega, this]; rfl⟩
          rw [hr] at this; cases this
      | ok cs =>
        obtain ⟨hl, hk⟩ := ih.mp hr
        simp only [Except.ok.injEq]
        constructor
        · rintro rfl
          refine ⟨by simp [hl], fun k hkn => ?_⟩
          cases k with
          | zero => simpa using hb'
          | succ k =>
            rw [show a + (k + 1) = a + 1 + k by omega, hk k (by omega)]; rfl
        · rintro ⟨hl', hk'⟩
          apply List.ext_getElem?
          intro k
          rcases Nat.lt_or_ge k (n + 1) with hlt | hge
          · rw [← hk' k hlt]
            cases k with
            | zero => simpa using hb'.symm
            | succ k =>
              rw [show a + (k + 1) = a + 1 + k by omega, hk k (by omega)]; rfl
          · rw [List.getElem?_eq_none (by simp [hl]; omega), List.getElem?_eq_none (by omega)]

theorem memRead_length {m : Memory} {a n : Nat} {bs : List Byte} (h : memRead m a n = .ok bs) : bs.length = n :=
  (memRead_ok_iff.mp h).1

/-- A read stops only on an uninitialised byte of its range. -/
theorem memRead_error {m : Memory} {a n : Nat} {f : Fault} (h : memRead m a n = .error f) :
    ∃ k, k < n ∧ m.byteAt (a + k) = none ∧ f = .uninitBufferRead (a + k) ∧ ∀ j, j < k → (m.byteAt (a + j)).isSome = true := by
  induction n generalizing a with
  | zero => cases h
  | succ n ih =>
    simp only [memRead] at h
    cases hb : memReadByte m a with
    | error g =>
      rw [hb] at h
      obtain ⟨hn, rfl⟩ := memReadByte_error_iff.mp hb
      cases h
      exact ⟨0, by omega, hn, rfl, fun j hj => absurd hj (by omega)⟩
    | ok b =>
      rw [hb] at h
      cases hr : memRead m (a + 1) n with
      | ok cs => rw [hr] at h; cases h
      | error g =>
        rw [hr] at h
        cases h
        obtain ⟨k, hk, hn, rfl, hj⟩ := ih hr
        refine ⟨k + 1, by omega, by rw [show a + (k + 1) = a + 1 + k by omega]; exact hn, by congr 1; omega, fun j hlt => ?_⟩
        cases j with
        | zero => simp [memReadByte_ok_iff.mp hb]
        | succ j => rw [show a + (j + 1) = a + 1 + j by omega]; exact hj j (by omega)

/-- A read of initialised bytes succeeds. -/
theorem memRead_exists {m : Memory} {a n : Nat} (h : ∀ k, k < n → (m.byteAt (a + k)).isSome = true) :
    ∃ bs, memRead m a n = .ok bs := by
  cases hr : memRead m a n with
  | ok bs => exact ⟨bs, rfl⟩
  | error f =>
    obtain ⟨k, hk, hn, -, -⟩ := memRead_error hr
    have := h k hk
    rw [hn] at this; cases this

/-- A read depends only on the bytes of its range. -/
theorem memRead_congr {m m' : Memory} {a n : Nat} (h : ∀ k, k < n → m.byteAt (a + k) = m'.byteAt (a + k)) :
    memRead m a n = memRead m' a n := by
  induction n generalizing a with
  | zero => rfl
  | succ n ih =>
    have h0 : memReadByte m a = memReadByte m' a := by
      unfold memReadByte; rw [show m.byteAt a = m'.byteAt a from h 0 (by omega)]
    have := ih (a := a + 1) fun k hk => by
      rw [show a + 1 + k = a + (k + 1) by omega]; exact h (k + 1) (by omega)
    simp only [memRead, h0, this]

theorem byteAt_memWrite (m : Memory) (a : Nat) (bs : List Byte) (b : Nat) :
    (memWrite m a bs).byteAt b = if a ≤ b ∧ b < a + bs.length then bs[b - a]? else m.byteAt b := by
  induction bs generalizing m a with
  | nil =>
    rw [if_neg (by simp only [List.length_nil]; omega)]; rfl
  | cons c rest ih =>
    simp only [memWrite, ih, byteAt_setByte, List.length_cons]
    rcases Nat.lt_trichotomy b a with hlt | rfl | hgt
    · rw [if_neg (by omega), if_neg (by omega), if_neg (by omega)]
    · rw [if_neg (by omega), if_pos rfl, if_pos (by omega)]; simp
    · by_cases hin : b < a + (rest.length + 1)
      · rw [if_pos (by omega), if_pos (by omega), show b - a = (b - (a + 1)) + 1 by omega]; rfl
      · rw [if_neg (by omega), if_neg (by omega), if_neg (by omega)]

theorem wf_memWrite {m : Memory} (h : m.wf) (a : Nat) (bs : List Byte) : (memWrite m a bs).wf := by
  induction bs generalizing m a with
  | nil => exact h
  | cons b rest ih => exact ih (wf_setByte h a b) (a + 1)

theorem mem_memWrite {m : Memory} {a : Nat} {bs : List Byte} {c : Host.Cell} (h : c ∈ memWrite m a bs) :
    c ∈ m ∨ (a ≤ c.1 ∧ c.1 < a + bs.length) := by
  induction bs generalizing m a with
  | nil => exact .inl h
  | cons b rest ih =>
    rcases ih h with h | h
    · rcases mem_setByte h with rfl | h
      · exact .inr ⟨le_rfl, by simp⟩
      · exact .inl h
    · simp only [List.length_cons]; exact .inr ⟨by omega, by omega⟩

end Sys2Proof.Machine
end

