-- ==== Sys2Proof/Laws/Chunks.lean ====
section
/-! SUPPORT. What the two loops of the mode commands do, said once: a run of a loop is a sequence of buffers, one per chunk or byte,
from which its frame, its completion, its faults and, where the ranges do not clobber each other, its result follow. -/

namespace Sys2Proof.Machine

theorem byteAt_memWrite_isSome {m : Memory} {a b : Nat} {bs : List Byte} (h : (m.byteAt b).isSome = true) :
    ((memWrite m a bs).byteAt b).isSome = true := by
  rw [byteAt_memWrite]
  split
  · rename_i hin
    rw [List.getElem?_eq_getElem (by omega)]; rfl
  · exact h

theorem byteAt_memWrite_none {m : Memory} {a b : Nat} {bs : List Byte} (h : (memWrite m a bs).byteAt b = none) :
    m.byteAt b = none := by
  by_contra hne
  have := byteAt_memWrite_isSome (a := a) (bs := bs) (Option.isSome_iff_ne_none.mpr hne)
  rw [h] at this; cases this

/-! ### The chunk loop -/

/-- A run of `n` chunks from block index `i`: the buffer and the chaining value before and after each chunk. -/
structure ChunkTrace (f : ChunkFn) (src dst len n i : Nat) (bufs : Nat → Memory) (chain : Nat → Block) : Prop where
  /-- Chunk `k` is read from the buffer the chunks before it left, and its output written there. -/
  chunk : ∀ k, k < n → ∃ d, memRead (bufs k) (src + 16 * (i + k)) (min 16 (len - 16 * (i + k))) = .ok d ∧
    chain (k + 1) = (f (i + k) (chain k) d).2 ∧
    bufs (k + 1) = memWrite (bufs k) (dst + 16 * (i + k)) (f (i + k) (chain k) d).1

/-- Put one element before a sequence. -/
def consSeq {α : Type} (a : α) (q : Nat → α) : Nat → α
  | 0 => a
  | k + 1 => q k

theorem chunkLoop_trace {f : ChunkFn} {src dst len n i : Nat} {ch : Block} {m : Memory} {r : Memory × Block}
    (h : chunkLoop f src dst len n i ch m = .ok r) :
    ∃ bufs chain, bufs 0 = m ∧ chain 0 = ch ∧ ChunkTrace f src dst len n i bufs chain ∧ r = (bufs n, chain n) := by
  induction n generalizing i ch m with
  | zero =>
    cases h
    exact ⟨fun _ => m, fun _ => ch, rfl, rfl, ⟨fun k hk => absurd hk (by omega)⟩, rfl⟩
  | succ n ih =>
    simp only [chunkLoop] at h
    split at h
    · cases h
    · rename_i d hd
      obtain ⟨bufs, chain, hb, hc, ⟨ht⟩, hr⟩ := ih h
      refine ⟨consSeq m bufs, consSeq ch chain, rfl, rfl, ⟨fun k hk => ?_⟩, hr⟩
      cases k with
      | zero => exact ⟨d, hd, hc, hb⟩
      | succ k =>
        obtain ⟨e, he⟩ := ht k (by omega)
        rw [show i + 1 + k = i + (k + 1) by omega] at he
        exact ⟨e, he⟩

/-- A run of `n1 + n2` chunks is a run of `n1` and then one of `n2` from where it stopped. -/
theorem chunkLoop_add (f : ChunkFn) (src dst len n1 n2 i : Nat) (ch : Block) (m : Memory) :
    chunkLoop f src dst len (n1 + n2) i ch m =
      match chunkLoop f src dst len n1 i ch m with
      | .error e => .error e
      | .ok r => chunkLoop f src dst len n2 (i + n1) r.2 r.1 := by
  induction n1 generalizing i ch m with
  | zero => simp [chunkLoop]
  | succ n ih =>
    rw [show n + 1 + n2 = (n + n2) + 1 by omega]
    simp only [chunkLoop]
    cases memRead m (src + 16 * i) (min 16 (len - 16 * i)) with
    | error e => rfl
    | ok d => simp only [ih]; rw [show i + 1 + n = i + (n + 1) by omega]

/-- The chunk loop completes when its source bytes are initialised, whatever the overlap. -/
theorem chunkLoop_completes {f : ChunkFn} {src dst len n i : Nat} {ch : Block} {m : Memory}
    (h : ∀ k, k < len → (m.byteAt (src + k)).isSome = true) : ∃ r, chunkLoop f src dst len n i ch m = .ok r := by
  induction n generalizing i ch m with
  | zero => exact ⟨_, rfl⟩
  | succ n ih =>
    obtain ⟨d, hd⟩ := memRead_exists (m := m) (a := src + 16 * i) (n := min 16 (len - 16 * i)) fun k hk => by
      rw [Nat.add_assoc]; exact h _ (by omega)
    simp only [chunkLoop, hd]
    exact ih fun k hk => byteAt_memWrite_isSome (h k hk)

/-- The chunk loop stops only on a source byte that was uninitialised before it began. -/
theorem chunkLoop_error {f : ChunkFn} {src dst len n i : Nat} {ch : Block} {m : Memory} {e : Fault}
    (h : chunkLoop f src dst len n i ch m = .error e) :
    ∃ a, e = .uninitBufferRead a ∧ m.byteAt a = none ∧ src ≤ a ∧ a < src + len := by
  induction n generalizing i ch m with
  | zero => cases h
  | succ n ih =>
    simp only [chunkLoop] at h
    split at h
    · rename_i e' he
      cases h
      obtain ⟨k, hk, hn, rfl, -⟩ := memRead_error he
      exact ⟨_, rfl, hn, by omega, by omega⟩
    · obtain ⟨a, rfl, hn, ha⟩ := ih h
      exact ⟨a, rfl, byteAt_memWrite_none hn, ha⟩

/-- A chunk function whose output is as long as its input, for the chunks of a command of length `len`. -/
def KeepsLength (f : ChunkFn) (len : Nat) : Prop :=
  ∀ i ch d, 16 * i < len → d.length = min 16 (len - 16 * i) → (f i ch d).1.length = d.length

/-- Where the ranges are equal or disjoint, the chunk loop stops at the first uninitialised source byte of the chunks it has left. -/
theorem chunkLoop_firstError {f : ChunkFn} {src dst len n i : Nat} {ch : Block} {m : Memory} (hf : KeepsLength f len)
    (hc : src = dst ∨ src + len ≤ dst ∨ dst + len ≤ src) {k : Nat} (hlo : 16 * i ≤ k) (hhi : k < 16 * (i + n)) (hk : k < len)
    (hinit : ∀ j, 16 * i ≤ j → j < k → (m.byteAt (src + j)).isSome = true) (hnone : m.byteAt (src + k) = none) :
    chunkLoop f src dst len n i ch m = .error (.uninitBufferRead (src + k)) := by
  induction n generalizing i ch m with
  | zero => omega
  | succ n ih =>
    simp only [chunkLoop]
    cases hr : memRead m (src + 16 * i) (min 16 (len - 16 * i)) with
    | error e =>
      obtain ⟨b, hb, hbn, rfl, hbi⟩ := memRead_error hr
      have hge : ¬16 * i + b < k := fun h => by
        have := hinit (16 * i + b) (by omega) h
        rw [← Nat.add_assoc, hbn] at this; cases this
      have hle : ¬k - 16 * i < b := fun h => by
        have := hbi (k - 16 * i) h
        rw [show src + 16 * i + (k - 16 * i) = src + k by omega, hnone] at this; cases this
      rw [show src + 16 * i + b = src + k by omega]
    | ok d =>
      have hdl := memRead_length hr
      have hkn : 16 * (i + 1) ≤ k := by
        by_contra hlt
        have := (memRead_ok_iff.mp hr).2 (k - 16 * i) (by omega)
        rw [show src + 16 * i + (k - 16 * i) = src + k by omega, hnone, eq_comm, List.getElem?_eq_none_iff] at this
        omega
      have hol := hf i ch d (by omega) hdl
      refine ih hkn (by omega) (fun j hj1 hj2 => byteAt_memWrite_isSome (hinit j (by omega) hj2)) ?_
      rw [byteAt_memWrite, if_neg (by omega), hnone]

section Trace

variable {f : ChunkFn} {src dst len n : Nat} {bufs : Nat → Memory} {chain : Nat → Block}

/-- One chunk of a run from block 0: where it writes, and that it writes as many bytes as it read. -/
theorem ChunkTrace.step (h : ChunkTrace f src dst len n 0 bufs chain) (hf : KeepsLength f len) (hn : n ≤ chunkCount len)
    {k : Nat} (hk : k < n) :
    ∃ d, memRead (bufs k) (src + 16 * k) (min 16 (len - 16 * k)) = .ok d ∧ d.length = min 16 (len - 16 * k) ∧
      (f k (chain k) d).1.length = min 16 (len - 16 * k) ∧ chain (k + 1) = (f k (chain k) d).2 ∧
      bufs (k + 1) = memWrite (bufs k) (dst + 16 * k) (f k (chain k) d).1 := by
  obtain ⟨d, hd, hc, hb⟩ := h.chunk k hk
  rw [Nat.zero_add] at hd hc hb
  have hl := memRead_length hd
  have : 16 * k < len := by unfold chunkCount at hn; omega
  exact ⟨d, hd, hl, by rw [hf _ _ _ this hl, hl], hc, hb⟩

/-- After `k` chunks only the first `16k` destination bytes may differ. -/
theorem ChunkTrace.frame (h : ChunkTrace f src dst len n 0 bufs chain) (hf : KeepsLength f len) (hn : n ≤ chunkCount len)
    {k : Nat} (hk : k ≤ n) {a : Nat} (ha : ¬(dst ≤ a ∧ a < dst + min len (16 * k))) :
    (bufs k).byteAt a = (bufs 0).byteAt a := by
  induction k with
  | zero => rfl
  | succ k ih =>
    obtain ⟨d, -, -, hl, -, hb⟩ := h.step hf hn (k := k) (by omega)
    rw [hb, byteAt_memWrite, if_neg (by omega), ih (by omega) (by omega)]

/-- Once chunk `k` is written, its bytes stay. -/
theorem ChunkTrace.written (h : ChunkTrace f src dst len n 0 bufs chain) (hf : KeepsLength f len) (hn : n ≤ chunkCount len)
    {k j : Nat} (hkj : k < j) (hj : j ≤ n) {b : Nat} (hb : b < min 16 (len - 16 * k)) :
    (bufs j).byteAt (dst + 16 * k + b) = (bufs (k + 1)).byteAt (dst + 16 * k + b) := by
  induction j with
  | zero => omega
  | succ j ih =>
    rcases Nat.lt_or_ge k j with hlt | hge
    · obtain ⟨d, -, -, hl, -, hbuf⟩ := h.step hf hn (k := j) (by omega)
      rw [hbuf, byteAt_memWrite, if_neg (by omega), ih hlt (by omega)]
    · rw [show j = k by omega]

theorem ChunkTrace.wf (h : ChunkTrace f src dst len n 0 bufs chain) (h0 : (bufs 0).wf) {k : Nat} (hk : k ≤ n) : (bufs k).wf := by
  induction k with
  | zero => exact h0
  | succ k ih =>
    obtain ⟨d, -, -, hb⟩ := h.chunk k (by omega)
    rw [hb]; exact wf_memWrite (ih (by omega)) _ _

theorem ChunkTrace.bound (h : ChunkTrace f src dst len n 0 bufs chain) (hf : KeepsLength f len) (hn : n ≤ chunkCount len)
    {B : Nat} (hB : dst + len ≤ B) (h0 : ∀ c ∈ bufs 0, c.1 < B) {k : Nat} (hk : k ≤ n) : ∀ c ∈ bufs k, c.1 < B := by
  induction k with
  | zero => exact h0
  | succ k ih =>
    obtain ⟨d, -, -, hl, -, hb⟩ := h.step hf hn (k := k) (by omega)
    intro c hc
    rw [hb] at hc
    rcases mem_memWrite hc with hc | hc
    · exact ih (by omega) c hc
    · omega

/-- Where the ranges are equal or disjoint, each chunk reads what the source held before the run, and the run leaves each chunk's
output at its destination. -/
theorem ChunkTrace.result (h : ChunkTrace f src dst len n 0 bufs chain) (hf : KeepsLength f len) (hn : n ≤ chunkCount len)
    (hc : src = dst ∨ src + len ≤ dst ∨ dst + len ≤ src) {k : Nat} (hk : k < n) :
    ∃ d, memRead (bufs 0) (src + 16 * k) (min 16 (len - 16 * k)) = .ok d ∧ d.length = min 16 (len - 16 * k) ∧
      chain (k + 1) = (f k (chain k) d).2 ∧
      memRead (bufs n) (dst + 16 * k) (min 16 (len - 16 * k)) = .ok (f k (chain k) d).1 := by
  obtain ⟨d, hd, hdl, hl, hch, hb⟩ := h.step hf hn hk
  have hlen : 16 * k < len := by unfold chunkCount at hn; omega
  refine ⟨d, ?_, hdl, hch, memRead_ok_iff.mpr ⟨hl, fun b hbk => ?_⟩⟩
  · rw [← hd]
    exact memRead_congr fun b hb => (h.frame hf hn (k := k) (by omega) (by omega)).symm
  · rw [h.written hf hn (j := n) hk le_rfl hbk, hb, byteAt_memWrite, if_pos (by omega)]
    congr 1; omega

end Trace

/-! ### The edit loop -/

/-- A run of `n` bytes of a CTR edit from byte `j`: the buffer before and after each byte. -/
def EditTrace (s : State) (n j : Nat) (bufs : Nat → Memory) : Prop :=
  ∀ k, k < n → ∃ b, (bufs k).byteAt (s.src.toNat + (j + k)) = some b ∧
    bufs (k + 1) = (bufs k).setByte (s.dst.toNat + (s.offset.toNat + (j + k)))
      (b ^^^ blockByte (keystream s ((s.offset.toNat + (j + k)) / 16)) ((s.offset.toNat + (j + k)) % 16))

theorem editLoop_trace {s : State} {n j : Nat} {m r : Memory} (h : editLoop s n j m = .ok r) :
    ∃ bufs, bufs 0 = m ∧ EditTrace s n j bufs ∧ r = bufs n := by
  induction n generalizing j m with
  | zero =>
    simp only [editLoop, Except.ok.injEq] at h
    exact ⟨fun _ => m, rfl, fun k hk => absurd hk (by omega), h.symm⟩
  | succ n ih =>
    simp only [editLoop] at h
    split at h
    · cases h
    · rename_i b hb
      obtain ⟨bufs, h0, ht, hr⟩ := ih h
      refine ⟨consSeq m bufs, rfl, fun k hk => ?_, hr⟩
      cases k with
      | zero => exact ⟨b, memReadByte_ok_iff.mp hb, h0⟩
      | succ k =>
        have := ht k (by omega)
        rw [show j + 1 + k = j + (k + 1) by omega] at this
        exact this

theorem editLoop_completes {s : State} {n j : Nat} {m : Memory}
    (h : ∀ k, k < j + n → (m.byteAt (s.src.toNat + k)).isSome = true) : ∃ r, editLoop s n j m = .ok r := by
  induction n generalizing j m with
  | zero => exact ⟨_, rfl⟩
  | succ n ih =>
    obtain ⟨b, hb⟩ := Option.isSome_iff_exists.mp (h j (by omega))
    simp only [editLoop, memReadByte_ok_iff.mpr hb]
    exact ih fun k hk => byteAt_memWrite_isSome (h k (by omega))

theorem editLoop_error {s : State} {n j : Nat} {m : Memory} {e : Fault} (h : editLoop s n j m = .error e) :
    ∃ a, e = .uninitBufferRead a ∧ m.byteAt a = none ∧ s.src.toNat ≤ a ∧ a < s.src.toNat + (j + n) := by
  induction n generalizing j m with
  | zero => cases h
  | succ n ih =>
    simp only [editLoop] at h
    split at h
    · rename_i e' he
      cases h
      obtain ⟨hn, rfl⟩ := memReadByte_error_iff.mp he
      exact ⟨_, rfl, hn, by omega, by omega⟩
    · obtain ⟨a, rfl, hn, ha⟩ := ih h
      exact ⟨a, rfl, byteAt_memWrite_none hn, by omega, by omega⟩

/-- Where the new plaintext and the edited bytes are equal or disjoint, the edit loop stops at the first uninitialised byte of the new
plaintext it has left. -/
theorem editLoop_firstError {s : State} {n j : Nat} {m : Memory} {len : Nat}
    (hc : s.src.toNat = s.dst.toNat + s.offset.toNat ∨ s.src.toNat + len ≤ s.dst.toNat + s.offset.toNat ∨
      s.dst.toNat + s.offset.toNat + len ≤ s.src.toNat)
    {k : Nat} (hlo : j ≤ k) (hhi : k < j + n) (hk : j + n ≤ len)
    (hinit : ∀ b, j ≤ b → b < k → (m.byteAt (s.src.toNat + b)).isSome = true) (hnone : m.byteAt (s.src.toNat + k) = none) :
    editLoop s n j m = .error (.uninitBufferRead (s.src.toNat + k)) := by
  induction n generalizing j m with
  | zero => omega
  | succ n ih =>
    simp only [editLoop]
    rcases Nat.lt_or_ge j k with hlt | hge
    · obtain ⟨b, hb⟩ := Option.isSome_iff_exists.mp (hinit j le_rfl hlt)
      rw [memReadByte_ok_iff.mpr hb]
      refine ih (by omega) (by omega) (by omega)
        (fun b hb1 hb2 => byteAt_memWrite_isSome (hinit b (by omega) hb2)) ?_
      rw [byteAt_memWrite, if_neg (by simp only [List.length_singleton]; omega), hnone]
    · obtain rfl : j = k := by omega
      rw [memReadByte_error_iff.mpr ⟨hnone, rfl⟩]

section Edit

variable {s : State} {n : Nat} {bufs : Nat → Memory}

/-- After `k` bytes only the first `k` edited bytes may differ. -/
theorem EditTrace.frame (h : EditTrace s n 0 bufs) {k : Nat} (hk : k ≤ n) {a : Nat}
    (ha : ¬(s.dst.toNat + s.offset.toNat ≤ a ∧ a < s.dst.toNat + s.offset.toNat + k)) :
    (bufs k).byteAt a = (bufs 0).byteAt a := by
  induction k with
  | zero => rfl
  | succ k ih =>
    obtain ⟨b, -, hb⟩ := h k (by omega)
    rw [hb, byteAt_setByte, if_neg (by omega), ih (by omega) (by omega)]

/-- Where the new plaintext is not overwritten before it is read, each edited byte is the new byte plus its keystream byte. -/
theorem EditTrace.result (h : EditTrace s n 0 bufs)
    (hc : s.src.toNat + n ≤ s.dst.toNat + s.offset.toNat ∨ s.dst.toNat + s.offset.toNat + n ≤ s.src.toNat ∨
      s.src.toNat = s.dst.toNat + s.offset.toNat) {k j : Nat} (hk : k < j) (hj : j ≤ n) :
    (bufs j).byteAt (s.dst.toNat + s.offset.toNat + k) = ((bufs 0).byteAt (s.src.toNat + k)).map
      (· ^^^ blockByte (keystream s ((s.offset.toNat + k) / 16)) ((s.offset.toNat + k) % 16)) := by
  induction j with
  | zero => omega
  | succ j ih =>
    obtain ⟨b, hb, hbuf⟩ := h j (by omega)
    rw [Nat.zero_add] at hb hbuf
    rw [hbuf, byteAt_setByte]
    rcases Nat.lt_or_ge k j with hlt | hge
    · rw [if_neg (by omega), ih hlt (by omega)]
    · obtain rfl : j = k := by omega
      rw [h.frame (k := j) (by omega) (by omega)] at hb
      rw [if_pos (by omega), hb]; rfl

theorem EditTrace.wf (h : EditTrace s n 0 bufs) (h0 : (bufs 0).wf) {k : Nat} (hk : k ≤ n) : (bufs k).wf := by
  induction k with
  | zero => exact h0
  | succ k ih =>
    obtain ⟨b, -, hb⟩ := h k (by omega)
    rw [hb]; exact wf_setByte (ih (by omega)) _ _

theorem EditTrace.bound (h : EditTrace s n 0 bufs) {B : Nat} (hB : s.dst.toNat + s.offset.toNat + n ≤ B)
    (h0 : ∀ c ∈ bufs 0, c.1 < B) {k : Nat} (hk : k ≤ n) : ∀ c ∈ bufs k, c.1 < B := by
  induction k with
  | zero => exact h0
  | succ k ih =>
    obtain ⟨b, -, hb⟩ := h k (by omega)
    intro c hc
    rw [hb] at hc
    rcases mem_setByte hc with rfl | hc
    · show _ < B; omega
    · exact ih (by omega) c hc

end Edit

end Sys2Proof.Machine
end

