-- ==== Sys2Proof/Laws/Cipher.lean ====
section
/-! SUPPORT. Small facts about the cipher's functions: multiplication is linear in each operand, and the byte orders of registers
and blocks can be undone. -/

namespace Sys2Proof.Machine

/-! ### Linearity -/

/-- The closed form of rule R121: shift, and add 1B where bit 7 was set. -/
theorem xtime_eq (a : Byte) : xtime a = (a <<< 1) ^^^ (if a.getLsbD 7 then 0x1B else 0) := by
  revert a; decide +kernel

theorem xtime_xor (a b : Byte) : xtime (a ^^^ b) = xtime a ^^^ xtime b := by
  simp only [xtime_eq, BitVec.shiftLeft_xor_distrib, BitVec.getLsbD_xor]
  cases a.getLsbD 7 <;> cases b.getLsbD 7 <;> simp [BitVec.xor_assoc, BitVec.xor_comm (b <<< 1)]

@[simp] theorem xtime_zero : xtime 0 = 0 := by decide

/-- `xtime` applied `n` times. -/
def xtimes : Nat → Byte → Byte
  | 0, a => a
  | n + 1, a => xtimes n (xtime a)

theorem xtimes_xor (n : Nat) (a b : Byte) : xtimes n (a ^^^ b) = xtimes n a ^^^ xtimes n b := by
  induction n generalizing a b with
  | zero => rfl
  | succ n ih => simp only [xtimes, xtime_xor, ih]

/-- The contribution of bit `i` of `b` to the product. -/
def gterm (a b : Byte) (i : Nat) : Byte := if b.getLsbD i then xtimes i a else 0

/-- Rule R122's loop as a sum over the bits of `b`. -/
theorem gmul_eq_sum (a b : Byte) : gmul a b =
    gterm a b 0 ^^^ gterm a b 1 ^^^ gterm a b 2 ^^^ gterm a b 3 ^^^ gterm a b 4 ^^^ gterm a b 5 ^^^ gterm a b 6 ^^^
      gterm a b 7 := by
  have h : ∀ (c : Bool) (r p : Byte), (if c then r ^^^ p else r) = r ^^^ (if c then p else 0) := by
    intro c r p; cases c <;> simp
  have hz : ∀ x : Byte, (0 : Byte) ^^^ x = x := fun _ => BitVec.zero_xor
  simp only [gmul, List.range, List.range.loop, List.foldl, gmulStep, h, gterm, xtimes, hz]

theorem gterm_xor_left (a b c : Byte) (i : Nat) : gterm (a ^^^ b) c i = gterm a c i ^^^ gterm b c i := by
  unfold gterm; split <;> simp [xtimes_xor]

theorem gterm_xor_right (a b c : Byte) (i : Nat) : gterm a (b ^^^ c) i = gterm a b i ^^^ gterm a c i := by
  unfold gterm; rw [BitVec.getLsbD_xor]
  cases b.getLsbD i <;> cases c.getLsbD i <;> simp

theorem gmul_xor_left (a b c : Byte) : gmul (a ^^^ b) c = gmul a c ^^^ gmul b c := by
  simp only [gmul_eq_sum, gterm_xor_left]; ac_rfl

theorem gmul_xor_right (a b c : Byte) : gmul a (b ^^^ c) = gmul a b ^^^ gmul a c := by
  simp only [gmul_eq_sum, gterm_xor_right]; ac_rfl

/-! ### Byte order -/

@[simp] theorem wordCol_colWord (c : Col) : wordCol (colWord c) = c := by
  obtain ⟨b0, b1, b2, b3⟩ := c
  simp only [wordCol, colWord, Col.mk.injEq]
  refine ⟨?_, ?_, ?_, ?_⟩ <;>
  · ext i hi
    simp only [BitVec.getElem_extractLsb', BitVec.getLsbD_append]
    interval_cases i <;> rfl

@[simp] theorem groupBlock_blockGroup (b : Block) : groupBlock (blockGroup b) = b := by
  simp [groupBlock, blockGroup]

@[simp] theorem length_blockBytes (b : Block) : (blockBytes b).length = 16 := rfl

@[simp] theorem blockOfBytes_blockBytes (b : Block) : blockOfBytes (blockBytes b) = b := rfl

/-- Sixteen bytes are the bytes of the block they make. -/
theorem blockBytes_blockOfBytes {bs : List Byte} (h : bs.length = 16) : blockBytes (blockOfBytes bs) = bs := by
  match bs, h with
  | [_, _, _, _, _, _, _, _, _, _, _, _, _, _, _, _], _ => rfl

theorem getElem?_blockBytes (b : Block) {k : Nat} (hk : k < 16) : (blockBytes b)[k]? = some (blockByte b k) := by
  unfold blockByte
  rw [List.getD_eq_getElem?_getD, List.getElem?_eq_getElem (by simpa using hk)]; rfl

theorem length_xorBytes (a b : List Byte) : (xorBytes a b).length = min a.length b.length := List.length_zipWith

@[simp] theorem length_leBytes (n v : Nat) : (leBytes n v).length = n := by simp [leBytes]

@[simp] theorem length_groupBytes {m : Nat} (v : Vector Word m) (n : Nat) : (groupBytes v n).length = n := by simp [groupBytes]

/-! ### Exclusive-or of blocks -/

theorem col_xor_xor (a b : Col) : (a.xor b).xor b = a := by
  cases a; cases b; simp [Col.xor]

theorem block_xor_xor (a b : Block) : (a.xor b).xor b = a := by
  cases a; cases b; simp [Block.xor, col_xor_xor]

end Sys2Proof.Machine
end

