-- ==== Sys2Proof/Laws/State.lean ====
section
/-! SUPPORT. The fields of a state after each named update: one lemma per field per update, so that no proof unfolds a record
update. -/

namespace Sys2Proof.Machine

/-! ### reportSuccess -/

@[simp] theorem reportSuccess_cfg (s : State) : (reportSuccess s).cfg = s.cfg := rfl
@[simp] theorem reportSuccess_live (s : State) : (reportSuccess s).live = s.live := rfl
@[simp] theorem reportSuccess_seq (s : State) : (reportSuccess s).seq = .idle := rfl
@[simp] theorem reportSuccess_pending (s : State) : (reportSuccess s).pending = s.pending := rfl
@[simp] theorem reportSuccess_done (s : State) : (reportSuccess s).done = true := rfl
@[simp] theorem reportSuccess_err (s : State) : (reportSuccess s).err = s.err := rfl
@[simp] theorem reportSuccess_ovr (s : State) : (reportSuccess s).ovr = s.ovr := rfl
@[simp] theorem reportSuccess_errCode (s : State) : (reportSuccess s).errCode = .noError := rfl
@[simp] theorem reportSuccess_lastOp (s : State) : (reportSuccess s).lastOp = s.lastOp := rfl
@[simp] theorem reportSuccess_ie (s : State) : (reportSuccess s).ie = s.ie := rfl
@[simp] theorem reportSuccess_keyLen (s : State) : (reportSuccess s).keyLen = s.keyLen := rfl
@[simp] theorem reportSuccess_key (s : State) : (reportSuccess s).key = s.key := rfl
@[simp] theorem reportSuccess_ivLen (s : State) : (reportSuccess s).ivLen = s.ivLen := rfl
@[simp] theorem reportSuccess_iv (s : State) : (reportSuccess s).iv = s.iv := rfl
@[simp] theorem reportSuccess_nonceLo (s : State) : (reportSuccess s).nonceLo = s.nonceLo := rfl
@[simp] theorem reportSuccess_nonceHi (s : State) : (reportSuccess s).nonceHi = s.nonceHi := rfl
@[simp] theorem reportSuccess_src (s : State) : (reportSuccess s).src = s.src := rfl
@[simp] theorem reportSuccess_dst (s : State) : (reportSuccess s).dst = s.dst := rfl
@[simp] theorem reportSuccess_len (s : State) : (reportSuccess s).len = s.len := rfl
@[simp] theorem reportSuccess_offset (s : State) : (reportSuccess s).offset = s.offset := rfl
@[simp] theorem reportSuccess_eLen (s : State) : (reportSuccess s).eLen = s.eLen := rfl
@[simp] theorem reportSuccess_blkIn (s : State) : (reportSuccess s).blkIn = s.blkIn := rfl
@[simp] theorem reportSuccess_blkOut (s : State) : (reportSuccess s).blkOut = s.blkOut := rfl
@[simp] theorem reportSuccess_chain (s : State) : (reportSuccess s).chain = s.chain := rfl
@[simp] theorem reportSuccess_rkSel (s : State) : (reportSuccess s).rkSel = s.rkSel := rfl
@[simp] theorem reportSuccess_gfA (s : State) : (reportSuccess s).gfA = s.gfA := rfl
@[simp] theorem reportSuccess_gfB (s : State) : (reportSuccess s).gfB = s.gfB := rfl
@[simp] theorem reportSuccess_gfR (s : State) : (reportSuccess s).gfR = s.gfR := rfl
@[simp] theorem reportSuccess_ksValid (s : State) : (reportSuccess s).ksValid = s.ksValid := rfl
@[simp] theorem reportSuccess_nr (s : State) : (reportSuccess s).nr = s.nr := rfl
@[simp] theorem reportSuccess_rk (s : State) : (reportSuccess s).rk = s.rk := rfl
@[simp] theorem reportSuccess_mem (s : State) : (reportSuccess s).mem = s.mem := rfl
@[simp] theorem reportSuccess_inputs (s : State) : (reportSuccess s).inputs = s.inputs := rfl
@[simp] theorem reportSuccess_resp (s : State) : (reportSuccess s).resp = s.resp := rfl

/-! ### reportError -/

@[simp] theorem reportError_cfg (c : ErrCode) (s : State) : (reportError c s).cfg = s.cfg := rfl
@[simp] theorem reportError_live (c : ErrCode) (s : State) : (reportError c s).live = s.live := rfl
@[simp] theorem reportError_seq (c : ErrCode) (s : State) : (reportError c s).seq = .idle := rfl
@[simp] theorem reportError_pending (c : ErrCode) (s : State) : (reportError c s).pending = s.pending := rfl
@[simp] theorem reportError_done (c : ErrCode) (s : State) : (reportError c s).done = true := rfl
@[simp] theorem reportError_err (c : ErrCode) (s : State) : (reportError c s).err = true := rfl
@[simp] theorem reportError_ovr (c : ErrCode) (s : State) : (reportError c s).ovr = s.ovr := rfl
@[simp] theorem reportError_errCode (c : ErrCode) (s : State) : (reportError c s).errCode = c := rfl
@[simp] theorem reportError_lastOp (c : ErrCode) (s : State) : (reportError c s).lastOp = s.lastOp := rfl
@[simp] theorem reportError_ie (c : ErrCode) (s : State) : (reportError c s).ie = s.ie := rfl
@[simp] theorem reportError_keyLen (c : ErrCode) (s : State) : (reportError c s).keyLen = s.keyLen := rfl
@[simp] theorem reportError_key (c : ErrCode) (s : State) : (reportError c s).key = s.key := rfl
@[simp] theorem reportError_ivLen (c : ErrCode) (s : State) : (reportError c s).ivLen = s.ivLen := rfl
@[simp] theorem reportError_iv (c : ErrCode) (s : State) : (reportError c s).iv = s.iv := rfl
@[simp] theorem reportError_nonceLo (c : ErrCode) (s : State) : (reportError c s).nonceLo = s.nonceLo := rfl
@[simp] theorem reportError_nonceHi (c : ErrCode) (s : State) : (reportError c s).nonceHi = s.nonceHi := rfl
@[simp] theorem reportError_src (c : ErrCode) (s : State) : (reportError c s).src = s.src := rfl
@[simp] theorem reportError_dst (c : ErrCode) (s : State) : (reportError c s).dst = s.dst := rfl
@[simp] theorem reportError_len (c : ErrCode) (s : State) : (reportError c s).len = s.len := rfl
@[simp] theorem reportError_offset (c : ErrCode) (s : State) : (reportError c s).offset = s.offset := rfl
@[simp] theorem reportError_eLen (c : ErrCode) (s : State) : (reportError c s).eLen = s.eLen := rfl
@[simp] theorem reportError_blkIn (c : ErrCode) (s : State) : (reportError c s).blkIn = s.blkIn := rfl
@[simp] theorem reportError_blkOut (c : ErrCode) (s : State) : (reportError c s).blkOut = s.blkOut := rfl
@[simp] theorem reportError_chain (c : ErrCode) (s : State) : (reportError c s).chain = s.chain := rfl
@[simp] theorem reportError_rkSel (c : ErrCode) (s : State) : (reportError c s).rkSel = s.rkSel := rfl
@[simp] theorem reportError_gfA (c : ErrCode) (s : State) : (reportError c s).gfA = s.gfA := rfl
@[simp] theorem reportError_gfB (c : ErrCode) (s : State) : (reportError c s).gfB = s.gfB := rfl
@[simp] theorem reportError_gfR (c : ErrCode) (s : State) : (reportError c s).gfR = s.gfR := rfl
@[simp] theorem reportError_ksValid (c : ErrCode) (s : State) : (reportError c s).ksValid = s.ksValid := rfl
@[simp] theorem reportError_nr (c : ErrCode) (s : State) : (reportError c s).nr = s.nr := rfl
@[simp] theorem reportError_rk (c : ErrCode) (s : State) : (reportError c s).rk = s.rk := rfl
@[simp] theorem reportError_mem (c : ErrCode) (s : State) : (reportError c s).mem = s.mem := rfl
@[simp] theorem reportError_inputs (c : ErrCode) (s : State) : (reportError c s).inputs = s.inputs := rfl
@[simp] theorem reportError_resp (c : ErrCode) (s : State) : (reportError c s).resp = s.resp := rfl

/-! ### dropWrite -/

@[simp] theorem dropWrite_cfg (s : State) : (dropWrite s).cfg = s.cfg := rfl
@[simp] theorem dropWrite_live (s : State) : (dropWrite s).live = s.live := rfl
@[simp] theorem dropWrite_seq (s : State) : (dropWrite s).seq = s.seq := rfl
@[simp] theorem dropWrite_pending (s : State) : (dropWrite s).pending = s.pending := rfl
@[simp] theorem dropWrite_done (s : State) : (dropWrite s).done = s.done := rfl
@[simp] theorem dropWrite_err (s : State) : (dropWrite s).err = s.err := rfl
@[simp] theorem dropWrite_ovr (s : State) : (dropWrite s).ovr = true := rfl
@[simp] theorem dropWrite_errCode (s : State) : (dropWrite s).errCode = s.errCode := rfl
@[simp] theorem dropWrite_lastOp (s : State) : (dropWrite s).lastOp = s.lastOp := rfl
@[simp] theorem dropWrite_ie (s : State) : (dropWrite s).ie = s.ie := rfl
@[simp] theorem dropWrite_keyLen (s : State) : (dropWrite s).keyLen = s.keyLen := rfl
@[simp] theorem dropWrite_key (s : State) : (dropWrite s).key = s.key := rfl
@[simp] theorem dropWrite_ivLen (s : State) : (dropWrite s).ivLen = s.ivLen := rfl
@[simp] theorem dropWrite_iv (s : State) : (dropWrite s).iv = s.iv := rfl
@[simp] theorem dropWrite_nonceLo (s : State) : (dropWrite s).nonceLo = s.nonceLo := rfl
@[simp] theorem dropWrite_nonceHi (s : State) : (dropWrite s).nonceHi = s.nonceHi := rfl
@[simp] theorem dropWrite_src (s : State) : (dropWrite s).src = s.src := rfl
@[simp] theorem dropWrite_dst (s : State) : (dropWrite s).dst = s.dst := rfl
@[simp] theorem dropWrite_len (s : State) : (dropWrite s).len = s.len := rfl
@[simp] theorem dropWrite_offset (s : State) : (dropWrite s).offset = s.offset := rfl
@[simp] theorem dropWrite_eLen (s : State) : (dropWrite s).eLen = s.eLen := rfl
@[simp] theorem dropWrite_blkIn (s : State) : (dropWrite s).blkIn = s.blkIn := rfl
@[simp] theorem dropWrite_blkOut (s : State) : (dropWrite s).blkOut = s.blkOut := rfl
@[simp] theorem dropWrite_chain (s : State) : (dropWrite s).chain = s.chain := rfl
@[simp] theorem dropWrite_rkSel (s : State) : (dropWrite s).rkSel = s.rkSel := rfl
@[simp] theorem dropWrite_gfA (s : State) : (dropWrite s).gfA = s.gfA := rfl
@[simp] theorem dropWrite_gfB (s : State) : (dropWrite s).gfB = s.gfB := rfl
@[simp] theorem dropWrite_gfR (s : State) : (dropWrite s).gfR = s.gfR := rfl
@[simp] theorem dropWrite_ksValid (s : State) : (dropWrite s).ksValid = s.ksValid := rfl
@[simp] theorem dropWrite_nr (s : State) : (dropWrite s).nr = s.nr := rfl
@[simp] theorem dropWrite_rk (s : State) : (dropWrite s).rk = s.rk := rfl
@[simp] theorem dropWrite_mem (s : State) : (dropWrite s).mem = s.mem := rfl
@[simp] theorem dropWrite_inputs (s : State) : (dropWrite s).inputs = s.inputs := rfl
@[simp] theorem dropWrite_resp (s : State) : (dropWrite s).resp = s.resp := rfl

/-! ### acceptCommand -/

@[simp] theorem acceptCommand_cfg (v : Word) (s : State) : (acceptCommand v s).cfg = s.cfg := rfl
@[simp] theorem acceptCommand_live (v : Word) (s : State) : (acceptCommand v s).live = s.live := rfl
@[simp] theorem acceptCommand_seq (v : Word) (s : State) : (acceptCommand v s).seq = .busy := rfl
@[simp] theorem acceptCommand_pending (v : Word) (s : State) : (acceptCommand v s).pending = v := rfl
@[simp] theorem acceptCommand_done (v : Word) (s : State) : (acceptCommand v s).done = false := rfl
@[simp] theorem acceptCommand_err (v : Word) (s : State) : (acceptCommand v s).err = false := rfl
@[simp] theorem acceptCommand_ovr (v : Word) (s : State) : (acceptCommand v s).ovr = s.ovr := rfl
@[simp] theorem acceptCommand_errCode (v : Word) (s : State) : (acceptCommand v s).errCode = .noError := rfl
@[simp] theorem acceptCommand_lastOp (v : Word) (s : State) : (acceptCommand v s).lastOp = v.extractLsb' 0 8 := rfl
@[simp] theorem acceptCommand_ie (v : Word) (s : State) : (acceptCommand v s).ie = s.ie := rfl
@[simp] theorem acceptCommand_keyLen (v : Word) (s : State) : (acceptCommand v s).keyLen = s.keyLen := rfl
@[simp] theorem acceptCommand_key (v : Word) (s : State) : (acceptCommand v s).key = s.key := rfl
@[simp] theorem acceptCommand_ivLen (v : Word) (s : State) : (acceptCommand v s).ivLen = s.ivLen := rfl
@[simp] theorem acceptCommand_iv (v : Word) (s : State) : (acceptCommand v s).iv = s.iv := rfl
@[simp] theorem acceptCommand_nonceLo (v : Word) (s : State) : (acceptCommand v s).nonceLo = s.nonceLo := rfl
@[simp] theorem acceptCommand_nonceHi (v : Word) (s : State) : (acceptCommand v s).nonceHi = s.nonceHi := rfl
@[simp] theorem acceptCommand_src (v : Word) (s : State) : (acceptCommand v s).src = s.src := rfl
@[simp] theorem acceptCommand_dst (v : Word) (s : State) : (acceptCommand v s).dst = s.dst := rfl
@[simp] theorem acceptCommand_len (v : Word) (s : State) : (acceptCommand v s).len = s.len := rfl
@[simp] theorem acceptCommand_offset (v : Word) (s : State) : (acceptCommand v s).offset = s.offset := rfl
@[simp] theorem acceptCommand_eLen (v : Word) (s : State) : (acceptCommand v s).eLen = s.eLen := rfl
@[simp] theorem acceptCommand_blkIn (v : Word) (s : State) : (acceptCommand v s).blkIn = s.blkIn := rfl
@[simp] theorem acceptCommand_blkOut (v : Word) (s : State) : (acceptCommand v s).blkOut = s.blkOut := rfl
@[simp] theorem acceptCommand_chain (v : Word) (s : State) : (acceptCommand v s).chain = s.chain := rfl
@[simp] theorem acceptCommand_rkSel (v : Word) (s : State) : (acceptCommand v s).rkSel = s.rkSel := rfl
@[simp] theorem acceptCommand_gfA (v : Word) (s : State) : (acceptCommand v s).gfA = s.gfA := rfl
@[simp] theorem acceptCommand_gfB (v : Word) (s : State) : (acceptCommand v s).gfB = s.gfB := rfl
@[simp] theorem acceptCommand_gfR (v : Word) (s : State) : (acceptCommand v s).gfR = s.gfR := rfl
@[simp] theorem acceptCommand_ksValid (v : Word) (s : State) : (acceptCommand v s).ksValid = s.ksValid := rfl
@[simp] theorem acceptCommand_nr (v : Word) (s : State) : (acceptCommand v s).nr = s.nr := rfl
@[simp] theorem acceptCommand_rk (v : Word) (s : State) : (acceptCommand v s).rk = s.rk := rfl
@[simp] theorem acceptCommand_mem (v : Word) (s : State) : (acceptCommand v s).mem = s.mem := rfl
@[simp] theorem acceptCommand_inputs (v : Word) (s : State) : (acceptCommand v s).inputs = s.inputs := rfl
@[simp] theorem acceptCommand_resp (v : Word) (s : State) : (acceptCommand v s).resp = s.resp := rfl

/-! ### writeStatus -/

@[simp] theorem writeStatus_cfg (v : Word) (s : State) : (writeStatus v s).cfg = s.cfg := rfl
@[simp] theorem writeStatus_live (v : Word) (s : State) : (writeStatus v s).live = s.live := rfl
@[simp] theorem writeStatus_seq (v : Word) (s : State) : (writeStatus v s).seq = s.seq := rfl
@[simp] theorem writeStatus_pending (v : Word) (s : State) : (writeStatus v s).pending = s.pending := rfl
@[simp] theorem writeStatus_done (v : Word) (s : State) : (writeStatus v s).done = (s.done && !v.getLsbD 1) := rfl
@[simp] theorem writeStatus_err (v : Word) (s : State) : (writeStatus v s).err = (s.err && !v.getLsbD 2) := rfl
@[simp] theorem writeStatus_ovr (v : Word) (s : State) : (writeStatus v s).ovr = (s.ovr && !v.getLsbD 3) := rfl
@[simp] theorem writeStatus_errCode (v : Word) (s : State) : (writeStatus v s).errCode = (if v.getLsbD 2 then .noError else s.errCode) := rfl
@[simp] theorem writeStatus_lastOp (v : Word) (s : State) : (writeStatus v s).lastOp = s.lastOp := rfl
@[simp] theorem writeStatus_ie (v : Word) (s : State) : (writeStatus v s).ie = s.ie := rfl
@[simp] theorem writeStatus_keyLen (v : Word) (s : State) : (writeStatus v s).keyLen = s.keyLen := rfl
@[simp] theorem writeStatus_key (v : Word) (s : State) : (writeStatus v s).key = s.key := rfl
@[simp] theorem writeStatus_ivLen (v : Word) (s : State) : (writeStatus v s).ivLen = s.ivLen := rfl
@[simp] theorem writeStatus_iv (v : Word) (s : State) : (writeStatus v s).iv = s.iv := rfl
@[simp] theorem writeStatus_nonceLo (v : Word) (s : State) : (writeStatus v s).nonceLo = s.nonceLo := rfl
@[simp] theorem writeStatus_nonceHi (v : Word) (s : State) : (writeStatus v s).nonceHi = s.nonceHi := rfl
@[simp] theorem writeStatus_src (v : Word) (s : State) : (writeStatus v s).src = s.src := rfl
@[simp] theorem writeStatus_dst (v : Word) (s : State) : (writeStatus v s).dst = s.dst := rfl
@[simp] theorem writeStatus_len (v : Word) (s : State) : (writeStatus v s).len = s.len := rfl
@[simp] theorem writeStatus_offset (v : Word) (s : State) : (writeStatus v s).offset = s.offset := rfl
@[simp] theorem writeStatus_eLen (v : Word) (s : State) : (writeStatus v s).eLen = s.eLen := rfl
@[simp] theorem writeStatus_blkIn (v : Word) (s : State) : (writeStatus v s).blkIn = s.blkIn := rfl
@[simp] theorem writeStatus_blkOut (v : Word) (s : State) : (writeStatus v s).blkOut = s.blkOut := rfl
@[simp] theorem writeStatus_chain (v : Word) (s : State) : (writeStatus v s).chain = s.chain := rfl
@[simp] theorem writeStatus_rkSel (v : Word) (s : State) : (writeStatus v s).rkSel = s.rkSel := rfl
@[simp] theorem writeStatus_gfA (v : Word) (s : State) : (writeStatus v s).gfA = s.gfA := rfl
@[simp] theorem writeStatus_gfB (v : Word) (s : State) : (writeStatus v s).gfB = s.gfB := rfl
@[simp] theorem writeStatus_gfR (v : Word) (s : State) : (writeStatus v s).gfR = s.gfR := rfl
@[simp] theorem writeStatus_ksValid (v : Word) (s : State) : (writeStatus v s).ksValid = s.ksValid := rfl
@[simp] theorem writeStatus_nr (v : Word) (s : State) : (writeStatus v s).nr = s.nr := rfl
@[simp] theorem writeStatus_rk (v : Word) (s : State) : (writeStatus v s).rk = s.rk := rfl
@[simp] theorem writeStatus_mem (v : Word) (s : State) : (writeStatus v s).mem = s.mem := rfl
@[simp] theorem writeStatus_inputs (v : Word) (s : State) : (writeStatus v s).inputs = s.inputs := rfl
@[simp] theorem writeStatus_resp (v : Word) (s : State) : (writeStatus v s).resp = s.resp := rfl

/-! ### invalidateSchedule -/

@[simp] theorem invalidateSchedule_cfg (s : State) : (invalidateSchedule s).cfg = s.cfg := rfl
@[simp] theorem invalidateSchedule_live (s : State) : (invalidateSchedule s).live = s.live := rfl
@[simp] theorem invalidateSchedule_seq (s : State) : (invalidateSchedule s).seq = s.seq := rfl
@[simp] theorem invalidateSchedule_pending (s : State) : (invalidateSchedule s).pending = s.pending := rfl
@[simp] theorem invalidateSchedule_done (s : State) : (invalidateSchedule s).done = s.done := rfl
@[simp] theorem invalidateSchedule_err (s : State) : (invalidateSchedule s).err = s.err := rfl
@[simp] theorem invalidateSchedule_ovr (s : State) : (invalidateSchedule s).ovr = s.ovr := rfl
@[simp] theorem invalidateSchedule_errCode (s : State) : (invalidateSchedule s).errCode = s.errCode := rfl
@[simp] theorem invalidateSchedule_lastOp (s : State) : (invalidateSchedule s).lastOp = s.lastOp := rfl
@[simp] theorem invalidateSchedule_ie (s : State) : (invalidateSchedule s).ie = s.ie := rfl
@[simp] theorem invalidateSchedule_keyLen (s : State) : (invalidateSchedule s).keyLen = s.keyLen := rfl
@[simp] theorem invalidateSchedule_key (s : State) : (invalidateSchedule s).key = s.key := rfl
@[simp] theorem invalidateSchedule_ivLen (s : State) : (invalidateSchedule s).ivLen = s.ivLen := rfl
@[simp] theorem invalidateSchedule_iv (s : State) : (invalidateSchedule s).iv = s.iv := rfl
@[simp] theorem invalidateSchedule_nonceLo (s : State) : (invalidateSchedule s).nonceLo = s.nonceLo := rfl
@[simp] theorem invalidateSchedule_nonceHi (s : State) : (invalidateSchedule s).nonceHi = s.nonceHi := rfl
@[simp] theorem invalidateSchedule_src (s : State) : (invalidateSchedule s).src = s.src := rfl
@[simp] theorem invalidateSchedule_dst (s : State) : (invalidateSchedule s).dst = s.dst := rfl
@[simp] theorem invalidateSchedule_len (s : State) : (invalidateSchedule s).len = s.len := rfl
@[simp] theorem invalidateSchedule_offset (s : State) : (invalidateSchedule s).offset = s.offset := rfl
@[simp] theorem invalidateSchedule_eLen (s : State) : (invalidateSchedule s).eLen = s.eLen := rfl
@[simp] theorem invalidateSchedule_blkIn (s : State) : (invalidateSchedule s).blkIn = s.blkIn := rfl
@[simp] theorem invalidateSchedule_blkOut (s : State) : (invalidateSchedule s).blkOut = s.blkOut := rfl
@[simp] theorem invalidateSchedule_chain (s : State) : (invalidateSchedule s).chain = s.chain := rfl
@[simp] theorem invalidateSchedule_rkSel (s : State) : (invalidateSchedule s).rkSel = s.rkSel := rfl
@[simp] theorem invalidateSchedule_gfA (s : State) : (invalidateSchedule s).gfA = s.gfA := rfl
@[simp] theorem invalidateSchedule_gfB (s : State) : (invalidateSchedule s).gfB = s.gfB := rfl
@[simp] theorem invalidateSchedule_gfR (s : State) : (invalidateSchedule s).gfR = s.gfR := rfl
@[simp] theorem invalidateSchedule_ksValid (s : State) : (invalidateSchedule s).ksValid = false := rfl
@[simp] theorem invalidateSchedule_nr (s : State) : (invalidateSchedule s).nr = .r0 := rfl
@[simp] theorem invalidateSchedule_rk (s : State) : (invalidateSchedule s).rk = Vector.replicate 15 Block.zero := rfl
@[simp] theorem invalidateSchedule_mem (s : State) : (invalidateSchedule s).mem = s.mem := rfl
@[simp] theorem invalidateSchedule_inputs (s : State) : (invalidateSchedule s).inputs = s.inputs := rfl
@[simp] theorem invalidateSchedule_resp (s : State) : (invalidateSchedule s).resp = s.resp := rfl

/-! ### respond -/

@[simp] theorem respond_cfg (r : Resp) (s : State) : (respond r s).cfg = s.cfg := rfl
@[simp] theorem respond_live (r : Resp) (s : State) : (respond r s).live = s.live := rfl
@[simp] theorem respond_seq (r : Resp) (s : State) : (respond r s).seq = s.seq := rfl
@[simp] theorem respond_pending (r : Resp) (s : State) : (respond r s).pending = s.pending := rfl
@[simp] theorem respond_done (r : Resp) (s : State) : (respond r s).done = s.done := rfl
@[simp] theorem respond_err (r : Resp) (s : State) : (respond r s).err = s.err := rfl
@[simp] theorem respond_ovr (r : Resp) (s : State) : (respond r s).ovr = s.ovr := rfl
@[simp] theorem respond_errCode (r : Resp) (s : State) : (respond r s).errCode = s.errCode := rfl
@[simp] theorem respond_lastOp (r : Resp) (s : State) : (respond r s).lastOp = s.lastOp := rfl
@[simp] theorem respond_ie (r : Resp) (s : State) : (respond r s).ie = s.ie := rfl
@[simp] theorem respond_keyLen (r : Resp) (s : State) : (respond r s).keyLen = s.keyLen := rfl
@[simp] theorem respond_key (r : Resp) (s : State) : (respond r s).key = s.key := rfl
@[simp] theorem respond_ivLen (r : Resp) (s : State) : (respond r s).ivLen = s.ivLen := rfl
@[simp] theorem respond_iv (r : Resp) (s : State) : (respond r s).iv = s.iv := rfl
@[simp] theorem respond_nonceLo (r : Resp) (s : State) : (respond r s).nonceLo = s.nonceLo := rfl
@[simp] theorem respond_nonceHi (r : Resp) (s : State) : (respond r s).nonceHi = s.nonceHi := rfl
@[simp] theorem respond_src (r : Resp) (s : State) : (respond r s).src = s.src := rfl
@[simp] theorem respond_dst (r : Resp) (s : State) : (respond r s).dst = s.dst := rfl
@[simp] theorem respond_len (r : Resp) (s : State) : (respond r s).len = s.len := rfl
@[simp] theorem respond_offset (r : Resp) (s : State) : (respond r s).offset = s.offset := rfl
@[simp] theorem respond_eLen (r : Resp) (s : State) : (respond r s).eLen = s.eLen := rfl
@[simp] theorem respond_blkIn (r : Resp) (s : State) : (respond r s).blkIn = s.blkIn := rfl
@[simp] theorem respond_blkOut (r : Resp) (s : State) : (respond r s).blkOut = s.blkOut := rfl
@[simp] theorem respond_chain (r : Resp) (s : State) : (respond r s).chain = s.chain := rfl
@[simp] theorem respond_rkSel (r : Resp) (s : State) : (respond r s).rkSel = s.rkSel := rfl
@[simp] theorem respond_gfA (r : Resp) (s : State) : (respond r s).gfA = s.gfA := rfl
@[simp] theorem respond_gfB (r : Resp) (s : State) : (respond r s).gfB = s.gfB := rfl
@[simp] theorem respond_gfR (r : Resp) (s : State) : (respond r s).gfR = s.gfR := rfl
@[simp] theorem respond_ksValid (r : Resp) (s : State) : (respond r s).ksValid = s.ksValid := rfl
@[simp] theorem respond_nr (r : Resp) (s : State) : (respond r s).nr = s.nr := rfl
@[simp] theorem respond_rk (r : Resp) (s : State) : (respond r s).rk = s.rk := rfl
@[simp] theorem respond_mem (r : Resp) (s : State) : (respond r s).mem = s.mem := rfl
@[simp] theorem respond_inputs (r : Resp) (s : State) : (respond r s).inputs = s.inputs := rfl
@[simp] theorem respond_resp (r : Resp) (s : State) : (respond r s).resp = some r := rfl

/-! ### Reset values of the fields the claims name -/

@[simp] theorem resetWith_cfg (c : Config) : (State.resetWith c).cfg = c := rfl
@[simp] theorem resetWith_mem (c : Config) : (State.resetWith c).mem = [] := rfl
@[simp] theorem resetWith_seq (c : Config) : (State.resetWith c).seq = .idle := rfl
@[simp] theorem resetWith_rk (c : Config) : (State.resetWith c).rk = Vector.replicate 15 Block.zero := rfl

end Sys2Proof.Machine
end

