-- ==== Sys2Proof/Laws/Commands.lean ====
section
/-! SUPPORT. What a command can do: every command is `runCommand` over its own writes, so one inversion lemma covers all of them;
then the checks of each family as plain conditions, and the writes of each family with their frame. -/

namespace Sys2Proof.Machine

/-! ### Every command is a check list and a write -/

/-- The writes of each command when its checks pass. -/
def writesOf (i : Instr) : State → Except Fault State :=
  match i with
  | .keyExpand => keyExpandWrites
  | .blockEnc => blockEncWrites
  | .blockDec => blockDecWrites
  | .ecbEnc => ecbEncWrites
  | .ecbDec => ecbDecWrites
  | .cbcEnc => cbcEncWrites
  | .cbcDec => cbcDecWrites
  | .ctrXform => ctrXformWrites
  | .ctrEdit => ctrEditWrites
  | .gfMul => probeWrites fun s => gmul s.gfA s.gfB
  | .gfInv => probeWrites fun s => ginv s.gfA
  | .sboxFwd => probeWrites fun s => sbox s.gfA
  | .sboxInv => probeWrites fun s => invSbox s.gfA

theorem exec_eq_runCommand (i : Instr) (s : State) : exec i s = runCommand i (writesOf i) s := by
  cases i <;> rfl

theorem runCommand_error {i : Instr} {w : State → Except Fault State} {s : State} {c : ErrCode} (h : commandError i s = some c) :
    runCommand i w s = .next (completeError c s) := by
  simp only [runCommand, h]

theorem runCommand_ok {i : Instr} {w : State → Except Fault State} {s t : State} (h : commandError i s = none)
    (hw : w s = .ok t) : runCommand i w s = .next (reportSuccess t) := by
  simp only [runCommand, h, hw]

theorem exec_error {i : Instr} {s : State} {c : ErrCode} (h : commandError i s = some c) :
    exec i s = .next (completeError c s) := by
  rw [exec_eq_runCommand, runCommand_error h]

theorem exec_ok {i : Instr} {s t : State} (h : commandError i s = none) (hw : writesOf i s = .ok t) :
    exec i s = .next (reportSuccess t) := by
  rw [exec_eq_runCommand, runCommand_ok h hw]

theorem exec_fault {i : Instr} {s : State} {f : Fault} (h : commandError i s = none) (hw : writesOf i s = .error f) :
    exec i s = .fault f := by
  rw [exec_eq_runCommand]; simp only [runCommand, h, hw]

/-- A command that answers a next state either failed a check or made its writes. -/
theorem exec_next_cases {i : Instr} {s t : State} (h : exec i s = .next t) :
    (∃ c, commandError i s = some c ∧ t = completeError c s) ∨
      (commandError i s = none ∧ ∃ u, writesOf i s = .ok u ∧ t = reportSuccess u) := by
  rw [exec_eq_runCommand] at h
  unfold runCommand at h
  split at h
  · rename_i c hc; cases h; exact .inl ⟨c, hc, rfl⟩
  · rename_i hc
    split at h
    · rename_i u hu; cases h; exact .inr ⟨hc, u, hu, rfl⟩
    · cases h

/-- A command that faults has passed its checks and stopped in its writes. -/
theorem exec_fault_cases {i : Instr} {s : State} {f : Fault} (h : exec i s = .fault f) :
    commandError i s = none ∧ writesOf i s = .error f := by
  rw [exec_eq_runCommand] at h
  unfold runCommand at h
  split at h
  · cases h
  · rename_i hc
    split at h
    · cases h
    · rename_i e he; cases h; exact ⟨hc, he⟩

theorem exec_not_refused (i : Instr) (s : State) (r : Refusal) : exec i s ≠ .refused r := by
  rw [exec_eq_runCommand]
  unfold runCommand
  split
  · simp
  · split <;> simp

/-- An error a command reports is a named one. -/
theorem commandError_ne_noError {i : Instr} {s : State} {c : ErrCode} (h : commandError i s = some c) : c ≠ .noError := by
  rintro rfl
  cases i <;>
    simp only [commandError, commandChecks, checkKeyLen, checkSchedule, checkIvLen, checkBlockMultiple, checkEditBounds, checkRanges,
      checkEditRanges, failIf] at h <;>
    (repeat' split at h) <;> simp_all

/-- Only KEY_EXPAND reports INVALID_KEY_LENGTH. -/
theorem commandError_keyLength {i : Instr} {s : State} (h : commandError i s = some .invalidKeyLength) : i = .keyExpand := by
  cases i <;> first
  | rfl
  | (simp only [commandError, commandChecks, checkSchedule, checkIvLen, checkBlockMultiple, checkEditBounds, checkRanges,
      checkEditRanges, failIf] at h
     (repeat' split at h) <;> simp_all)

@[simp] theorem completeError_keyLength (s : State) :
    completeError .invalidKeyLength s = reportError .invalidKeyLength (invalidateSchedule s) := rfl

theorem completeError_eq_failed {c : ErrCode} (h : c ≠ .invalidKeyLength) (s : State) : completeError c s = failed c s := by
  cases c <;> first | rfl | contradiction

/-! ### The checks as conditions -/

theorem commandError_keyExpand (s : State) : commandError .keyExpand s =
    if (roundsOfKeyLength s.keyLen.toNat).isNone = true then some .invalidKeyLength else none := by
  simp only [commandError, commandChecks, checkKeyLen, failIf]
  split <;> rfl

theorem commandError_block {i : Instr} (hi : i ∈ [Instr.blockEnc, .blockDec]) (s : State) : commandError i s =
    if s.ksValid = false then some .noKeySchedule else none := by
  simp only [List.mem_cons, List.not_mem_nil, or_false] at hi
  rcases hi with rfl | rfl <;>
    (simp only [commandError, commandChecks, checkSchedule, failIf]; split <;> rfl)

theorem commandError_ecb {i : Instr} (hi : i ∈ [Instr.ecbEnc, .ecbDec]) (s : State) : commandError i s =
    if s.ksValid = false then some .noKeySchedule
    else if s.len.toNat % 16 ≠ 0 then some .lengthNotBlockMultiple
    else if s.src.toNat + s.len.toNat > s.cfg.bufBytes ∨ s.dst.toNat + s.len.toNat > s.cfg.bufBytes then some .bufferRange
    else none := by
  simp only [List.mem_cons, List.not_mem_nil, or_false] at hi
  rcases hi with rfl | rfl <;>
    (simp only [commandError, commandChecks, checkSchedule, checkBlockMultiple, checkRanges, failIf]
     repeat' split
     all_goals rfl)

theorem commandError_cbc {i : Instr} (hi : i ∈ [Instr.cbcEnc, .cbcDec]) (s : State) : commandError i s =
    if s.ksValid = false then some .noKeySchedule
    else if s.ivLen.toNat ≠ 16 then some .invalidIvLength
    else if s.len.toNat % 16 ≠ 0 then some .lengthNotBlockMultiple
    else if s.src.toNat + s.len.toNat > s.cfg.bufBytes ∨ s.dst.toNat + s.len.toNat > s.cfg.bufBytes then some .bufferRange
    else none := by
  simp only [List.mem_cons, List.not_mem_nil, or_false] at hi
  rcases hi with rfl | rfl <;>
    (simp only [commandError, commandChecks, checkSchedule, checkIvLen, checkBlockMultiple, checkRanges, failIf]
     repeat' split
     all_goals rfl)

theorem commandError_ctrXform (s : State) : commandError .ctrXform s =
    if s.ksValid = false then some .noKeySchedule
    else if s.src.toNat + s.len.toNat > s.cfg.bufBytes ∨ s.dst.toNat + s.len.toNat > s.cfg.bufBytes then some .bufferRange
    else none := by
  simp only [commandError, commandChecks, checkSchedule, checkRanges, failIf]
  repeat' split
  all_goals rfl

theorem commandError_ctrEdit (s : State) : commandError .ctrEdit s =
    if s.ksValid = false then some .noKeySchedule
    else if s.offset.toNat + s.eLen.toNat > s.len.toNat then some .outOfBounds
    else if s.dst.toNat + s.len.toNat > s.cfg.bufBytes ∨ s.src.toNat + s.eLen.toNat > s.cfg.bufBytes then some .bufferRange
    else none := by
  simp only [commandError, commandChecks, checkSchedule, checkEditBounds, checkEditRanges, failIf]
  repeat' split
  all_goals rfl

theorem commandError_probe {i : Instr} (hi : i ∈ [Instr.gfMul, .gfInv, .sboxFwd, .sboxInv]) (s : State) :
    commandError i s = none := by
  simp only [List.mem_cons, List.not_mem_nil, or_false] at hi
  rcases hi with rfl | rfl | rfl | rfl <;> rfl

/-! ### The writes of the mode commands -/

theorem keepsLength_ecb {f : Block → Block} {len : Nat} (h : len % 16 = 0) : KeepsLength (ecbChunk f) len := by
  intro i ch d hi hd
  show (blockBytes _).length = d.length
  rw [length_blockBytes, hd]; omega

theorem keepsLength_cbcEnc {s : State} {len : Nat} (h : len % 16 = 0) : KeepsLength (cbcEncChunk s) len := by
  intro i ch d hi hd
  show (blockBytes _).length = d.length
  rw [length_blockBytes, hd]; omega

theorem keepsLength_cbcDec {s : State} {len : Nat} (h : len % 16 = 0) : KeepsLength (cbcDecChunk s) len := by
  intro i ch d hi hd
  show (blockBytes _).length = d.length
  rw [length_blockBytes, hd]; omega

theorem keepsLength_ctr (s : State) (len : Nat) : KeepsLength (ctrChunk s) len := by
  intro i ch d hi hd
  show (xorBytes _ _).length = d.length
  rw [length_xorBytes, List.length_take, length_blockBytes, hd]; omega

/-- The writes of a command that leaves only the buffer changed: a run of the chunk loop over the source and destination. -/
theorem bufferWrites_ok {f : ChunkFn} {s u : State} (h : bufferWrites f s = .ok u) :
    ∃ bufs chain, bufs 0 = s.mem ∧ chain 0 = Block.zero ∧
      ChunkTrace f s.src.toNat s.dst.toNat s.len.toNat (chunkCount s.len.toNat) 0 bufs chain ∧
      u = { s with mem := bufs (chunkCount s.len.toNat) } := by
  unfold bufferWrites runChunks at h
  split at h
  · cases h
  · rename_i r hr
    obtain ⟨bufs, chain, hb, hc, ht, rfl⟩ := chunkLoop_trace hr
    cases h
    exact ⟨bufs, chain, hb, hc, ht, rfl⟩

/-- The writes of a CBC command: a run of the chunk loop, and CHAIN with the final chaining value. -/
theorem cbcWrites_ok {f : ChunkFn} {s u : State} (h : cbcWrites f s = .ok u) :
    ∃ bufs chain, bufs 0 = s.mem ∧ chain 0 = groupBlock s.iv ∧
      ChunkTrace f s.src.toNat s.dst.toNat s.len.toNat (chunkCount s.len.toNat) 0 bufs chain ∧
      u = { s with mem := bufs (chunkCount s.len.toNat), chain := blockGroup (chain (chunkCount s.len.toNat)) } := by
  unfold cbcWrites runChunks at h
  split at h
  · cases h
  · rename_i r hr
    obtain ⟨bufs, chain, hb, hc, ht, rfl⟩ := chunkLoop_trace hr
    cases h
    exact ⟨bufs, chain, hb, hc, ht, rfl⟩

theorem bufferWrites_completes {f : ChunkFn} {s : State} (h : Initialised s.mem s.src.toNat s.len.toNat) :
    ∃ u, bufferWrites f s = .ok u := by
  obtain ⟨r, hr⟩ := chunkLoop_completes (f := f) (dst := s.dst.toNat) (n := chunkCount s.len.toNat) (i := 0) (ch := Block.zero) h
  simp only [bufferWrites, runChunks, hr]; exact ⟨_, rfl⟩

theorem cbcWrites_completes {f : ChunkFn} {s : State} (h : Initialised s.mem s.src.toNat s.len.toNat) :
    ∃ u, cbcWrites f s = .ok u := by
  obtain ⟨r, hr⟩ := chunkLoop_completes (f := f) (dst := s.dst.toNat) (n := chunkCount s.len.toNat) (i := 0)
    (ch := groupBlock s.iv) h
  simp only [cbcWrites, runChunks, hr]; exact ⟨_, rfl⟩

theorem bufferWrites_error {f : ChunkFn} {s : State} {e : Fault} (h : bufferWrites f s = .error e) :
    ∃ a, e = .uninitBufferRead a ∧ s.mem.byteAt a = none ∧ s.src.toNat ≤ a ∧ a < s.src.toNat + s.len.toNat := by
  unfold bufferWrites runChunks at h
  split at h
  · rename_i e' he; cases h; exact chunkLoop_error he
  · cases h

theorem cbcWrites_error {f : ChunkFn} {s : State} {e : Fault} (h : cbcWrites f s = .error e) :
    ∃ a, e = .uninitBufferRead a ∧ s.mem.byteAt a = none ∧ s.src.toNat ≤ a ∧ a < s.src.toNat + s.len.toNat := by
  unfold cbcWrites runChunks at h
  split at h
  · rename_i e' he; cases h; exact chunkLoop_error he
  · cases h

/-- Where the ranges are equal or disjoint, all chunks of a mode command stop at the first uninitialised source byte. -/
theorem runChunks_firstError {f : ChunkFn} {ch : Block} {s : State} (hf : KeepsLength f s.len.toNat)
    (hc : NoClobber s.src.toNat s.dst.toNat s.len.toNat) {k : Nat} (hk : k < s.len.toNat)
    (hinit : Initialised s.mem s.src.toNat k) (hnone : s.mem.byteAt (s.src.toNat + k) = none) :
    runChunks f ch s = .error (.uninitBufferRead (s.src.toNat + k)) :=
  chunkLoop_firstError hf hc (by omega) (by unfold chunkCount; omega) hk (fun j _ hj => hinit j hj) hnone

/-- The writes of CTR_EDIT: a run of the edit loop. -/
theorem ctrEditWrites_ok {s u : State} (h : ctrEditWrites s = .ok u) :
    ∃ bufs, bufs 0 = s.mem ∧ EditTrace s s.eLen.toNat 0 bufs ∧ u = { s with mem := bufs s.eLen.toNat } := by
  unfold ctrEditWrites at h
  split at h
  · cases h
  · rename_i r hr
    obtain ⟨bufs, hb, ht, rfl⟩ := editLoop_trace hr
    cases h
    exact ⟨bufs, hb, ht, rfl⟩

theorem ctrEditWrites_completes {s : State} (h : Initialised s.mem s.src.toNat s.eLen.toNat) :
    ∃ u, ctrEditWrites s = .ok u := by
  obtain ⟨r, hr⟩ := editLoop_completes (s := s) (n := s.eLen.toNat) (j := 0) (m := s.mem) fun k hk => h k (by omega)
  simp only [ctrEditWrites, hr]; exact ⟨_, rfl⟩

theorem ctrEditWrites_error {s : State} {e : Fault} (h : ctrEditWrites s = .error e) :
    ∃ a, e = .uninitBufferRead a ∧ s.mem.byteAt a = none ∧ s.src.toNat ≤ a ∧ a < s.src.toNat + s.eLen.toNat := by
  unfold ctrEditWrites at h
  split at h
  · rename_i e' he
    cases h
    obtain ⟨a, h1, h2, h3, h4⟩ := editLoop_error he
    exact ⟨a, h1, h2, h3, by omega⟩
  · cases h

theorem ctrEditWrites_firstError {s : State} (hc : NoClobber s.src.toNat (s.dst.toNat + s.offset.toNat) s.eLen.toNat) {k : Nat}
    (hk : k < s.eLen.toNat) (hinit : Initialised s.mem s.src.toNat k) (hnone : s.mem.byteAt (s.src.toNat + k) = none) :
    ctrEditWrites s = .error (.uninitBufferRead (s.src.toNat + k)) := by
  simp only [ctrEditWrites, editLoop_firstError (n := s.eLen.toNat) (j := 0) (len := s.eLen.toNat) hc (by omega) (by omega) (by omega)
    (fun b _ hb => hinit b hb) hnone]

/-- What the writes of any command can change: the results named, and nothing else. -/
theorem writesOf_frame {i : Instr} {s u : State} (h : writesOf i s = .ok u) :
    u = { s with
      mem := u.mem, chain := u.chain, blkOut := u.blkOut, gfR := u.gfR, ksValid := u.ksValid, nr := u.nr, rk := u.rk } := by
  cases i
  case keyExpand => cases h; rfl
  case blockEnc => cases h; rfl
  case blockDec => cases h; rfl
  case ecbEnc => obtain ⟨_, _, _, _, _, rfl⟩ := bufferWrites_ok h; rfl
  case ecbDec => obtain ⟨_, _, _, _, _, rfl⟩ := bufferWrites_ok h; rfl
  case cbcEnc => obtain ⟨_, _, _, _, _, rfl⟩ := cbcWrites_ok h; rfl
  case cbcDec => obtain ⟨_, _, _, _, _, rfl⟩ := cbcWrites_ok h; rfl
  case ctrXform => obtain ⟨_, _, _, _, _, rfl⟩ := bufferWrites_ok h; rfl
  case ctrEdit => obtain ⟨_, _, _, rfl⟩ := ctrEditWrites_ok h; rfl
  case gfMul => cases h; rfl
  case gfInv => cases h; rfl
  case sboxFwd => cases h; rfl
  case sboxInv => cases h; rfl

/-- What any command that answers a next state leaves unchanged: all but its possible results, and the report it completes. -/
theorem exec_frame {i : Instr} {s t : State} (h : exec i s = .next t) :
    t = { s with
      mem := t.mem, chain := t.chain, blkOut := t.blkOut, gfR := t.gfR, ksValid := t.ksValid, nr := t.nr, rk := t.rk
      done := true, err := t.err, errCode := t.errCode, seq := .idle } := by
  rcases exec_next_cases h with ⟨c, -, rfl⟩ | ⟨-, u, hu, rfl⟩
  · cases c <;> rfl
  · rw [writesOf_frame hu]; rfl

/-- The report of any command that answers a next state. -/
theorem exec_report {i : Instr} {s t : State} (h : exec i s = .next t) :
    t.errCode = (commandError i s).getD .noError ∧ t.err = (if (commandError i s).isSome then true else s.err) := by
  rcases exec_next_cases h with ⟨c, hc, rfl⟩ | ⟨hc, u, hu, rfl⟩
  · rw [hc]; cases c <;> exact ⟨rfl, rfl⟩
  · rw [hc]; exact ⟨rfl, by rw [writesOf_frame hu]; rfl⟩

/-- The checks read no model field. -/
theorem commandError_inputs (i : Instr) (s : State) (q : List Event) :
    commandError i { s with inputs := q } = commandError i s := by
  cases i <;> rfl

/-- A block mode command that passes its checks has a LEN that is a multiple of 16. -/
theorem len_mod_of_commandError_none {i : Instr} {s : State} (hi : i ∈ [Instr.ecbEnc, .ecbDec, .cbcEnc, .cbcDec])
    (h : commandError i s = none) : s.len.toNat % 16 = 0 := by
  by_contra hn
  simp only [List.mem_cons, List.not_mem_nil, or_false] at hi
  have hi : i ∈ [Instr.ecbEnc, .ecbDec] ∨ i ∈ [Instr.cbcEnc, .cbcDec] := by simp; tauto
  rcases hi with hi | hi
  · rw [commandError_ecb hi] at h; split at h <;> cases h
  · rw [commandError_cbc hi] at h
    split at h
    · cases h
    · split at h <;> cases h

end Sys2Proof.Machine
end

