-- ==== Sys2Proof/Laws/Decode.lean ====
section
/-! SUPPORT. What the decoder answers, by the fields of the word; and that a word is its two fields. -/

namespace Sys2Proof

/-- A word is its reserved field and its opcode, put together. -/
theorem toWord_ofWord (w : Word) : CmdWord.toWord (CmdWord.ofWord w) = w := by
  apply BitVec.eq_of_getLsbD_eq
  intro k hk
  simp only [CmdWord.toWord, CmdWord.ofWord, BitVec.getLsbD_append, BitVec.getLsbD_extractLsb']
  split
  · simp [*]
  · rw [decide_eq_true (by omega), Bool.true_and]; congr 1; omega

theorem decode_ok_iff {w : Word} {i : Instr} :
    decode w = .ok i ↔ (CmdWord.ofWord w).rsv = 0 ∧ commandOfOp (CmdWord.ofWord w).op = some i := by
  unfold decode
  by_cases hr : (CmdWord.ofWord w).rsv = 0
  · rw [if_pos hr]
    cases commandOfOp (CmdWord.ofWord w).op <;> simp [hr]
  · rw [if_neg hr]; exact ⟨nofun, fun h => absurd h.1 hr⟩

theorem decode_reserved_iff {w : Word} : decode w = .error .reservedBitsSet ↔ (CmdWord.ofWord w).rsv ≠ 0 := by
  unfold decode
  by_cases hr : (CmdWord.ofWord w).rsv = 0
  · rw [if_pos hr]
    cases commandOfOp (CmdWord.ofWord w).op <;> simp [hr]
  · rw [if_neg hr]; exact ⟨fun _ => hr, fun _ => rfl⟩

theorem decode_unlisted_iff {w : Word} :
    decode w = .error .unlistedOpcode ↔ (CmdWord.ofWord w).rsv = 0 ∧ commandOfOp (CmdWord.ofWord w).op = none := by
  unfold decode
  by_cases hr : (CmdWord.ofWord w).rsv = 0
  · rw [if_pos hr]
    cases commandOfOp (CmdWord.ofWord w).op <;> simp [hr]
  · rw [if_neg hr]; exact ⟨nofun, fun h => absurd h.1 hr⟩

/-- Every opcode names at most one command, the one whose opcode it is. -/
theorem commandOfOp_some {b : Byte} {i : Instr} (h : commandOfOp b = some i) : b = opcode i := by
  revert h; revert b; cases i <;> decide +kernel

theorem commandOfOp_opcode (i : Instr) : commandOfOp (opcode i) = some i := by
  cases i <;> decide

end Sys2Proof
end

