-- ==== Sys2Proof/Laws/PerInstr.lean ====
section
/-! SUPPORT. One statement per command about its syntax: the word the encoder gives it is legal and stands for it. -/

namespace Sys2Proof.Laws.EncodesToItsRow

/-- The command's word has its reserved bits zero and its opcode in the low byte (rule R100), its fields are legal (rule R101), and it
decodes to the command (rule R102). -/
def Statement (i : Instr) : Prop :=
  (encode i).extractLsb' 8 24 = 0 ∧ (encode i).extractLsb' 0 8 = opcode i ∧ (CmdWord.ofWord (encode i)).wf = true ∧
    decode (encode i) = .ok i

theorem keyExpand : Statement .keyExpand := ⟨by decide, by decide, by decide, by decide⟩

theorem blockEnc : Statement .blockEnc := ⟨by decide, by decide, by decide, by decide⟩

theorem blockDec : Statement .blockDec := ⟨by decide, by decide, by decide, by decide⟩

theorem ecbEnc : Statement .ecbEnc := ⟨by decide, by decide, by decide, by decide⟩

theorem ecbDec : Statement .ecbDec := ⟨by decide, by decide, by decide, by decide⟩

theorem cbcEnc : Statement .cbcEnc := ⟨by decide, by decide, by decide, by decide⟩

theorem cbcDec : Statement .cbcDec := ⟨by decide, by decide, by decide, by decide⟩

theorem ctrXform : Statement .ctrXform := ⟨by decide, by decide, by decide, by decide⟩

theorem ctrEdit : Statement .ctrEdit := ⟨by decide, by decide, by decide, by decide⟩

theorem gfMul : Statement .gfMul := ⟨by decide, by decide, by decide, by decide⟩

theorem gfInv : Statement .gfInv := ⟨by decide, by decide, by decide, by decide⟩

theorem sboxFwd : Statement .sboxFwd := ⟨by decide, by decide, by decide, by decide⟩

theorem sboxInv : Statement .sboxInv := ⟨by decide, by decide, by decide, by decide⟩

end Sys2Proof.Laws.EncodesToItsRow
end

