-- ==== Sys2Proof/Laws/Registers.lean ====
section
/-! SUPPORT. A register write in the two states of the sequencer, and the map of offsets. -/

namespace Sys2Proof.Machine

theorem busy_eq_true {s : State} : s.busy = true ↔ s.seq = .busy := by simp [State.busy]

theorem writeReg_idle {s : State} (h : s.seq = .idle) (r : Reg) (v : Word) : writeReg r v s = storeReg r v s := by
  simp [writeReg, State.busy, h]

theorem writeReg_busy {s : State} (h : s.seq = .busy) {r : Reg} (hr : dropsWhileBusy r = true) (v : Word) :
    writeReg r v s = dropWrite s := by
  simp [writeReg, State.busy, h, hr]

theorem writeReg_kept {r : Reg} (hr : dropsWhileBusy r = false) (v : Word) (s : State) : writeReg r v s = storeReg r v s := by
  simp [writeReg, hr]

theorem mem_droppedRegs {r : Reg} : r ∈ droppedRegs ↔ dropsWhileBusy r = true := by
  revert r
  intro r
  cases r <;> simp [droppedRegs, dropsWhileBusy]

theorem regAt_regOffset (r : Reg) : regAt (regOffset r) = some r := by
  cases r
  case key j => revert j; decide
  case iv j => revert j; decide
  case blkIn j => revert j; decide
  case blkOut j => revert j; decide
  case chain j => revert j; decide
  case rkData j => revert j; decide
  all_goals rfl

theorem regOffset_lt (r : Reg) : regOffset r < 0xB8 := by
  cases r <;> simp only [regOffset] <;> omega

theorem regOffset_mod (r : Reg) : regOffset r % 4 = 0 := by
  cases r <;> simp only [regOffset] <;> omega

/-- The map of rule R21, read both ways. -/
theorem regAt_some {off : Nat} {r : Reg} (h : regAt off = some r) : off = regOffset r := by
  unfold regAt at h
  split at h <;> cases h <;> rfl

/-- STATUS bit by bit (rule R24). -/
theorem statusWord_bit (s : State) (k : Nat) : (statusWord s).getLsbD k =
    if k = 0 then s.busy else if k = 1 then s.done else if k = 2 then s.err else if k = 3 then s.ovr
    else if k = 4 then s.ksValid else if k < 8 then false else if k < 12 then s.errCode.code.getLsbD (k - 8)
    else if k < 16 then false else if k < 20 then (BitVec.ofNat 4 s.nr.toNat).getLsbD (k - 16)
    else if k < 24 then false else s.lastOp.getLsbD (k - 24) := by
  have hb : ∀ (b : Bool) (k : Nat), (BitVec.ofBool b).getLsbD k = (b && decide (k = 0)) := by
    intro b k; cases b <;> simp
  have hz : ∀ n k : Nat, (0#n).getLsbD k = false := fun _ _ => BitVec.getLsbD_zero
  rcases Nat.lt_or_ge k 32 with h | h
  · unfold statusWord
    simp only [BitVec.getLsbD_append, hb, hz]
    interval_cases k <;>
      simp only [Nat.reduceLT, Nat.reduceSub, if_true, if_false, decide_true, decide_false, Bool.and_true,
        Nat.reduceEqDiff, OfNat.ofNat_ne_zero, OfNat.ofNat_ne_one, Nat.lt_one_iff, one_ne_zero]
  · rw [BitVec.getLsbD_of_ge _ _ h]
    repeat (rw [if_neg (by omega)])
    rw [BitVec.getLsbD_of_ge _ _ (by omega)]

end Sys2Proof.Machine
end

