-- ==== Sys2Proof/Laws/Step.lean ====
section
/-! SUPPORT. What one step can do, said once: an inversion lemma for the bus port, one for the engine's turn, one for the step; the
frame of a register write; and the fact that an interface step runs the issued command. -/

namespace Sys2Proof.Machine

/-! ### Register writes -/

/-- The state a register write leaves has the same results, buffer, parameters and model fields as before. -/
structure SameResults (s t : State) : Prop where
  cfg : t.cfg = s.cfg
  live : t.live = s.live
  mem : t.mem = s.mem
  rk : t.rk = s.rk
  nr : t.nr = s.nr
  ksValid : t.ksValid = s.ksValid
  blkOut : t.blkOut = s.blkOut
  chain : t.chain = s.chain
  gfR : t.gfR = s.gfR
  inputs : t.inputs = s.inputs

theorem writeReg_sameResults (r : Reg) (v : Word) (s : State) : SameResults s (writeReg r v s) := by
  unfold writeReg
  split
  · exact ⟨rfl, rfl, rfl, rfl, rfl, rfl, rfl, rfl, rfl, rfl⟩
  · cases r <;> exact ⟨rfl, rfl, rfl, rfl, rfl, rfl, rfl, rfl, rfl, rfl⟩

theorem writeOffset_sameResults (off : Nat) (v : Word) (s : State) : SameResults s (writeOffset off v s) := by
  unfold writeOffset
  split
  · exact writeReg_sameResults _ _ _
  · exact ⟨rfl, rfl, rfl, rfl, rfl, rfl, rfl, rfl, rfl, rfl⟩

/-! ### The bus port -/

/-- What a bus access that is answered or not answered can do. -/
inductive BusEffect (r : BusReq) (s : State) : State → Prop where
  | onlyResponse (x : Resp) : BusEffect r s (respond x s)
  | registerWrite (off : Nat) (v : Word) (h : r = .write .w32 (s.cfg.base + off) v) (h4 : off % 4 = 0) :
      BusEffect r s (respond .writeDone (writeOffset off v s))
  | bufferWrite (a : Nat) (bs : List Byte) (h : a + bs.length ≤ s.cfg.bufBytes) :
      BusEffect r s (respond .writeDone { s with mem := memWrite s.mem a bs })

theorem targetOf_register {c : Config} {addr off : Nat} (h : targetOf c addr = .register off) : addr = c.base + off ∧ off < 0x1000 := by
  unfold targetOf at h
  split at h
  · cases h
  · split at h
    · have := Target.register.inj h; omega
    · split at h <;> cases h

theorem targetOf_buffer {c : Config} {addr a : Nat} (h : targetOf c addr = .buffer a) :
    addr = c.base + 0x1000 + a ∧ a < c.bufBytes := by
  unfold targetOf at h
  split at h
  · cases h
  · split at h
    · cases h
    · split at h
      · have := Target.buffer.inj h; omega
      · cases h

theorem targetOf_base_add {c : Config} {off : Nat} (h : off < 0x1000) : targetOf c (c.base + off) = .register off := by
  unfold targetOf
  rw [if_neg (by omega), if_pos (by omega)]
  congr 1; omega

theorem targetOf_register_iff {c : Config} {addr off : Nat} :
    targetOf c addr = .register off ↔ addr = c.base + off ∧ off < 0x1000 :=
  ⟨targetOf_register, fun ⟨h, hlt⟩ => h ▸ targetOf_base_add hlt⟩

theorem targetOf_buffer_iff {c : Config} {addr a : Nat} :
    targetOf c addr = .buffer a ↔ addr = c.base + 0x1000 + a ∧ a < c.bufBytes := by
  refine ⟨targetOf_buffer, fun ⟨h, hlt⟩ => ?_⟩
  subst h
  unfold targetOf
  rw [if_neg (by omega), if_neg (by omega), if_pos (by omega), Target.buffer.injEq]
  omega

/-- A word access to the register part reads or writes at its offset, reserved or not (rules R73 and R74). -/
theorem busAccess_read_word {s : State} {off : Nat} (h4 : off % 4 = 0) (hlt : off < 0x1000) :
    busAccess (.read .w32 (s.cfg.base + off)) s = .next { s with resp := some (.readWord (readOffset off s)) } := by
  simp only [busAccess, reqAddr, targetOf_base_add hlt, registerAccess, reqWidth, h4, and_self, if_true]; rfl

theorem busAccess_write_word {s : State} {off : Nat} (h4 : off % 4 = 0) (hlt : off < 0x1000) (v : Word) :
    busAccess (.write .w32 (s.cfg.base + off) v) s = .next { writeOffset off v s with resp := some .writeDone } := by
  simp only [busAccess, reqAddr, targetOf_base_add hlt, registerAccess, reqWidth, h4, and_self, if_true]; rfl

theorem busError_effect (r : BusReq) (s : State) : BusEffect r s (busError r s) := by
  cases r <;> exact .onlyResponse _

@[simp] theorem length_dataBytes (w : Width) (v : Word) : (dataBytes w v).length = widthBytes w := by simp [dataBytes]

theorem busAccess_next {r : BusReq} {s t : State} (h : busAccess r s = .next t) : BusEffect r s t := by
  unfold busAccess at h
  split at h
  · cases h; exact .onlyResponse _
  · rename_i off ht
    cases h
    obtain ⟨haddr, -⟩ := targetOf_register ht
    unfold registerAccess
    split
    · rename_i hw
      cases r with
      | read w a => exact .onlyResponse _
      | write w a v =>
        obtain ⟨hw, h4⟩ := hw
        simp only [reqWidth, reqAddr] at hw haddr
        subst hw haddr
        exact .registerWrite off v rfl h4
    · exact busError_effect _ _
  · rename_i a ht
    unfold bufferAccess at h
    split at h
    · cases h
    · rename_i u hu
      cases h
      split at hu
      · rename_i hok
        cases r with
        | read w b =>
          simp only at hu
          split at hu
          · cases hu
          · cases hu; exact .onlyResponse _
        | write w b v =>
          cases hu
          exact .bufferWrite a (dataBytes w v) (by simpa [reqWidth] using hok.2)
      · cases hu; exact busError_effect _ _

/-- A bus access changes no result, no parameter and no model field but the response. -/
theorem BusEffect.same {r : BusReq} {s t : State} (h : BusEffect r s t) :
    t.cfg = s.cfg ∧ t.live = s.live ∧ t.rk = s.rk ∧ t.nr = s.nr ∧ t.ksValid = s.ksValid ∧ t.inputs = s.inputs ∧
      t.blkOut = s.blkOut ∧ t.chain = s.chain ∧ t.gfR = s.gfR := by
  cases h with
  | onlyResponse x => exact ⟨rfl, rfl, rfl, rfl, rfl, rfl, rfl, rfl, rfl⟩
  | registerWrite off v h h4 =>
    have := writeOffset_sameResults off v s
    exact ⟨this.cfg, this.live, this.rk, this.nr, this.ksValid, this.inputs, this.blkOut, this.chain, this.gfR⟩
  | bufferWrite a bs h => exact ⟨rfl, rfl, rfl, rfl, rfl, rfl, rfl, rfl, rfl⟩

/-! ### The step -/

/-- What one step that answers a next state did. -/
inductive StepCase (s : State) : State → Prop where
  | idleTurn (h : s.seq = .idle) (hi : s.inputs = [] ∨ ∃ rest, s.inputs = .engine :: rest) :
      StepCase s { s with inputs := s.inputs.tail }
  | command (q : List Event) (i : Instr) (t : State) (h : s.seq = .busy) (hd : decode s.pending = .ok i)
      (he : exec i { s with inputs := q } = .next t)
      (hr : s.inputs.head? ≠ some .reset) (hp : s.inputs.head? ≠ some .powerOn) : StepCase s t
  | illegal (q : List Event) (e : DecodeError) (h : s.seq = .busy) (hd : decode s.pending = .error e)
      (hr : s.inputs.head? ≠ some .reset) (hp : s.inputs.head? ≠ some .powerOn) :
      StepCase s (failed .illegalCommand { s with inputs := q })
  | reset (rest : List Event) (h : s.inputs = .reset :: rest) : StepCase s (resetEvent { s with inputs := rest })
  | powerOn (rest : List Event) (h : s.inputs = .powerOn :: rest) : StepCase s (powerOnEvent { s with inputs := rest })
  | access (r : BusReq) (rest : List Event) (t : State) (h : s.inputs = .access r :: rest) (hl : s.live = true)
      (hb : BusEffect r { s with inputs := rest } t) : StepCase s t

theorem engineTurn_idle {s : State} (h : s.seq = .idle) : engineTurn s = .next s := by
  simp only [engineTurn, h]

theorem engineTurn_ok {s : State} {i : Instr} (h : s.seq = .busy) (hd : decode s.pending = .ok i) : engineTurn s = exec i s := by
  simp only [engineTurn, h, hd]

theorem engineTurn_error {s : State} {e : DecodeError} (h : s.seq = .busy) (hd : decode s.pending = .error e) :
    engineTurn s = .next (failed .illegalCommand s) := by
  simp only [engineTurn, h, hd]; rfl

/-! What the step is, for each shape of `inputs`. -/

theorem step_empty {s : State} (h : s.inputs = []) : step s = engineTurn s := by
  unfold step; split <;> simp_all

theorem step_engine {s : State} {rest : List Event} (h : s.inputs = .engine :: rest) :
    step s = engineTurn { s with inputs := rest } := by
  unfold step; rw [h]

theorem step_held {s : State} {r : BusReq} {rest : List Event} (h : s.inputs = .access r :: rest) (hl : s.live = true)
    (hh : isHeld r s = true) : step s = engineTurn s := by
  unfold step; rw [h]; simp only [hl, hh, Bool.true_eq_false, if_false, if_true]

theorem step_access {s : State} {r : BusReq} {rest : List Event} (h : s.inputs = .access r :: rest) (hl : s.live = true)
    (hh : isHeld r s = false) : step s = busAccess r { s with inputs := rest } := by
  unfold step; rw [h]; simp only [hl, hh, Bool.true_eq_false, Bool.false_eq_true, if_false]

/-- Only an access to the buffer part is held, and only while SEQ = BUSY (rules R49 and R78). -/
theorem isHeld_iff {r : BusReq} {s : State} :
    isHeld r s = true ↔ s.seq = .busy ∧ ∃ a, targetOf s.cfg (reqAddr r) = .buffer a := by
  unfold isHeld
  cases targetOf s.cfg (reqAddr r) <;> simp [State.busy]

theorem step_next_cases {s t : State} (h : step s = .next t) : StepCase s t := by
  have turn : ∀ q, engineTurn { s with inputs := q } = .next t →
      (s.seq = .idle → q = s.inputs.tail ∧ (s.inputs = [] ∨ ∃ rest, s.inputs = .engine :: rest)) →
      s.inputs.head? ≠ some .reset → s.inputs.head? ≠ some .powerOn → StepCase s t := by
    intro q hq hidle hr hp
    cases hs : s.seq with
    | idle =>
      rw [engineTurn_idle (s := { s with inputs := q }) hs] at hq
      obtain ⟨rfl, hi⟩ := hidle hs
      cases hq
      exact .idleTurn hs hi
    | busy =>
      cases hd : decode s.pending with
      | ok i =>
        rw [engineTurn_ok (s := { s with inputs := q }) hs hd] at hq
        exact .command q i t hs hd hq hr hp
      | error e =>
        rw [engineTurn_error (s := { s with inputs := q }) hs hd] at hq
        cases hq
        exact .illegal q e hs hd hr hp
  unfold step at h
  split at h
  · rename_i hi
    exact turn s.inputs h (fun _ => ⟨by rw [hi]; rfl, .inl hi⟩) (by simp [hi]) (by simp [hi])
  · rename_i rest hi
    exact turn rest h (fun _ => ⟨by rw [hi]; rfl, .inr ⟨rest, hi⟩⟩) (by simp [hi]) (by simp [hi])
  · rename_i rest hi; cases h; exact .reset rest hi
  · rename_i rest hi; cases h; exact .powerOn rest hi
  · rename_i r rest hi
    split at h
    · cases h
    · rename_i hl
      split at h
      · rename_i hh
        have hb : s.seq = .busy := by
          unfold isHeld at hh
          split at hh
          · cases hh
          · cases hh
          · simpa [State.busy] using hh
        exact turn s.inputs h (fun hid => by rw [hb] at hid; cases hid) (by simp [hi]) (by simp [hi])
      · exact .access r rest t hi (by simpa using hl) (busAccess_next h)

/-- No step changes the parameters (rule R6). -/
theorem step_cfg {s t : State} (h : step s = .next t) : t.cfg = s.cfg := by
  cases step_next_cases h with
  | idleTurn hs hi => rfl
  | command q i _ hs hd he hr hp => rw [exec_frame he]
  | illegal q e hs hd hr hp => rfl
  | reset rest hi => rfl
  | powerOn rest hi => rfl
  | access r rest _ hi hl hb => exact hb.same.1

/-- A word that decodes to a command is run by the step after `withFetchWord`. -/
theorem decodeTableWord_some {nbits w : Nat} {i : Instr} (h : decodeTableWord nbits w = some i) :
    decode (BitVec.ofNat 32 (tableValue nbits w)) = .ok i := by
  unfold decodeTableWord at h
  split at h
  · split at h
    · rename_i j hj; cases h; exact hj
    · cases h
  · cases h

end Sys2Proof.Machine
end

