-- ==== Sys2Proof/Tests/Slice0.lean ====
section
/-! SUPPORT. Tests of the model against numbers written in spec/ (mostly spec/95_test_vectors.md), and for every statement with
hypotheses a concrete state and operands that meet them. -/

-- One theorem at a time: the kernel evaluations below would otherwise each hold a thread.
set_option Elab.async false

open Sys2Proof Sys2Proof.Machine

namespace Sys2Proof.Tests

/-! ### Helpers -/

/-- The 16 bytes of a block as spec/95 prints them: byte 0 first. -/
def hex16 (v : BitVec 128) : List Byte := (List.range 16).map fun k => v.extractLsb' (8 * (15 - k)) 8

/-- The block of 16 bytes as spec/95 prints them. -/
def hexBlock (v : BitVec 128) : Block := blockOfBytes (hex16 v)

/-- A predicate holds of the state an outcome answers. -/
def after (o : Host.Outcome State Fault Refusal) (p : State → Bool) : Bool :=
  match o with
  | .next t => p t
  | .fault _ => false
  | .refused _ => false

/-- The plaintext of V1, and the first block of P2 in V10. -/
def plain : BitVec 128 := 0x00112233445566778899aabbccddeeff

/-- The round keys of V1 (key 000102…0f), from the table of spec/95. -/
def rk128 : Vector Block 15 :=
  #v[hexBlock 0x000102030405060708090a0b0c0d0e0f, hexBlock 0xd6aa74fdd2af72fadaa678f1d6ab76fe,
    hexBlock 0xb692cf0b643dbdf1be9bc5006830b3fe, hexBlock 0xb6ff744ed2c2c9bf6c590cbf0469bf41,
    hexBlock 0x47f7f7bc95353e03f96c32bcfd058dfd, hexBlock 0x3caaa3e8a99f9deb50f3af57adf622aa,
    hexBlock 0x5e390f7df7a69296a7553dc10aa31f6b, hexBlock 0x14f9701ae35fe28c440adf4d4ea9c026,
    hexBlock 0x47438735a41c65b9e016baf4aebf7ad2, hexBlock 0x549932d1f08557681093ed9cbe2c974e,
    hexBlock 0x13111d7fe3944a17f307a78b4d2b30c5, Block.zero, Block.zero, Block.zero, Block.zero]

/-- A machine with V1's schedule and nothing else. -/
def keyed : State := { State.reset with ksValid := true, nr := .r10, rk := rk128 }

/-- `keyed` with 32 initialised bytes at 0, a 32-byte message from 0 to 0x40, and a legal IV length. -/
def ready : State :=
  { keyed with
    mem := memWrite [] 0 (hex16 plain ++ hex16 0xffeeddccbbaa99887766554433221100)
    dst := 0x40, len := 0x20, ivLen := 16 }

/-- `ready` with a CTR edit of 4 bytes at offset 0x1C, the end of the message, and the new plaintext at 0x100. -/
def editing : State :=
  { ready with mem := memWrite ready.mem 0x100 [0xde, 0xad, 0xbe, 0xef], src := 0x100, offset := 0x1C, eLen := 4 }

/-- A machine with a command word in flight, as an issue leaves it (rule R47). -/
def issued (w : Word) (s : State) : State := acceptCommand w s

/-- The bus address of a register in the examples. -/
def regAddr (r : Reg) : Nat := 0x40000000 + regOffset r

/-! ### Well-formed words, and words the checks refuse -/

/-- Word 0x00000122: a legal opcode under a reserved bit (V15). -/
theorem test_wf_refuses_reserved_bits :
    (CmdWord.mk 1 0x22).rsvZero = false ∧ (CmdWord.mk 1 0x22).opListed = true ∧ (CmdWord.mk 1 0x22).wf = false := by decide

/-- Word 0x00000004: an unlisted opcode (V15). -/
theorem test_wf_refuses_unlisted_opcode :
    (CmdWord.mk 0 0x04).rsvZero = true ∧ (CmdWord.mk 0 0x04).opListed = false ∧ (CmdWord.mk 0 0x04).wf = false := by decide

theorem test_wf_accepts_legal_words : (CmdWord.mk 0 0x01).wf = true ∧ (CmdWord.mk 0 0x23).wf = true := by decide

theorem test_instr_wf : Instr.ctrEdit.wf = true := by decide

/-! ### Decoding, by the bits of rules R100 and R101 -/

theorem test_decode_keyExpand : decode 0b00000000000000000000000000000001#32 = .ok .keyExpand := by decide
theorem test_decode_blockEnc : decode 0b00000000000000000000000000000010#32 = .ok .blockEnc := by decide
theorem test_decode_blockDec : decode 0b00000000000000000000000000000011#32 = .ok .blockDec := by decide
theorem test_decode_ecbEnc : decode 0b00000000000000000000000000010000#32 = .ok .ecbEnc := by decide
theorem test_decode_ecbDec : decode 0b00000000000000000000000000010001#32 = .ok .ecbDec := by decide
theorem test_decode_cbcEnc : decode 0b00000000000000000000000000010010#32 = .ok .cbcEnc := by decide
theorem test_decode_cbcDec : decode 0b00000000000000000000000000010011#32 = .ok .cbcDec := by decide
theorem test_decode_ctrXform : decode 0b00000000000000000000000000010100#32 = .ok .ctrXform := by decide
theorem test_decode_ctrEdit : decode 0b00000000000000000000000000010101#32 = .ok .ctrEdit := by decide
theorem test_decode_gfMul : decode 0b00000000000000000000000000100000#32 = .ok .gfMul := by decide
theorem test_decode_gfInv : decode 0b00000000000000000000000000100001#32 = .ok .gfInv := by decide
theorem test_decode_sboxFwd : decode 0b00000000000000000000000000100010#32 = .ok .sboxFwd := by decide
theorem test_decode_sboxInv : decode 0b00000000000000000000000000100011#32 = .ok .sboxInv := by decide

/-- The edges of the illegal ranges of rule R103, and words whose legal opcode has a reserved bit set. -/
theorem test_decode_refuses :
    [0x00#32, 0x04#32, 0x0F#32, 0x16#32, 0x1F#32, 0x24#32, 0xFF#32].map decode =
      List.replicate 7 (.error .unlistedOpcode) ∧
    [0x101#32, 0x122#32, 0x80000001#32].map decode = List.replicate 3 (.error .reservedBitsSet) := by decide +kernel

theorem test_decodeTableWord :
    decodeTableWord 32 0x14 = some .ctrXform ∧ decodeTableWord 32 0x04 = none ∧ decodeTableWord 32 0x114 = none := by decide

/-- GF_MUL as the first command after reset: GF_R takes the product of two zeros, and the engine completes. -/
theorem test_withFetchWord_runs_the_command :
    after (step (State.reset.withFetchWord 32 0x20)) (fun t => t.gfR == 0 && t.done && t.lastOp == 0x20 && !t.err) = true := by
  decide +kernel

/-! ### The pure functions (V5, V6, V7) -/

theorem test_xtime : xtime 0x57 = 0xAE ∧ xtime 0xAE = 0x47 ∧ xtime 0x80 = 0x1B := by decide +kernel

theorem test_rotWord : rotWord ⟨1, 2, 3, 4⟩ = ⟨2, 3, 4, 1⟩ := by decide

theorem test_shiftRows : shiftRows (hexBlock 0x000102030405060708090a0b0c0d0e0f) = hexBlock 0x00050a0f04090e03080d02070c01060b ∧
    invShiftRows (hexBlock 0x000102030405060708090a0b0c0d0e0f) = hexBlock 0x000d0a0704010e0b0805020f0c090603 := by decide +kernel

theorem test_mixColumns : mixColumns (hexBlock 0xdb135345f20a225c01010101c6c6c6c6) = hexBlock 0x8e4da1bc9fdc589d01010101c6c6c6c6 ∧
    invMixColumns (hexBlock 0x8e4da1bc9fdc589d01010101c6c6c6c6) = hexBlock 0xdb135345f20a225c01010101c6c6c6c6 := by decide +kernel

theorem test_subBytes : subBytes (hexBlock 0x000102030405060708090a0b0c0d0e0f) = hexBlock 0x637c777bf26b6fc53001672bfed7ab76 ∧
    invSubBytes (hexBlock 0x637c777bf26b6fc53001672bfed7ab76) = hexBlock 0x000102030405060708090a0b0c0d0e0f := by decide +kernel

/-- AES-192 and AES-256 differ from AES-128 from the first derived word on: RK[12] of V3 and RK[14] of V4. -/
theorem test_keyExpansion_long_keys :
    roundKey (keyExpansion ((List.range 24).map (BitVec.ofNat 8)) 12) 12 = hexBlock 0xa4970a331a78dc09c418c271e3a41d5d ∧
    roundKey (keyExpansion ((List.range 32).map (BitVec.ofNat 8)) 14) 14 = hexBlock 0x24fc79ccbf0979e9371ac23c6d68de36 := by
  decide +kernel

/-- CtrBlock of V12. -/
theorem test_ctrBlock : ctrBlock 0x0123456789abcdef 1 = hexBlock 0xefcdab89674523010100000000000000 := by decide +kernel

/-! ### One command, one step -/

/-- V1 and V8: the AES-128 schedule, from the key registers. -/
theorem test_keyExpand : after (exec .keyExpand
    { State.reset with keyLen := 16, key := #v[0x03020100, 0x07060504, 0x0b0a0908, 0x0f0e0d0c, 0, 0, 0, 0] })
    (fun t => t.rk == rk128 && t.nr == .r10 && t.ksValid && t.done && !t.err) = true := by decide +kernel

/-- V8: KEYLEN = 33 over a valid schedule reports code 1 and destroys it. -/
theorem test_keyExpand_bad_length : after (exec .keyExpand { keyed with keyLen := 33 })
    (fun t => t.errCode.code == 1 && t.err && !t.ksValid && t.nr == .r0 && t.rk == Vector.replicate 15 Block.zero) = true := by
  decide +kernel

/-- V9: V1's vector through the registers. -/
theorem test_blockEnc : after (exec .blockEnc { keyed with blkIn := #v[0x33221100, 0x77665544, 0xbbaa9988, 0xffeeddcc] })
    (fun t => t.blkOut == #v[0xd8e0c469, 0x30047b6a, 0x80b7cdd8, 0x5ac5b470] && !t.err) = true := by decide +kernel

/-- V9: without a schedule, code 5, and STATUS reads 0x02000506. -/
theorem test_blockEnc_no_schedule : after (exec .blockEnc (issued 0x02 State.reset))
    (fun t => t.errCode.code == 5 && statusWord t == 0x02000506 && t.blkOut == Vector.replicate 4 0) = true := by decide +kernel

theorem test_blockDec : after (exec .blockDec { keyed with blkIn := #v[0xd8e0c469, 0x30047b6a, 0x80b7cdd8, 0x5ac5b470] })
    (fun t => t.blkOut == #v[0x33221100, 0x77665544, 0xbbaa9988, 0xffeeddcc]) = true := by decide +kernel

/-- V10, overlap upward: block 1 reads the output of block 0. -/
theorem test_ecbEnc_overlap : after (exec .ecbEnc { ready with dst := 0x10 })
    (fun t => blockAt t.mem 0 == some (hexBlock plain) && blockAt t.mem 0x10 == some (hexBlock 0x69c4e0d86a7b0430d8cdb78070b4c55a) &&
      blockAt t.mem 0x20 == some (hexBlock 0x4f638c735f614301567824b1a21a4f6a)) = true := by decide +kernel

/-- V10: LEN = 0x11 reports code 4. -/
theorem test_ecbEnc_length : after (exec .ecbEnc { ready with len := 0x11 })
    (fun t => t.errCode.code == 4 && t.mem == ready.mem) = true := by decide +kernel

/-- V10: decryption in place. -/
theorem test_ecbDec_in_place : after (exec .ecbDec
    { keyed with mem := memWrite [] 0x40 (hex16 0x69c4e0d86a7b0430d8cdb78070b4c55a), src := 0x40, dst := 0x40, len := 0x10 })
    (fun t => blockAt t.mem 0x40 == some (hexBlock plain)) = true := by decide +kernel

/-- V11: the first block, and CHAIN. -/
theorem test_cbcEnc : after (exec .cbcEnc { ready with len := 0x10, iv := #v[0xa3a2a1a0, 0xa7a6a5a4, 0xabaaa9a8, 0xafaeadac] })
    (fun t => blockAt t.mem 0x40 == some (hexBlock 0xc196d7dd2ce48e256413e116a787ea90) &&
      groupBlock t.chain == hexBlock 0xc196d7dd2ce48e256413e116a787ea90) = true := by decide +kernel

/-- V11: IVLEN = 0 and LEN = 0x11 report code 2, the earlier check. -/
theorem test_cbcEnc_iv_length : after (exec .cbcEnc { ready with ivLen := 0, len := 0x11 })
    (fun t => t.errCode.code == 2) = true := by decide +kernel

/-- V11: decryption in place; CHAIN is the block read. -/
theorem test_cbcDec_in_place : after (exec .cbcDec
    { ready with
      mem := memWrite [] 0 (hex16 0xc196d7dd2ce48e256413e116a787ea90)
      dst := 0, len := 0x10, iv := #v[0xa3a2a1a0, 0xa7a6a5a4, 0xabaaa9a8, 0xafaeadac] })
    (fun t => blockAt t.mem 0 == some (hexBlock plain) &&
      groupBlock t.chain == hexBlock 0xc196d7dd2ce48e256413e116a787ea90) = true := by decide +kernel

/-- V12: 20 bytes in place, the last chunk of 4 bytes. -/
theorem test_ctrXform : after (exec .ctrXform
    { keyed with
      mem := memWrite [] 0 (hex16 0x000102030405060708090a0b0c0d0e0f ++ [0x10, 0x11, 0x12, 0x13])
      nonceLo := 0x89abcdef, nonceHi := 0x01234567, len := 0x14 })
    (fun t => t.mem == memWrite [] 0 (hex16 0x485d8ef954210e7b7b39f64f089e1fa2 ++ [0xb2, 0xf1, 0x85, 0xa5])) = true := by
  decide +kernel

/-- V13, the two edited bytes on either side of the block boundary; the ciphertext bytes around them are not read. -/
theorem test_ctrEdit : after (exec .ctrEdit
    { keyed with
      mem := memWrite [] 0x101 [0xad, 0xbe], src := 0x101, eLen := 2, offset := 15
      nonceLo := 0x89abcdef, nonceHi := 0x01234567, len := 0x14 })
    (fun t => t.mem == memWrite [] 15 [0x00, 0x1c] ++ memWrite [] 0x101 [0xad, 0xbe]) = true := by decide +kernel

/-- V13: OFFSET = 0xFFFFFFFF, ELEN = 2, LEN = 0 reports code 3: the sum does not wrap. -/
theorem test_ctrEdit_bounds : after (exec .ctrEdit { keyed with offset := 0xFFFFFFFF, eLen := 2 })
    (fun t => t.errCode.code == 3) = true := by decide +kernel

/-- V5. -/
theorem test_gfMul : after (exec .gfMul { State.reset with gfA := 0x57, gfB := 0x83 }) (fun t => t.gfR == 0xC1) = true := by
  decide +kernel

theorem test_gfInv : after (exec .gfInv { State.reset with gfA := 0x53 }) (fun t => t.gfR == 0xCA) = true ∧
    after (exec .gfInv { State.reset with gfR := 7 }) (fun t => t.gfR == 0 && !t.err) = true := by decide +kernel

/-- V6. -/
theorem test_sboxFwd : after (exec .sboxFwd { State.reset with gfA := 0x53 }) (fun t => t.gfR == 0xED) = true := by decide +kernel

theorem test_sboxInv : after (exec .sboxInv { State.reset with gfA := 0x16 }) (fun t => t.gfR == 0xFF) = true := by decide +kernel

/-- V15: the last sixteen bytes of the buffer fit, one more does not. -/
theorem test_range_boundary :
    commandError .ecbEnc { keyed with src := 0xFF0, len := 0x10 } = none ∧
    commandError .ecbEnc { keyed with src := 0xFF8, len := 0x10 } = some .bufferRange ∧
    commandError .ecbEnc { keyed with src := 0xFFFFFFF0, len := 0x20 } = some .bufferRange ∧
    commandError .ecbEnc { keyed with src := 0x1000, len := 0 } = none := by decide +kernel

/-! ### Registers and the bus (V16) -/

theorem test_register_values :
    readReg .id State.reset = 0x31534541 ∧ readReg .bufSize State.reset = 0x1000 ∧
    readReg .rkSel (writeReg .rkSel 0x1F State.reset) = 0xF ∧ readReg .gfA (writeReg .gfA 0x1FF State.reset) = 0xFF ∧
    readReg .keyLen (writeReg .keyLen 0xFFFFFFFF State.reset) = 0x3F := by decide +kernel

/-- RK[10] of V1 through RK_DATA. -/
theorem test_rkData : (List.finRange 4).map (fun j => readReg (.rkData j) { keyed with rkSel := 10 }) =
    [0x7f1d1113, 0x174a94e3, 0x8ba707f3, 0xc5302b4d] := by decide +kernel

/-- STATUS = 0x01000106; a write of 4 clears ERR and ERRCODE and keeps DONE. -/
theorem test_status_w1c :
    statusWord (writeReg .status 0x4 { State.reset with done := true, err := true, errCode := .invalidKeyLength, lastOp := 1 }) =
      0x01000002 := by decide +kernel

/-- An 8-bit read of STATUS and a misaligned 16-bit buffer write are bus errors. -/
theorem test_bus_errors :
    after (busAccess (.read .w8 0x40000004) State.reset) (fun t => t == { State.reset with resp := some (.readError 0) }) = true ∧
    after (busAccess (.write .w16 0x40001001 5) State.reset) (fun t => t == { State.reset with resp := some .writeError }) = true := by
  decide +kernel

theorem test_buffer_write : after (busAccess (.write .w32 0x40001100 0xefbeadde) State.reset)
    (fun t => t.mem == [(0x100, 0xde), (0x101, 0xad), (0x102, 0xbe), (0x103, 0xef)] && t.resp == some .writeDone) = true := by
  decide +kernel

/-- A write of SRC while busy is dropped and sets OVR; a write of CTRL is not. -/
theorem test_busy_writes :
    writeReg .src 5 (issued 0x20 State.reset) = { issued 0x20 State.reset with ovr := true } ∧
    writeReg .ctrl 1 (issued 0x20 State.reset) = { issued 0x20 State.reset with ie := true } := by decide +kernel

/-- Rule R292: the destination of an aborted ECB_ENC loses its tags, the source keeps them. -/
theorem test_reset_aborts : after (step { issued 0x10 { ready with dst := 0x10 } with inputs := [.reset] })
    (fun t => t.mem == memWrite [] 0 (hex16 plain) && t.seq == .idle && !t.done && t.lastOp == 0) = true := by decide +kernel

/-- The example of rule R106. -/
theorem test_ldKey : ldKey Config.specExamples ((List.range 16).map (BitVec.ofNat 8)) =
    [.access (.write .w32 0x40000010 0x03020100), .access (.write .w32 0x40000014 0x07060504),
     .access (.write .w32 0x40000018 0x0b0a0908), .access (.write .w32 0x4000001C 0x0f0e0d0c),
     .access (.write .w32 0x4000000C 0x10)] := by decide +kernel

/-- The CMD line of rule R105: GF_INV issued over the bus, then completed by the engine. -/
theorem test_issue_and_completion :
    after (Host.Core.run core 2 { State.reset with gfA := 0x02, inputs := [cmdLine Config.specExamples .gfInv, .engine] })
      (fun t => t.gfR == 0x8D && t.seq == .idle && t.done && t.inputs == []) = true := by decide +kernel

theorem test_memory_wf : ready.mem.wf ∧ editing.mem.wf ∧ State.reset.mem.wf := by decide +kernel

/-! ### Witnesses: for each statement with hypotheses, states and operands that meet them -/

theorem ready_initialised : Initialised ready.mem 0 0x20 := by unfold Initialised; decide +kernel

theorem editing_initialised : Initialised editing.mem 0x100 4 := by unfold Initialised; decide +kernel

theorem ready_ecb {i : Instr} (hi : i = .ecbEnc ∨ i = .ecbDec) : ∃ t, exec i ready = .next t ∧ t.err = false := by
  rcases hi with rfl | rfl
  · obtain ⟨u, hu⟩ := bufferWrites_completes (f := ecbChunk ready.encrypt) ready_initialised
    exact ⟨_, exec_ok (i := .ecbEnc) (by decide +kernel) hu, by obtain ⟨_, _, _, _, _, rfl⟩ := bufferWrites_ok hu; rfl⟩
  · obtain ⟨u, hu⟩ := bufferWrites_completes (f := ecbChunk ready.decrypt) ready_initialised
    exact ⟨_, exec_ok (i := .ecbDec) (by decide +kernel) hu, by obtain ⟨_, _, _, _, _, rfl⟩ := bufferWrites_ok hu; rfl⟩

theorem ready_cbc {i : Instr} (hi : i = .cbcEnc ∨ i = .cbcDec) : ∃ t, exec i ready = .next t ∧ t.err = false := by
  rcases hi with rfl | rfl
  · obtain ⟨u, hu⟩ := cbcWrites_completes (f := cbcEncChunk ready) ready_initialised
    exact ⟨_, exec_ok (i := .cbcEnc) (by decide +kernel) hu, by obtain ⟨_, _, _, _, _, rfl⟩ := cbcWrites_ok hu; rfl⟩
  · obtain ⟨u, hu⟩ := cbcWrites_completes (f := cbcDecChunk ready) ready_initialised
    exact ⟨_, exec_ok (i := .cbcDec) (by decide +kernel) hu, by obtain ⟨_, _, _, _, _, rfl⟩ := cbcWrites_ok hu; rfl⟩

theorem ready_ctr : ∃ t, exec .ctrXform ready = .next t ∧ t.err = false := by
  obtain ⟨u, hu⟩ := bufferWrites_completes (f := ctrChunk ready) ready_initialised
  exact ⟨_, exec_ok (i := .ctrXform) (by decide +kernel) hu, by obtain ⟨_, _, _, _, _, rfl⟩ := bufferWrites_ok hu; rfl⟩

theorem editing_edit : ∃ t, exec .ctrEdit editing = .next t ∧ t.err = false := by
  obtain ⟨u, hu⟩ := ctrEditWrites_completes editing_initialised
  exact ⟨_, exec_ok (i := .ctrEdit) (by decide +kernel) hu, by obtain ⟨_, _, _, rfl⟩ := ctrEditWrites_ok hu; rfl⟩

/-- `ready` meets what ECB, CBC and CTR_XFORM ask for, with its ranges disjoint; and a whole-buffer message in place meets the range
check with equality. -/
theorem ready_meets_premises : ready.ksValid = true ∧ ready.ivLen.toNat = 16 ∧ ready.len.toNat % 16 = 0 ∧ RangesFit ready ∧
    NoClobber ready.src.toNat ready.dst.toNat ready.len.toNat ∧ Initialised ready.mem ready.src.toNat ready.len.toNat ∧
    RangesFit { ready with dst := 0, len := 0x1000 } :=
  ⟨rfl, by decide, by decide, by unfold RangesFit; decide +kernel, .inr (.inl (by decide)), ready_initialised,
    by unfold RangesFit; decide +kernel⟩

/-- `editing` meets what CTR_EDIT asks for, its edit ending where the message ends; and so does an empty edit at OFFSET = LEN. -/
theorem editing_meets_premises : editing.ksValid = true ∧ EditFits editing ∧
    Initialised editing.mem editing.src.toNat editing.eLen.toNat ∧ EditFits { editing with offset := 0x20, eLen := 0 } :=
  ⟨rfl, by unfold EditFits; decide +kernel, editing_initialised, by unfold EditFits; decide +kernel⟩

theorem witness_SampleWordsDecode : Instr.keyExpand.wf = true ∧ Instr.sboxInv.wf = true := by decide

theorem witness_EncodeReturnsTheDecodedWord : decode 0x01#32 = .ok .keyExpand ∧ decode 0x23#32 = .ok .sboxInv := by decide

/-- All three turns of the engine while BUSY, both while IDLE, and a table word. -/
theorem witness_StepRunsDecodedCommand :
    (issued 0x20 State.reset).seq = .busy ∧ decode (issued 0x20 State.reset).pending = .ok .gfMul ∧
    (issued 0x20 State.reset).inputs = [] ∧ ({ issued 0x20 State.reset with inputs := [.engine] }).inputs = .engine :: [] ∧
    ({ issued 0x20 State.reset with inputs := [.access (.read .w8 0x40001000)] }).inputs = .access (.read .w8 0x40001000) :: [] ∧
    State.reset.live = true ∧ isHeld (.read .w8 0x40001000) (issued 0x20 State.reset) = true ∧
    State.reset.seq = .idle ∧ State.reset.inputs = [] ∧ ({ State.reset with inputs := [.engine] }).inputs = .engine :: [] ∧
    decodeTableWord 32 0x20 = some .gfMul := by decide +kernel

theorem witness_IllegalCommandCompletesWithError :
    (issued 0x122 State.reset).seq = .busy ∧ decode (issued 0x122 State.reset).pending = .error .reservedBitsSet ∧
    decode (issued 0 State.reset).pending = .error .unlistedOpcode ∧ (issued 0x122 State.reset).inputs = [] ∧
    ({ issued 0x122 State.reset with inputs := [.engine] }).inputs = .engine :: [] ∧
    (let s := { issued 0x122 State.reset with inputs := [.access (.read .w16 0x40001FFE)] }
     s.inputs = .access (.read .w16 0x40001FFE) :: [] ∧ s.live = true ∧ isHeld (.read .w16 0x40001FFE) s = true) := by decide +kernel

/-- One register of each mask, and RK_SEL beside a register that is not RK_DATA. -/
theorem witness_WritableRegistersStoreTheirBits :
    State.reset.seq = .idle ∧ writableMask .ctrl = some 1 ∧ writableMask .keyLen = some 0x3F ∧ writableMask .rkSel = some 0xF ∧
    writableMask .gfB = some 0xFF ∧ writableMask (.key 7) = some 0xFFFFFFFF ∧ Reg.key 6 ≠ .key 7 ∧ Reg.status ≠ .rkSel ∧
    (Reg.rkSel = .rkSel → ∀ j, Reg.status ≠ .rkData j) := by
  refine ⟨rfl, rfl, rfl, rfl, rfl, rfl, by decide, by decide, fun _ j => by simp⟩

theorem witness_ReadOnlyAndReservedIgnoreWrites :
    Reg.gfR ∈ readOnlyRegs ∧ Reg.rkData 3 ∈ readOnlyRegs ∧ regAt 0xB8 = none ∧ regAt 0xFFC = none ∧ 0xB8 ≤ 0xB8 := by
  decide +kernel

theorem witness_CmdWriteIssues :
    State.reset.seq = .idle ∧ (issued 1 State.reset).seq = .busy ∧ decode 0x04#32 = .error .unlistedOpcode := by decide

/-- Registers at both ends of the dropped list, a read-only one, and offsets 0 and 0xFFC of the register part. -/
theorem witness_WritesWhileBusyAreDropped :
    (issued 1 State.reset).seq = .busy ∧ Reg.cmd ∈ droppedRegs ∧ Reg.blkIn 3 ∈ droppedRegs ∧ Reg.id ∈ readOnlyRegs ∧
    regAt 0xB8 = none ∧ targetOf State.reset.cfg 0x40000000 = .register 0 ∧ targetOf State.reset.cfg 0x40000FFC = .register 0xFFC ∧
    0xFFC % 4 = 0 := by decide +kernel

/-- RK_SEL = NR and RK_SEL = NR + 1, and no schedule. -/
theorem witness_RkDataReadsSelectedRoundKey :
    keyed.ksValid = true ∧ ({ keyed with rkSel := 10 }).rkSel.toNat ≤ keyed.nr.toNat ∧
    ¬(keyed.ksValid = true ∧ ({ keyed with rkSel := 11 }).rkSel.toNat ≤ keyed.nr.toNat) ∧
    ¬(State.reset.ksValid = true ∧ State.reset.rkSel.toNat ≤ State.reset.nr.toNat) := by decide +kernel

theorem witness_KeyRegistersAreLittleEndian :
    State.reset.seq = .idle ∧ 3 < 4 ∧ 31 / 4 ≠ (0 : Fin 8).val ∧ 31 < ({ State.reset with keyLen := 32 }).keyLen.toNat ∧
    15 < 16 := by decide +kernel

/-- A KEY_EXPAND that destroys a schedule, a reset, and power-on. -/
theorem witness_ScheduleWrittenOnlyByKeyExpandAndReset :
    after (step (issued 0x01 keyed)) (fun t => t.ksValid != keyed.ksValid && t.seq == .idle) = true ∧
    after (step { keyed with inputs := [.reset] }) (fun t => t.rk != keyed.rk) = true ∧
    after (step { keyed with inputs := [.powerOn] }) (fun t => t.nr != keyed.nr) = true := by decide +kernel

theorem witness_IdentificationNeverChanges : ∃ t, step { keyed with inputs := [.reset] } = .next t := ⟨_, rfl⟩

theorem witness_RegisterCommandFrames :
    (∃ t, exec .keyExpand keyed = .next t) ∧ (∃ t, exec .blockEnc State.reset = .next t) ∧ (∃ t, exec .blockDec keyed = .next t) ∧
    (∃ t, exec .gfMul keyed = .next t) ∧ (∃ t, exec .gfInv keyed = .next t) ∧ (∃ t, exec .sboxFwd keyed = .next t) ∧
    ∃ t, exec .sboxInv keyed = .next t :=
  ⟨⟨_, exec_error (c := .invalidKeyLength) (by decide +kernel)⟩, ⟨_, exec_error (c := .noKeySchedule) (by decide +kernel)⟩,
    ⟨_, exec_ok (i := .blockDec) (by decide +kernel) (t := { keyed with blkOut := _ }) rfl⟩, ⟨_, rfl⟩, ⟨_, rfl⟩, ⟨_, rfl⟩, ⟨_, rfl⟩⟩

/-- Each mode command on a message of two blocks, and addresses just below, just above and far from the bytes stored. -/
theorem witness_BufferCommandFrames :
    (∃ t, exec .ecbEnc ready = .next t) ∧ (∃ t, exec .ecbDec ready = .next t) ∧ (∃ t, exec .cbcEnc ready = .next t) ∧
    (∃ t, exec .cbcDec ready = .next t) ∧ (∃ t, exec .ctrXform ready = .next t) ∧ (∃ t, exec .ctrEdit editing = .next t) ∧
    (∀ a ∈ [0x3F, 0x60, 0x1000], ¬(ready.dst.toNat ≤ a ∧ a < ready.dst.toNat + ready.len.toNat)) ∧
    ∀ a ∈ [0x5B, 0x60], ¬(editing.dst.toNat + editing.offset.toNat ≤ a ∧
      a < editing.dst.toNat + editing.offset.toNat + editing.eLen.toNat) := by
  obtain ⟨t1, h1, -⟩ := ready_ecb (.inl rfl)
  obtain ⟨t2, h2, -⟩ := ready_ecb (.inr rfl)
  obtain ⟨t3, h3, -⟩ := ready_cbc (.inl rfl)
  obtain ⟨t4, h4, -⟩ := ready_cbc (.inr rfl)
  obtain ⟨t5, h5, -⟩ := ready_ctr
  obtain ⟨t6, h6, -⟩ := editing_edit
  exact ⟨⟨_, h1⟩, ⟨_, h2⟩, ⟨_, h3⟩, ⟨_, h4⟩, ⟨_, h5⟩, ⟨_, h6⟩, by decide +kernel, by decide +kernel⟩

/-- Accesses that are not held: the last register word while BUSY, the first buffer byte while IDLE, and one past the window while
BUSY. -/
theorem witness_RegisterAccessEffects :
    (0xFFC % 4 = 0 ∧ 0xFFC < 0x1000) ∧
    (let s := { issued 1 State.reset with inputs := [.access (.write .w32 0x40000FFC 5)] }
     s.inputs = .access (.write .w32 0x40000FFC 5) :: [] ∧ s.live = true ∧ isHeld (.write .w32 0x40000FFC 5) s = false) ∧
    (let s := { State.reset with inputs := [.access (.read .w8 0x40001000)] }
     s.inputs = .access (.read .w8 0x40001000) :: [] ∧ s.live = true ∧ isHeld (.read .w8 0x40001000) s = false) ∧
    (let s := { issued 1 State.reset with inputs := [.access (.read .w8 0x40002000)] }
     s.inputs = .access (.read .w8 0x40002000) :: [] ∧ s.live = true ∧ isHeld (.read .w8 0x40002000) s = false) := by
  decide +kernel

/-- A narrow access and a misaligned one to the register part, at both its ends, and a misaligned one to the buffer part. -/
theorem witness_BusErrorsChangeNothing :
    targetOf State.reset.cfg (reqAddr (.read .w8 0x40000000)) = .register 0 ∧ ¬(reqWidth (.read .w8 0x40000000) = .w32 ∧ 0 % 4 = 0) ∧
    targetOf State.reset.cfg (reqAddr (.write .w32 0x40000FFE 1)) = .register 0xFFE ∧
    ¬(reqWidth (.write .w32 0x40000FFE 1) = .w32 ∧ 0xFFE % 4 = 0) ∧
    targetOf State.reset.cfg (reqAddr (.write .w16 0x40001FFF 1)) = .buffer 0xFFF ∧
    0xFFF % widthBytes (reqWidth (.write .w16 0x40001FFF 1)) ≠ 0 := by decide +kernel

/-- The first and the last word of the buffer, the last byte, and initialised bytes; the ends of the two parts' address ranges. -/
theorem witness_BufferAccessIsLittleEndian :
    targetOf ready.cfg 0x40001000 = .buffer 0 ∧ 0 % widthBytes .w32 = 0 ∧ targetOf ready.cfg 0x40001FFC = .buffer 0xFFC ∧
    0xFFC % widthBytes .w32 = 0 ∧ targetOf ready.cfg 0x40001FFF = .buffer 0xFFF ∧ 0xFFF % widthBytes .w8 = 0 ∧
    targetOf ready.cfg 0x40000FFF = .register 0xFFF ∧ targetOf ready.cfg 0x40002000 = .outside ∧
    targetOf ready.cfg 0x3FFFFFFF = .outside ∧ Initialised ready.mem 0 (widthBytes .w32) := by
  refine ⟨by decide +kernel, by decide, by decide +kernel, by decide, by decide +kernel, by decide, by decide +kernel,
    by decide +kernel, by decide +kernel, ?_⟩
  unfold Initialised; decide +kernel

/-- A word whose third byte is the first uninitialised one, and a byte that is uninitialised. -/
theorem witness_UninitialisedHostReadFaults :
    (∃ s : State, targetOf s.cfg 0x40001000 = .buffer 0 ∧ 0 % widthBytes .w32 = 0 ∧ 2 < widthBytes .w32 ∧ Initialised s.mem 0 2 ∧
      s.mem.byteAt (0 + 2) = none) ∧
    Initialised State.reset.mem 0 0 ∧ State.reset.mem.byteAt (0 + 0) = none := by
  refine ⟨⟨{ State.reset with mem := [(0, 1), (1, 2)] }, by decide +kernel, by decide, by decide, ?_, by decide +kernel⟩, ?_, rfl⟩
  · unfold Initialised; decide +kernel
  · unfold Initialised; decide +kernel

theorem witness_BufferAccessHeldWhileBusy :
    ∃ (s t : State) (r : BusReq), s.live = true ∧ s.seq = .busy ∧ s.inputs = .access r :: [] ∧
      targetOf s.cfg (reqAddr r) = .buffer 0xFFF ∧ step s = .next t :=
  ⟨{ issued 0 State.reset with inputs := [.access (.read .w8 0x40001FFF)] }, _, .read .w8 0x40001FFF, rfl, rfl, rfl, by decide +kernel,
    rfl⟩

/-- The last address below the window and the first above it; and an access before the first reset completes. -/
theorem witness_UnansweredAccesses :
    reqAddr (.read .w32 0x3FFFFFFC) < State.reset.cfg.base ∧
    State.reset.cfg.base + 0x1000 + State.reset.cfg.bufBytes ≤ reqAddr (.read .w32 0x40002000) ∧
    ({ State.reset with live := false, inputs := [.access (.read .w32 0x40000000)] }).live = false ∧
    ({ State.reset with live := false, inputs := [.access (.read .w32 0x40000000)] }).inputs = .access (.read .w32 0x40000000) :: [] := by
  decide +kernel

/-- KEYLEN at each legal value and on both sides of the least and the greatest. -/
theorem witness_KeyExpandInstallsOrDestroysSchedule :
    (∀ p ∈ [((16 : BitVec 6), Rounds.r10), (24, .r12), (32, .r14)],
      (({ State.reset with keyLen := p.1 }).keyLen.toNat, p.2) ∈ [(16, Rounds.r10), (24, .r12), (32, .r14)]) ∧
    ∀ n ∈ [(0 : BitVec 6), 15, 17, 31, 33, 63], ({ State.reset with keyLen := n }).keyLen.toNat ∉ [16, 24, 32] := by decide +kernel

/-- Each key length; the first and the last key word; the first and the last derived word; the first round key past Nr. -/
theorem witness_KeyScheduleFollowsRecurrence :
    (∀ p ∈ [(16, 10), (24, 12), (32, 14)], roundsOfKeyLength (List.replicate p.1 (0 : Byte)).length = some p.2) ∧
    (0 < 4 ∧ 0 < 4) ∧ (7 < 8 ∧ 3 < 4) ∧ (4 ≤ 4 ∧ 4 < 4 * (10 + 1)) ∧ (8 ≤ 59 ∧ 59 < 4 * (14 + 1)) ∧ 10 < 11 := by decide +kernel

/-- The first and the last byte, and a round between the first and the final one. -/
theorem witness_RoundsFollowTheCipherRules : (0 < 16 ∧ 15 < 16) ∧ 1 ≤ 10 ∧ (1 ≤ 1 ∧ 1 < 10) ∧ 1 ≤ 9 ∧ 9 < 10 := by decide

theorem witness_BlockCommandsTransformBlkIn : keyed.ksValid = true ∧ State.reset.ksValid = false := by decide +kernel

theorem witness_TablesFollowTheirConstruction : 0 < 8 ∧ 7 < 8 ∧ (1 ≤ 1 ∧ 1 ≤ 9) ∧ (1 ≤ 9 ∧ 9 ≤ 9) := by decide

theorem witness_InverseIsTheUniqueInverse : (0x53 : Byte) ≠ 0 ∧ gmul 0x53 0xCA = 1 := by decide +kernel

theorem witness_EcbProcessesBlocksInOrder :
    (Instr.ecbDec, decryptBlock ready.rk ready.nr.toNat) ∈
      [(Instr.ecbEnc, encryptBlock ready.rk ready.nr.toNat), (.ecbDec, decryptBlock ready.rk ready.nr.toNat)] ∧
    ready.ksValid = true ∧ ready.len.toNat % 16 = 0 ∧ RangesFit ready ∧ Initialised ready.mem ready.src.toNat ready.len.toNat ∧
    1 < ready.len.toNat / 16 :=
  ⟨by simp, rfl, by decide, ready_meets_premises.2.2.2.1, ready_initialised, by decide⟩

theorem witness_CbcEncryptChainsCiphertext :
    ready.ksValid = true ∧ ready.ivLen.toNat = 16 ∧ ready.len.toNat % 16 = 0 ∧ RangesFit ready ∧
    Initialised ready.mem ready.src.toNat ready.len.toNat ∧ 1 < ready.len.toNat / 16 :=
  ⟨rfl, by decide, by decide, ready_meets_premises.2.2.2.1, ready_initialised, by decide⟩

theorem witness_CbcDecryptChainsInput :
    ready.ksValid = true ∧ ready.ivLen.toNat = 16 ∧ ready.len.toNat % 16 = 0 ∧ RangesFit ready ∧
    Initialised ready.mem ready.src.toNat ready.len.toNat ∧ 1 < ready.len.toNat / 16 := witness_CbcEncryptChainsCiphertext

/-- A length that is no multiple of 16: the last chunk is a single byte. -/
theorem witness_CtrTransformAddsKeystream :
    ({ ready with len := 0x11 }).ksValid = true ∧ RangesFit { ready with len := 0x11 } ∧ Initialised ready.mem 0 0x11 ∧
    1 < (0x11 + 15) / 16 := by
  refine ⟨rfl, ?_, ?_, by decide⟩
  · unfold RangesFit; decide +kernel
  · unfold Initialised; decide +kernel

theorem witness_CtrEditRewritesItsBytes :
    editing.ksValid = true ∧ EditFits editing ∧ Initialised editing.mem editing.src.toNat editing.eLen.toNat ∧
    3 < editing.eLen.toNat := ⟨rfl, editing_meets_premises.2.1, editing_initialised, by decide⟩

/-- Every command succeeds on `ready`, whose ranges are disjoint with a gap; ranges that touch, and equal ranges, are admitted too. -/
theorem witness_InPlaceEqualsSeparateBuffers :
    NoClobber ready.src.toNat ready.dst.toNat ready.len.toNat ∧ NoClobber 0 0x20 0x20 ∧ NoClobber 0x20 0 0x20 ∧ NoClobber 4 4 0x20 ∧
    (∃ t, exec .ecbEnc ready = .next t ∧ t.err = false) ∧ (∃ t, exec .ecbDec ready = .next t ∧ t.err = false) ∧
    (∃ t, exec .cbcEnc ready = .next t ∧ t.err = false) ∧ (∃ t, exec .cbcDec ready = .next t ∧ t.err = false) ∧
    (∃ t, exec .ctrXform ready = .next t ∧ t.err = false) ∧ 1 < ready.len.toNat / 16 ∧ 31 < ready.len.toNat :=
  ⟨.inr (.inl (by decide)), .inr (.inl (by decide)), .inr (.inr (by decide)), .inl rfl, ready_ecb (.inl rfl), ready_ecb (.inr rfl),
    ready_cbc (.inl rfl), ready_cbc (.inr rfl), ready_ctr, by decide, by decide⟩

theorem witness_CtrTransformIsAnInvolution :
    ready.ksValid = true ∧ RangesFit ready ∧ NoClobber ready.src.toNat ready.dst.toNat ready.len.toNat ∧
    Initialised ready.mem ready.src.toNat ready.len.toNat ∧ 31 < ready.len.toNat :=
  ⟨rfl, ready_meets_premises.2.2.2.1, .inr (.inl (by decide)), ready_initialised, by decide⟩

/-- The edit ends at the end of the message, and the new plaintext lies above the ciphertext. -/
theorem witness_CtrEditEqualsTransformOfEdited :
    ∃ s : State, s.ksValid = true ∧ RangesFit s ∧ NoClobber s.src.toNat s.dst.toNat s.len.toNat ∧
      Initialised s.mem s.src.toNat s.len.toNat ∧ EditFits { s with src := 0x100 } ∧
      s.dst.toNat + s.len.toNat ≤ (0x100#32).toNat ∧ memRead s.mem (0x100#32).toNat s.eLen.toNat = .ok [0xde, 0xad, 0xbe, 0xef] := by
  refine ⟨{ editing with src := 0 }, rfl, by unfold RangesFit; decide +kernel, .inr (.inl (by decide)), ?_, ?_, by decide +kernel, ?_⟩
  · unfold Initialised; decide +kernel
  · unfold EditFits; decide +kernel
  · rw [memRead_ok_iff]; decide +kernel

theorem witness_ModesRoundTrip :
    (Instr.ecbEnc, Instr.ecbDec) ∈ [(Instr.ecbEnc, Instr.ecbDec), (.cbcEnc, .cbcDec)] ∧
    (Instr.cbcEnc, Instr.cbcDec) ∈ [(Instr.ecbEnc, Instr.ecbDec), (.cbcEnc, .cbcDec)] ∧
    ready.ksValid = true ∧ ready.ivLen.toNat = 16 ∧ ready.len.toNat % 16 = 0 ∧ RangesFit ready ∧
    NoClobber ready.src.toNat ready.dst.toNat ready.len.toNat ∧ Initialised ready.mem ready.src.toNat ready.len.toNat ∧
    31 < ready.len.toNat :=
  ⟨by decide, by decide, rfl, by decide, by decide, ready_meets_premises.2.2.2.1, .inr (.inl (by decide)), ready_initialised, by decide⟩

/-- ECB with the reset value of IVLEN meets the premise that asks IVLEN = 16 of CBC only. -/
theorem witness_ModesRoundTrip_ecb : Instr.ecbEnc = .cbcEnc → ({ ready with ivLen := 0 }).ivLen.toNat = 16 := fun h => nomatch h

/-- The two halves of `ready`'s message. -/
theorem witness_CbcContinuesAcrossCommands :
    Instr.cbcEnc ∈ [Instr.cbcEnc, .cbcDec] ∧ Instr.cbcDec ∈ [Instr.cbcEnc, .cbcDec] ∧ ready.ksValid = true ∧ ready.ivLen.toNat = 16 ∧
    RangesFit ready ∧ Initialised ready.mem ready.src.toNat ready.len.toNat ∧ (0x10#32).toNat % 16 = 0 ∧
    ready.len.toNat = (0x10#32).toNat + (0x10#32).toNat ∧ (0x10#32).toNat = ready.src.toNat + (0x10#32).toNat ∧
    (0x50#32).toNat = ready.dst.toNat + (0x10#32).toNat :=
  ⟨by decide, by decide, rfl, by decide, ready_meets_premises.2.2.2.1, ready_initialised, by decide, by decide, by decide, by decide⟩

theorem witness_CipherCommandsNeedSchedule :
    Instr.blockEnc ∈ cipherCommands ∧ Instr.ctrEdit ∈ cipherCommands ∧ State.reset.ksValid = false ∧
    ∃ t, ({ keyed with keyLen := 33 }).keyLen.toNat ∉ [16, 24, 32] ∧ exec .keyExpand { keyed with keyLen := 33 } = .next t :=
  ⟨by decide, by decide, rfl, _, by decide, rfl⟩

/-- IVLEN on both sides of 16, LEN one below and one above a multiple of 16, and an edit one byte past LEN. -/
theorem witness_ParameterErrorsReportedInOrder :
    keyed.ksValid = true ∧ Instr.cbcEnc ∈ [Instr.cbcEnc, .cbcDec] ∧ ({ ready with ivLen := 15 }).ivLen.toNat ≠ 16 ∧
    ({ ready with ivLen := 17 }).ivLen.toNat ≠ 16 ∧ Instr.cbcDec ∈ [Instr.ecbEnc, .ecbDec, .cbcEnc, .cbcDec] ∧
    ready.ivLen.toNat = 16 ∧ ({ ready with len := 0x1F }).len.toNat % 16 ≠ 0 ∧ ({ ready with len := 0x21 }).len.toNat % 16 ≠ 0 ∧
    ({ editing with offset := 0x1D }).offset.toNat + editing.eLen.toNat > editing.len.toNat := by decide +kernel

theorem witness_CtrTransformHasNoLengthCheck : ∃ t, keyed.ksValid = true ∧ exec .ctrXform { keyed with dst := 0x1001 } = .next t :=
  ⟨_, rfl, exec_error (c := .bufferRange) (by decide +kernel)⟩

/-- A source, a destination and a new plaintext that end one byte past the buffer. -/
theorem witness_RangeErrorsReportedLast :
    ready.ksValid = true ∧ Instr.cbcEnc ∈ [Instr.ecbEnc, .ecbDec, .cbcEnc, .cbcDec, .ctrXform] ∧ ready.ivLen.toNat = 16 ∧
    ready.len.toNat % 16 = 0 ∧ ({ ready with src := 0xFE1 }).src.toNat + ready.len.toNat > ready.cfg.bufBytes ∧
    ({ ready with dst := 0xFE1 }).dst.toNat + ready.len.toNat > ready.cfg.bufBytes ∧
    editing.offset.toNat + editing.eLen.toNat ≤ editing.len.toNat ∧
    ({ editing with src := 0xFFD }).src.toNat + editing.eLen.toNat > editing.cfg.bufBytes := by decide +kernel

theorem witness_FailedCommandsWriteOnlyTheReport :
    (∃ t, State.reset.err = false ∧ exec .keyExpand State.reset = .next t ∧ t.err = true ∧ t.errCode = .invalidKeyLength) ∧
    (∃ t, keyed.err = false ∧ exec .ecbDec { keyed with len := 1 } = .next t ∧ t.err = true ∧ t.errCode ≠ .invalidKeyLength) ∧
    (issued 0x04 State.reset).seq = .busy ∧ decode (issued 0x04 State.reset).pending = .error .unlistedOpcode :=
  ⟨⟨_, rfl, exec_error (c := .invalidKeyLength) (by decide +kernel), rfl, rfl⟩,
    ⟨_, rfl, exec_error (c := .lengthNotBlockMultiple) (by decide +kernel), rfl, by decide +kernel⟩, rfl, by decide +kernel⟩

/-- A command that completes and one that stops, on the first byte of its source. -/
theorem witness_CommandsStopOnlyOnUninitialisedBytes :
    Initialised ready.mem (readRange .ecbEnc ready).1 (readRange .ecbEnc ready).2 ∧ (∃ t, exec .ecbEnc ready = .next t) ∧
    exec .ecbEnc { keyed with len := 0x10 } = .fault (.uninitBufferRead 0) := by
  obtain ⟨t, ht, -⟩ := ready_ecb (.inl rfl)
  exact ⟨ready_initialised, ⟨t, ht⟩, rfl⟩

/-- A message whose first block is initialised and whose second is not: the first uninitialised byte is the first of block 1. -/
theorem witness_CommandsStopOnUninitialisedBlock :
    let s := { ready with mem := memWrite [] 0 (hex16 plain) }
    commandError .ecbEnc s = none ∧ commandError .cbcDec s = none ∧ commandError .ctrXform s = none ∧
    NoClobber (readRange .ecbEnc s).1 (storedRange .ecbEnc s).1 (readRange .ecbEnc s).2 ∧ 16 < (readRange .ecbEnc s).2 ∧
    Initialised s.mem (readRange .ecbEnc s).1 16 ∧ s.mem.byteAt ((readRange .ecbEnc s).1 + 16) = none := by
  refine ⟨by decide +kernel, by decide +kernel, by decide +kernel, .inr (.inl (by decide +kernel)), by decide, ?_, by decide +kernel⟩
  unfold Initialised; decide +kernel

/-- A CTR edit whose new plaintext is not initialised. -/
theorem witness_CommandsStopOnUninitialisedEdit :
    let s := { editing with mem := ready.mem }
    commandError .ctrEdit s = none ∧ NoClobber (readRange .ctrEdit s).1 (storedRange .ctrEdit s).1 (readRange .ctrEdit s).2 ∧
    0 < (readRange .ctrEdit s).2 ∧ Initialised s.mem (readRange .ctrEdit s).1 0 ∧
    s.mem.byteAt ((readRange .ctrEdit s).1 + 0) = none :=
  ⟨by decide +kernel, .inr (.inr (by decide +kernel)), by decide, fun k hk => absurd hk (Nat.not_lt_zero k), by decide +kernel⟩

theorem issued_inv (w : Word) : Inv (issued w State.reset) where
  memWf := show Memory.wf [] by decide +kernel
  memBound := fun c h => nomatch h
  validIffRounds := show (false = true ↔ Rounds.r0 ≠ .r0) by decide
  validSchedule := fun h => nomatch h
  noSchedule := fun _ => rfl
  busyReport := fun _ => ⟨rfl, rfl, rfl, rfl⟩
  errIffCode := show (false = true ↔ ErrCode.noError ≠ .noError) by decide
  beforeReset := fun h => nomatch h

/-- A completion in a state that meets the invariant, and an idle step that is none of the four events that change the report. -/
theorem witness_ReportIsExactAndStays :
    (∃ t, Inv { issued 0x10 State.reset with inputs := [.engine] } ∧ (issued 0x10 State.reset).seq = .busy ∧
      step { issued 0x10 State.reset with inputs := [.engine] } = .next t ∧ t.seq = .idle) ∧
    ∃ s t : State, s.seq = .idle ∧ step s = .next t ∧ s.inputs.head? ≠ some .reset ∧ s.inputs.head? ≠ some .powerOn ∧
      ∀ v, s.inputs.head? ≠ some (.access (.write .w32 (s.cfg.base + regOffset .status) v)) ∧
        s.inputs.head? ≠ some (.access (.write .w32 (s.cfg.base + regOffset .cmd) v)) := by
  refine ⟨⟨_, ?_, rfl, rfl, rfl⟩, ⟨{ State.reset with inputs := [.access (.read .w32 0x40000004)] }, _, rfl, rfl, ?_, ?_, fun v => ?_⟩⟩
  · have h := issued_inv 0x10
    exact ⟨h.memWf, h.memBound, h.validIffRounds, h.validSchedule, h.noSchedule, h.busyReport, h.errIffCode, h.beforeReset⟩
  · simp
  · simp
  · simp

/-- A completion with IE = 1, a write that sets IE while DONE = 1, and a reset. -/
theorem witness_InterruptRaisedOnlyByCompletionOrEnable :
    (∃ t, step { issued 0x21 State.reset with ie := true } = .next t ∧ ({ issued 0x21 State.reset with ie := true }).irq = false ∧
      t.irq = true) ∧
    (∃ t, step { State.reset with done := true, inputs := [.access (.write .w32 0x40000008 1)] } = .next t ∧ t.irq = true) ∧
    ∃ t, step { State.reset with inputs := [.reset] } = .next t :=
  ⟨⟨_, rfl, by decide, rfl⟩, ⟨_, rfl, by decide +kernel⟩, ⟨_, rfl⟩⟩

/-- A W1C of DONE, a write of 0 to IE, and an issue, each with `irq` high before it. -/
theorem witness_InterruptLowered :
    let s := { State.reset with ie := true, done := true }
    s.irq = true ∧ s.seq = .idle ∧
    (∃ t, step { s with inputs := [.access (.write .w32 0x40000004 2)] } = .next t ∧ t.irq = false) ∧
    (∃ t, step { s with inputs := [.access (.write .w32 0x40000008 0)] } = .next t ∧ t.irq = false) ∧
    ∃ t, step { s with inputs := [.access (.write .w32 0x40000000 0x20)] } = .next t ∧ t.irq = false :=
  ⟨rfl, rfl, ⟨_, rfl, by decide +kernel⟩, ⟨_, rfl, by decide +kernel⟩, ⟨_, rfl, by decide +kernel⟩⟩

/-- A dropped write, and a write that clears OVR. -/
theorem witness_OverrunIsStickyAndOnlyFromDroppedWrites :
    (∃ t, step { issued 1 State.reset with inputs := [.access (.write .w32 0x4000004C 5)] } = .next t ∧
      (issued 1 State.reset).live = true ∧ Reg.src ∈ droppedRegs ∧ 0x4000004C = State.reset.cfg.base + regOffset .src ∧
      (issued 1 State.reset).ovr = false ∧ t.ovr = true) ∧
    ∃ t, step { State.reset with ovr := true, inputs := [.access (.write .w32 0x40000004 8)] } = .next t ∧ t.ovr = false :=
  ⟨⟨_, rfl, rfl, by decide, by decide +kernel, by decide, by decide +kernel⟩, ⟨_, rfl, by decide +kernel⟩⟩

theorem witness_ResultIsAsAtIssue :
    ∃ (s t u : State) (r : BusReq), s.seq = .busy ∧ targetOf s.cfg (reqAddr r) = .register 0x4C ∧ busAccess r s = .next t ∧
      exec .gfInv s = .next u :=
  ⟨issued 0x21 State.reset, _, _, .write .w32 0x4000004C 5, rfl, by decide +kernel, rfl, rfl⟩

theorem witness_IssueThenCompletion :
    ∃ (s : State), s.live = true ∧ s.seq = .idle ∧
      s.inputs = .access (.write .w32 (s.cfg.base + regOffset .cmd) (encode .ecbEnc)) :: .engine :: [] ∧
      Initialised s.mem (readRange .ecbEnc s).1 (readRange .ecbEnc s).2 :=
  ⟨{ ready with inputs := [cmdLine Config.specExamples .ecbEnc, .engine] }, rfl, rfl, rfl, ready_initialised⟩

theorem witness_ResetValues : Reg.cmd ≠ .id ∧ Reg.cmd ≠ .bufSize ∧ Reg.gfR ≠ .id ∧ Reg.gfR ≠ .bufSize := by decide

theorem witness_ResetEventsRestoreResetValues :
    ({ ready with inputs := [.reset] }).inputs = .reset :: [] ∧ ready.seq = .idle ∧
    ({ ready with inputs := [.powerOn] }).inputs = .powerOn :: [] := by decide +kernel

/-- A reset over ECB_ENC and CTR_EDIT whose checks pass, over one whose check fails, over a probe, and over no command. -/
theorem witness_ResetAbortsCommandInFlight :
    (issued 0x10 ready).seq = .busy ∧ (∃ t, step { issued 0x10 ready with inputs := [.reset] } = .next t) ∧
    decode (issued 0x10 ready).pending = .ok .ecbEnc ∧ commandError .ecbEnc (issued 0x10 ready) = none ∧
    decode (issued 0x15 editing).pending = .ok .ctrEdit ∧ commandError .ctrEdit (issued 0x15 editing) = none ∧
    (commandError .ecbEnc (issued 0x10 { ready with len := 1 })).isSome = true ∧
    Instr.gfMul ∉ [Instr.ecbEnc, .ecbDec, .cbcEnc, .cbcDec, .ctrXform, .ctrEdit] ∧
    decode (issued 0x122 ready).pending = .error .reservedBitsSet :=
  ⟨rfl, ⟨_, rfl⟩, by decide +kernel, by decide +kernel, by decide +kernel, by decide +kernel, by decide +kernel, by decide,
    by decide +kernel⟩

theorem witness_StepKeepsTheInvariant : ∃ t, Inv (issued 0x01 State.reset) ∧ step (issued 0x01 State.reset) = .next t :=
  ⟨_, issued_inv _, rfl⟩

end Sys2Proof.Tests
end

/-! PROOFS. The byte order of registers, blocks and buffer accesses, the address map, and the range errors. -/

namespace Sys2Proof.Machine

/-! ### Bytes of register groups and blocks -/

/-- Byte `m` of register `j` of a group is byte `4j+m` of the group (rule R10). -/
theorem groupByte_reg {n : Nat} (v : Vector Word n) (j : Fin n) {m : Nat} (hm : m < 4) :
    groupByte v (4 * j.val + m) = (v[j]).extractLsb' (8 * m) 8 := by
  have hdiv : (4 * j.val + m) / 4 = j.val := by omega
  have hmod : (4 * j.val + m) % 4 = m := by omega
  simp [groupByte, hdiv, hmod]

theorem groupByte_set_same {n : Nat} (v : Vector Word n) (j : Fin n) (w : Word) {m : Nat} (hm : m < 4) :
    groupByte (v.set j w) (4 * j.val + m) = w.extractLsb' (8 * m) 8 := by
  simp [groupByte_reg _ j hm]

theorem groupByte_set_other {n : Nat} (v : Vector Word n) (j : Fin n) (w : Word) {k : Nat} (hk : k / 4 ≠ j.val) :
    groupByte (v.set j w) k = groupByte v k := by
  simp only [groupByte, Vector.getElem?_set_ne j.isLt hk.symm]

theorem getElem?_groupBytes {n : Nat} (v : Vector Word n) {len k : Nat} (hk : k < len) :
    (groupBytes v len)[k]? = some (groupByte v k) := by
  simp [groupBytes, hk]

theorem blockByte_groupBlock (v : Vector Word 4) {k : Nat} (hk : k < 16) : blockByte (groupBlock v) k = groupByte v k := by
  interval_cases k <;> rfl

theorem groupByte_blockGroup (b : Block) {k : Nat} (hk : k < 16) : groupByte (blockGroup b) k = blockByte b k := by
  rw [← blockByte_groupBlock _ hk, groupBlock_blockGroup]

theorem getElem?_eq_blockByte {d : List Byte} {k : Nat} (hd : d.length = 16) (hk : k < 16) :
    d[k]? = some (blockByte (blockOfBytes d) k) := by
  rw [← getElem?_blockBytes _ hk, blockBytes_blockOfBytes hd]

/-- Byte `r + 4c` of a block is its matrix entry (rule R9). -/
theorem blockByte_matrixAt (b : Block) (r c : Fin 4) : blockByte b (r.val + 4 * c.val) = matrixAt b r c := by
  fin_cases r <;> fin_cases c <;> rfl

/-- Settles O14: a KEY write is a `Vector.set`, and each conversion between words, blocks and byte sequences keeps byte `k`. -/
theorem keyRegistersAreLittleEndian : Obligations.KeyRegistersAreLittleEndian := by
  unfold Obligations.KeyRegistersAreLittleEndian
  refine ⟨fun s j v hidle => ?_, fun s m hm => ?_, fun v k hk => blockByte_groupBlock v hk,
    fun b k hk => groupByte_blockGroup b hk, fun b => ⟨length_blockBytes b, fun k hk => getElem?_blockBytes b hk⟩,
    fun d k hd hk => getElem?_eq_blockByte hd hk, blockByte_matrixAt⟩
  · rw [writeReg_idle hidle]
    exact ⟨fun m hm => groupByte_set_same s.key j v hm, fun k hk => groupByte_set_other s.key j v hk,
      length_groupBytes _ _, fun k hk => getElem?_groupBytes s.key hk⟩
  · exact ⟨fun j => (groupByte_reg s.key j hm).symm, fun j =>
      ⟨(groupByte_reg s.iv j hm).symm, (groupByte_reg s.blkIn j hm).symm, (groupByte_reg s.blkOut j hm).symm,
        (groupByte_reg s.chain j hm).symm⟩⟩

/-! ### The parameters -/

theorem base_mod (c : Config) : c.base % 0x2000 = 0 := Nat.mul_mod_right _ _

theorem bufBytes_mod (c : Config) : c.bufBytes % 16 = 0 := Nat.mul_mod_right _ _

theorem bufBytes_ge (c : Config) : 16 ≤ c.bufBytes := by
  unfold Config.bufBytes; omega

theorem bufBytes_le (c : Config) : c.bufBytes ≤ 2 ^ 20 := by
  unfold Config.bufBytes; omega

/-! ### Aligned buffer accesses -/

/-- BUF_BYTES is a multiple of every access width, so an aligned access that starts in the buffer ends in it. -/
theorem aligned_access_in_buffer {c : Config} {w : Width} {a : Nat} (ha : a < c.bufBytes) (hal : a % widthBytes w = 0) :
    a + widthBytes w ≤ c.bufBytes := by
  have h16 := bufBytes_mod c
  cases w <;> simp only [widthBytes] at hal ⊢ <;> omega

/-- Byte `k` a write puts on the bus is data bits `8k+7 : 8k` (rule R75). -/
theorem getElem?_dataBytes (w : Width) (v : Word) {k : Nat} (hk : k < widthBytes w) :
    (dataBytes w v)[k]? = some (v.extractLsb' (8 * k) 8) := by
  simp [dataBytes, hk]

section Aligned

variable {s : State} {w : Width} {addr a : Nat}

theorem busAccess_write_buffer (ht : targetOf s.cfg addr = .buffer a) (hal : a % widthBytes w = 0) (v : Word) :
    busAccess (.write w addr v) s =
      .next { s with mem := memWrite s.mem a (dataBytes w v), resp := some .writeDone } := by
  have hin := aligned_access_in_buffer (targetOf_buffer ht).2 hal
  simp only [busAccess, reqAddr, ht, bufferAccess, reqWidth, hal, hin, and_self, if_true]; rfl

theorem busAccess_read_buffer (ht : targetOf s.cfg addr = .buffer a) (hal : a % widthBytes w = 0) {bs : List Byte}
    (hr : memRead s.mem a (widthBytes w) = .ok bs) :
    busAccess (.read w addr) s = .next { s with resp := some (.readBytes bs) } := by
  have hin := aligned_access_in_buffer (targetOf_buffer ht).2 hal
  simp only [busAccess, reqAddr, ht, bufferAccess, reqWidth, hal, hin, and_self, if_true, hr]; rfl

end Aligned

theorem byteAt_memWrite_inside (m : Memory) (a : Nat) (bs : List Byte) {k : Nat} (hk : k < bs.length) :
    (memWrite m a bs).byteAt (a + k) = bs[k]? := by
  rw [byteAt_memWrite, if_pos (by omega), Nat.add_sub_cancel_left]

theorem byteAt_memWrite_outside (m : Memory) (a : Nat) (bs : List Byte) {b : Nat} (hb : ¬(a ≤ b ∧ b < a + bs.length)) :
    (memWrite m a bs).byteAt b = m.byteAt b := by
  rw [byteAt_memWrite, if_neg hb]

/-- Settles O21: the address map is `targetOf`'s two characterisations, and an aligned access is one `memRead` or `memWrite`. -/
theorem bufferAccessIsLittleEndian : Obligations.BufferAccessIsLittleEndian := by
  unfold Obligations.BufferAccessIsLittleEndian
  refine ⟨fun c addr a => ⟨targetOf_buffer_iff, targetOf_register_iff, base_mod c, bufBytes_mod c, bufBytes_ge c, bufBytes_le c⟩,
    ⟨rfl, rfl, rfl⟩, fun w addr v => ⟨rfl, rfl, rfl, rfl⟩,
    fun m a b n v bs => ⟨memRead_ok_iff, byteAt_memWrite m a bs b, byteAt_setByte m a b v⟩,
    fun s w addr a ht hal => ⟨aligned_access_in_buffer (targetOf_buffer ht).2 hal, fun v => ?_, fun hinit => ?_⟩⟩
  · have hlen := length_dataBytes w v
    refine ⟨_, busAccess_write_buffer ht hal v, fun k hk => ?_, fun b hb => ?_⟩
    · rw [byteAt_memWrite_inside _ _ _ (hlen ▸ hk), getElem?_dataBytes w v hk]
    · exact byteAt_memWrite_outside _ _ _ (hlen ▸ hb)
  · obtain ⟨bs, hr⟩ := memRead_exists hinit
    obtain ⟨hlen, hbytes⟩ := memRead_ok_iff.mp hr
    exact ⟨bs, busAccess_read_buffer ht hal hr, hlen, fun k hk => (hbytes k hk).symm⟩

/-! ### Range errors -/

/-- A command whose first failing check is not KEYLEN's writes only the report (rule R259). -/
theorem exec_failed {i : Instr} {s : State} {c : ErrCode} (h : commandError i s = some c) (hc : c ≠ .invalidKeyLength) :
    exec i s = .next (failed c s) := by
  rw [exec_error h, completeError_eq_failed hc]

/-- With every earlier check passed, a command over `[SRC, SRC+LEN)` and `[DST, DST+LEN)` reports the range that does not fit. -/
theorem commandError_bufferRange {s : State} {i : Instr} (hi : i ∈ [Instr.ecbEnc, .ecbDec, .cbcEnc, .cbcDec, .ctrXform])
    (hks : s.ksValid = true) (hiv : i ∈ [Instr.cbcEnc, .cbcDec] → s.ivLen.toNat = 16)
    (hlen : i ≠ .ctrXform → s.len.toNat % 16 = 0)
    (hr : s.src.toNat + s.len.toNat > s.cfg.bufBytes ∨ s.dst.toNat + s.len.toNat > s.cfg.bufBytes) :
    commandError i s = some .bufferRange := by
  have hfam : i ∈ [Instr.ecbEnc, .ecbDec] ∨ i ∈ [Instr.cbcEnc, .cbcDec] ∨ i = .ctrXform := by
    simp only [List.mem_cons, List.not_mem_nil, or_false] at hi ⊢; tauto
  rcases hfam with hecb | hcbc | rfl
  · have hmod : s.len.toNat % 16 = 0 := hlen (by rintro rfl; simp at hecb)
    simp [commandError_ecb hecb, hks, hmod, hr]
  · have hmod : s.len.toNat % 16 = 0 := hlen (by rintro rfl; simp at hcbc)
    simp [commandError_cbc hcbc, hks, hiv hcbc, hmod, hr]
  · simp [commandError_ctrXform, hks, hr]

theorem commandError_ctrEdit_bufferRange {s : State} (hks : s.ksValid = true)
    (hb : s.offset.toNat + s.eLen.toNat ≤ s.len.toNat)
    (hr : s.dst.toNat + s.len.toNat > s.cfg.bufBytes ∨ s.src.toNat + s.eLen.toNat > s.cfg.bufBytes) :
    commandError .ctrEdit s = some .bufferRange := by
  rw [commandError_ctrEdit, if_neg (by simp [hks]), if_neg (by omega), if_pos hr]

/-- Settles O48: the first check that fails is the range check, and its report is all that is written. -/
theorem rangeErrorsReportedLast : Obligations.RangeErrorsReportedLast := by
  unfold Obligations.RangeErrorsReportedLast
  intro s hks
  exact ⟨fun i hi hiv hlen hr => exec_failed (commandError_bufferRange hi hks hiv hlen hr) (by decide),
    fun hb hr => exec_failed (commandError_ctrEdit_bufferRange hks hb hr) (by decide)⟩

end Sys2Proof.Machine

/-! PROOFS. The invariant kept by every step; the registers as software writes and reads them; what each command does, leaves
unchanged and reports; and the whole course of a command from its issue to its completion. -/

namespace Sys2Proof.Machine

/-! ### The checks that pass -/

theorem failIf_none {p : Prop} [Decidable p] {c : ErrCode} : failIf p c = none ↔ ¬p := by
  simp [failIf]

theorem checkKeyLen_none {s : State} : checkKeyLen s = none ↔ (roundsOfKeyLength s.keyLen.toNat).isNone ≠ true := failIf_none

theorem checkSchedule_none {s : State} : checkSchedule s = none ↔ s.ksValid = true := by
  simp [checkSchedule, failIf_none]

theorem checkIvLen_none {s : State} : checkIvLen s = none ↔ s.ivLen.toNat = 16 := by
  rw [checkIvLen, failIf_none, not_not]

theorem checkBlockMultiple_none {s : State} : checkBlockMultiple s = none ↔ s.len.toNat % 16 = 0 := by
  rw [checkBlockMultiple, failIf_none, not_not]

theorem checkRanges_none {s : State} : checkRanges s = none ↔ RangesFit s := by
  rw [checkRanges, failIf_none, not_or, Nat.not_lt, Nat.not_lt, RangesFit]

theorem checkEdit_none {s : State} : checkEditBounds s = none ∧ checkEditRanges s = none ↔ EditFits s := by
  rw [checkEditBounds, checkEditRanges, failIf_none, failIf_none, not_or, Nat.not_lt, Nat.not_lt, Nat.not_lt, EditFits]

/-- A command passes when every one of its checks does (rule R253). -/
theorem commandError_none_iff {i : Instr} {s : State} : commandError i s = none ↔ ∀ c ∈ commandChecks i s, c = none := by
  simp [commandError]

theorem commandError_none_keyExpand {s : State} :
    commandError .keyExpand s = none ↔ (roundsOfKeyLength s.keyLen.toNat).isNone ≠ true := by
  simp [commandError_none_iff, commandChecks, checkKeyLen_none]

theorem commandError_none_block {i : Instr} (hi : i ∈ [Instr.blockEnc, .blockDec]) {s : State} :
    commandError i s = none ↔ s.ksValid = true := by
  simp only [List.mem_cons, List.not_mem_nil, or_false] at hi
  rcases hi with rfl | rfl <;> simp [commandError_none_iff, commandChecks, checkSchedule_none]

theorem commandError_none_ecb {i : Instr} (hi : i ∈ [Instr.ecbEnc, .ecbDec]) {s : State} :
    commandError i s = none ↔ s.ksValid = true ∧ s.len.toNat % 16 = 0 ∧ RangesFit s := by
  simp only [List.mem_cons, List.not_mem_nil, or_false] at hi
  rcases hi with rfl | rfl <;>
    simp [commandError_none_iff, commandChecks, checkSchedule_none, checkBlockMultiple_none, checkRanges_none]

theorem commandError_none_cbc {i : Instr} (hi : i ∈ [Instr.cbcEnc, .cbcDec]) {s : State} :
    commandError i s = none ↔ s.ksValid = true ∧ s.ivLen.toNat = 16 ∧ s.len.toNat % 16 = 0 ∧ RangesFit s := by
  simp only [List.mem_cons, List.not_mem_nil, or_false] at hi
  rcases hi with rfl | rfl <;>
    simp [commandError_none_iff, commandChecks, checkSchedule_none, checkIvLen_none, checkBlockMultiple_none, checkRanges_none]

theorem commandError_none_ctrXform {s : State} : commandError .ctrXform s = none ↔ s.ksValid = true ∧ RangesFit s := by
  simp [commandError_none_iff, commandChecks, checkSchedule_none, checkRanges_none]

theorem commandError_none_ctrEdit {s : State} : commandError .ctrEdit s = none ↔ s.ksValid = true ∧ EditFits s := by
  simp [commandError_none_iff, commandChecks, checkSchedule_none, ← checkEdit_none]

/-! ### What the writes of a command can change -/

/-- `m'` is `m` after writes inside `[a, a+n)` only. -/
structure WrittenWithin (a n : Nat) (m m' : Memory) : Prop where
  wf : m.wf → m'.wf
  bound : ∀ B, a + n ≤ B → (∀ c ∈ m, c.1 < B) → ∀ c ∈ m', c.1 < B
  frame : ∀ b, ¬(a ≤ b ∧ b < a + n) → m'.byteAt b = m.byteAt b

theorem writtenWithin_refl (a n : Nat) (m : Memory) : WrittenWithin a n m m :=
  ⟨id, fun _ _ h => h, fun _ _ => rfl⟩

theorem ChunkTrace.writtenWithin {f : ChunkFn} {src dst len : Nat} {bufs : Nat → Memory} {chain : Nat → Block}
    (h : ChunkTrace f src dst len (chunkCount len) 0 bufs chain) (hf : KeepsLength f len) :
    WrittenWithin dst len (bufs 0) (bufs (chunkCount len)) where
  wf h0 := h.wf h0 le_rfl
  bound _ hB h0 := h.bound hf le_rfl hB h0 le_rfl
  frame b hb := h.frame hf le_rfl le_rfl (by unfold chunkCount; omega)

theorem EditTrace.writtenWithin {s : State} {n : Nat} {bufs : Nat → Memory} (h : EditTrace s n 0 bufs) :
    WrittenWithin (s.dst.toNat + s.offset.toNat) n (bufs 0) (bufs n) where
  wf h0 := h.wf h0 le_rfl
  bound _ hB h0 := h.bound hB h0 le_rfl
  frame _ hb := h.frame le_rfl hb

theorem bufferWrites_writtenWithin {f : ChunkFn} {s u : State} (hf : KeepsLength f s.len.toNat) (h : bufferWrites f s = .ok u) :
    WrittenWithin s.dst.toNat s.len.toNat s.mem u.mem := by
  obtain ⟨bufs, chain, h0, -, ht, rfl⟩ := bufferWrites_ok h
  exact h0 ▸ ht.writtenWithin hf

theorem cbcWrites_writtenWithin {f : ChunkFn} {s u : State} (hf : KeepsLength f s.len.toNat) (h : cbcWrites f s = .ok u) :
    WrittenWithin s.dst.toNat s.len.toNat s.mem u.mem := by
  obtain ⟨bufs, chain, h0, -, ht, rfl⟩ := cbcWrites_ok h
  exact h0 ▸ ht.writtenWithin hf

theorem ctrEditWrites_writtenWithin {s u : State} (h : ctrEditWrites s = .ok u) :
    WrittenWithin (s.dst.toNat + s.offset.toNat) s.eLen.toNat s.mem u.mem := by
  obtain ⟨bufs, h0, ht, rfl⟩ := ctrEditWrites_ok h
  exact h0 ▸ ht.writtenWithin

/-- A command whose checks pass writes no buffer byte outside its stored range (rules R151 to R157). -/
theorem writesOf_writtenWithin {i : Instr} {s u : State} (hc : commandError i s = none) (h : writesOf i s = .ok u) :
    WrittenWithin (storedRange i s).1 (storedRange i s).2 s.mem u.mem := by
  cases i
  case ecbEnc | ecbDec => exact bufferWrites_writtenWithin (keepsLength_ecb (len_mod_of_commandError_none (by simp) hc)) h
  case cbcEnc => exact cbcWrites_writtenWithin (keepsLength_cbcEnc (len_mod_of_commandError_none (by simp) hc)) h
  case cbcDec => exact cbcWrites_writtenWithin (keepsLength_cbcDec (len_mod_of_commandError_none (by simp) hc)) h
  case ctrXform => exact bufferWrites_writtenWithin (keepsLength_ctr s _) h
  case ctrEdit => exact ctrEditWrites_writtenWithin h
  all_goals cases h; exact writtenWithin_refl _ _ _

/-- The writes of ECB and CTR go to the buffer only. -/
theorem writesOf_buffer_frame {i : Instr} {s u : State} (hi : i ∈ [Instr.ecbEnc, .ecbDec, .ctrXform, .ctrEdit])
    (h : writesOf i s = .ok u) : u = { s with mem := u.mem } := by
  simp only [List.mem_cons, List.not_mem_nil, or_false] at hi
  rcases hi with rfl | rfl | rfl | rfl
  · obtain ⟨bufs, -, -, -, -, rfl⟩ := bufferWrites_ok h; rfl
  · obtain ⟨bufs, -, -, -, -, rfl⟩ := bufferWrites_ok h; rfl
  · obtain ⟨bufs, -, -, -, -, rfl⟩ := bufferWrites_ok h; rfl
  · obtain ⟨bufs, -, -, rfl⟩ := ctrEditWrites_ok h; rfl

/-- The writes of CBC go to the buffer and CHAIN. -/
theorem writesOf_cbc_frame {i : Instr} {s u : State} (hi : i ∈ [Instr.cbcEnc, .cbcDec]) (h : writesOf i s = .ok u) :
    u = { s with mem := u.mem, chain := u.chain } := by
  simp only [List.mem_cons, List.not_mem_nil, or_false] at hi
  rcases hi with rfl | rfl
  · obtain ⟨bufs, chain, -, -, -, rfl⟩ := cbcWrites_ok h; rfl
  · obtain ⟨bufs, chain, -, -, -, rfl⟩ := cbcWrites_ok h; rfl

/-- The writes of BLOCK_ENC and BLOCK_DEC go to BLK_OUT. -/
theorem writesOf_block_frame {i : Instr} {s u : State} (hi : i ∈ [Instr.blockEnc, .blockDec]) (h : writesOf i s = .ok u) :
    u = { s with blkOut := u.blkOut } := by
  simp only [List.mem_cons, List.not_mem_nil, or_false] at hi
  rcases hi with rfl | rfl <;> (cases h; rfl)

/-- The writes of a probe go to GF_R. -/
theorem writesOf_probe_frame {i : Instr} {s u : State} (hi : i ∈ [Instr.gfMul, .gfInv, .sboxFwd, .sboxInv])
    (h : writesOf i s = .ok u) : u = { s with gfR := u.gfR } := by
  simp only [List.mem_cons, List.not_mem_nil, or_false] at hi
  rcases hi with rfl | rfl | rfl | rfl <;> (cases h; rfl)

/-- KEY_EXPAND alone writes the round-key store (rule R45). -/
theorem writesOf_schedule {i : Instr} {s u : State} (hi : i ≠ .keyExpand) (h : writesOf i s = .ok u) :
    u.rk = s.rk ∧ u.nr = s.nr ∧ u.ksValid = s.ksValid := by
  cases i
  case keyExpand => exact absurd rfl hi
  case cbcEnc | cbcDec => rw [writesOf_cbc_frame (by simp) h]; exact ⟨rfl, rfl, rfl⟩
  case ecbEnc | ecbDec | ctrXform | ctrEdit => rw [writesOf_buffer_frame (by simp) h]; exact ⟨rfl, rfl, rfl⟩
  all_goals cases h; exact ⟨rfl, rfl, rfl⟩

/-- A command other than KEY_EXPAND either only reports its error or makes its writes. -/
theorem exec_next_failed_or_writes {i : Instr} {s t : State} (hi : i ≠ .keyExpand) (h : exec i s = .next t) :
    (∃ c, t = failed c s) ∨ ∃ u, writesOf i s = .ok u ∧ t = reportSuccess u := by
  rcases exec_next_cases h with ⟨c, hc, rfl⟩ | ⟨-, u, hu, rfl⟩
  · exact .inl ⟨c, completeError_eq_failed (fun hk => hi (commandError_keyLength (hk ▸ hc))) s⟩
  · exact .inr ⟨u, hu, rfl⟩

theorem exec_schedule {i : Instr} {s t : State} (hi : i ≠ .keyExpand) (h : exec i s = .next t) :
    t.rk = s.rk ∧ t.nr = s.nr ∧ t.ksValid = s.ksValid := by
  rcases exec_next_failed_or_writes hi h with ⟨c, rfl⟩ | ⟨u, hu, rfl⟩
  · exact ⟨rfl, rfl, rfl⟩
  · exact (writesOf_schedule hi hu :)

@[simp] theorem completeError_mem (c : ErrCode) (s : State) : (completeError c s).mem = s.mem := by
  cases c <;> rfl

theorem exec_writtenWithin {i : Instr} {s t : State} (h : exec i s = .next t) :
    WrittenWithin (storedRange i s).1 (storedRange i s).2 s.mem t.mem := by
  rcases exec_next_cases h with ⟨c, -, rfl⟩ | ⟨hc, u, hu, rfl⟩
  · rw [completeError_mem]; exact writtenWithin_refl _ _ _
  · rw [reportSuccess_mem]; exact writesOf_writtenWithin hc hu

/-- A command whose checks pass stores inside the buffer (rules R257 and R258). -/
theorem storedRange_le_bufBytes {i : Instr} {s : State} (h : commandError i s = none) :
    (storedRange i s).1 + (storedRange i s).2 ≤ s.cfg.bufBytes := by
  cases i
  case ecbEnc | ecbDec =>
    obtain ⟨-, -, -, hdst⟩ := (commandError_none_ecb (by simp)).mp h
    exact hdst
  case cbcEnc | cbcDec =>
    obtain ⟨-, -, -, -, hdst⟩ := (commandError_none_cbc (by simp)).mp h
    exact hdst
  case ctrXform =>
    obtain ⟨-, -, hdst⟩ := commandError_none_ctrXform.mp h
    exact hdst
  case ctrEdit =>
    obtain ⟨-, hbounds, hdst, -⟩ := commandError_none_ctrEdit.mp h
    simp only [storedRange]; omega
  all_goals exact Nat.zero_le _

/-! ### The three parts of the invariant -/

/-- The buffer is canonical and inside BUF_BYTES (rules R71 and R72). -/
structure BufferOk (c : Config) (m : Memory) : Prop where
  wf : m.wf
  bound : ∀ x ∈ m, x.1 < c.bufBytes

/-- KS_VALID, NR and the round-key store agree as rule R45 says. -/
structure ScheduleOk (valid : Bool) (nr : Rounds) (rk : Vector Block 15) : Prop where
  validIffRounds : valid = true ↔ nr ≠ .r0
  expansion : valid = true → ∃ key : List Byte, roundsOfKeyLength key.length = some nr.toNat ∧ rk = keyExpansion key nr.toNat
  zero : valid = false → rk = Vector.replicate 15 Block.zero

/-- The report agrees with SEQ and with ERRCODE (rules R47, R48 and R250), and with `live` (log entry 7). -/
structure ReportOk (s : State) : Prop where
  busy : s.seq = .busy → s.done = false ∧ s.err = false ∧ s.errCode = .noError ∧ s.lastOp = s.pending.extractLsb' 0 8
  errIffCode : s.err = true ↔ s.errCode ≠ .noError
  beforeReset : s.live = false → s.seq = .idle ∧ s.irq = false

theorem inv_iff {s : State} : Inv s ↔ BufferOk s.cfg s.mem ∧ ScheduleOk s.ksValid s.nr s.rk ∧ ReportOk s := by
  constructor
  · intro h
    exact ⟨⟨h.memWf, h.memBound⟩, ⟨h.validIffRounds, h.validSchedule, h.noSchedule⟩,
      ⟨h.busyReport, h.errIffCode, h.beforeReset⟩⟩
  · rintro ⟨hm, hk, hr⟩
    exact ⟨hm.wf, hm.bound, hk.validIffRounds, hk.expansion, hk.zero, hr.busy, hr.errIffCode, hr.beforeReset⟩

theorem bufferOk_nil (c : Config) : BufferOk c [] := ⟨List.Pairwise.nil, nofun⟩

theorem BufferOk.memWrite {c : Config} {m : Memory} (h : BufferOk c m) {a : Nat} {bs : List Byte}
    (hin : a + bs.length ≤ c.bufBytes) : BufferOk c (memWrite m a bs) where
  wf := wf_memWrite h.wf a bs
  bound x hx := by
    rcases mem_memWrite hx with hx | ⟨-, hlt⟩
    · exact h.bound x hx
    · omega

theorem BufferOk.clearRange {c : Config} {m : Memory} (h : BufferOk c m) (a n : Nat) : BufferOk c (m.clearRange a n) :=
  ⟨wf_clearRange h.wf a n, fun x hx => h.bound x (mem_clearRange hx)⟩

theorem scheduleOk_none : ScheduleOk false .r0 (Vector.replicate 15 Block.zero) :=
  ⟨by decide, nofun, fun _ => rfl⟩

/-- The store KEY_EXPAND installs for a legal key length (rule R139). -/
theorem scheduleOk_keyExpansion {key : List Byte} (h : (roundsOfKeyLength key.length).isNone ≠ true) :
    ScheduleOk true (roundsField key.length) (keyExpansion key (roundsField key.length).toNat) := by
  have hlen : key.length = 16 ∨ key.length = 24 ∨ key.length = 32 := by
    by_contra hn
    simp only [not_or] at hn
    exact h (by simp [roundsOfKeyLength, hn])
  refine ⟨?_, fun _ => ⟨key, ?_, rfl⟩, nofun⟩ <;> rcases hlen with hl | hl | hl <;> rw [hl] <;> decide

/-- Any state that is not busy, whose error report is consistent and that is live, has a sound report. -/
theorem ReportOk.of_idle {s : State} (hseq : s.seq = .idle) (hlive : s.live = true)
    (herr : s.err = true ↔ s.errCode ≠ .noError) : ReportOk s :=
  ⟨fun hb => by simp [hseq] at hb, herr, fun hl => by simp [hlive] at hl⟩

/-! ### Reset and power-on -/

theorem reportOk_resetWith (c : Config) : ReportOk (State.resetWith c) :=
  .of_idle rfl rfl (by simp [State.resetWith])

theorem inv_resetWith (c : Config) : Inv (State.resetWith c) :=
  inv_iff.mpr ⟨bufferOk_nil c, scheduleOk_none, reportOk_resetWith c⟩

/-- Settles O59: each of the three parts holds of the reset values. -/
theorem resetMeetsTheInvariant : Obligations.ResetMeetsTheInvariant := inv_resetWith

theorem inv_resetEvent {s : State} (h : Inv s) : Inv (resetEvent s) := by
  obtain ⟨hbuf, -, -⟩ := inv_iff.mp h
  obtain ⟨-, -, hrep⟩ := inv_iff.mp (inv_resetWith s.cfg)
  exact inv_iff.mpr ⟨hbuf.clearRange _ _, scheduleOk_none, hrep.busy, hrep.errIffCode, hrep.beforeReset⟩

theorem inv_powerOnEvent (s : State) : Inv (powerOnEvent s) :=
  inv_iff.mpr ⟨bufferOk_nil s.cfg, scheduleOk_none, nofun, (inv_resetWith s.cfg).errIffCode, fun _ => ⟨rfl, rfl⟩⟩

/-! ### The engine -/

/-- A command in flight means that the first reset has completed. -/
theorem Inv.live_of_busy {s : State} (h : Inv s) (hb : s.seq = .busy) : s.live = true := by
  cases hl : s.live with
  | true => rfl
  | false => rw [(h.beforeReset hl).1] at hb; cases hb

theorem Inv.withInputs {s : State} (h : Inv s) (q : List Event) : Inv { s with inputs := q } :=
  ⟨h.memWf, h.memBound, h.validIffRounds, h.validSchedule, h.noSchedule, h.busyReport, h.errIffCode, h.beforeReset⟩

theorem inv_failed {s : State} (h : Inv s) (hlive : s.live = true) {c : ErrCode} (hc : c ≠ .noError) : Inv (failed c s) := by
  obtain ⟨hbuf, hsch, -⟩ := inv_iff.mp h
  exact inv_iff.mpr ⟨hbuf, hsch, .of_idle rfl hlive (by simp [failed, hc])⟩

/-- A completion with an error keeps the invariant: the store stays or is invalidated. -/
theorem inv_completeError {s : State} (h : Inv s) (hlive : s.live = true) {c : ErrCode} (hc : c ≠ .noError) :
    Inv (completeError c s) := by
  by_cases hk : c = .invalidKeyLength
  · subst hk
    exact inv_iff.mpr ⟨(inv_iff.mp h).1, scheduleOk_none, .of_idle rfl hlive (by simp)⟩
  · rw [completeError_eq_failed hk]
    exact inv_failed h hlive hc

/-- Only KEY_EXPAND's writes change the store, and they install the expansion of a key of legal length (rule R139). -/
theorem writesOf_scheduleOk {i : Instr} {s u : State} (hs : ScheduleOk s.ksValid s.nr s.rk) (hc : commandError i s = none)
    (h : writesOf i s = .ok u) : ScheduleOk u.ksValid u.nr u.rk := by
  by_cases hi : i = .keyExpand
  · subst hi
    cases h
    have hk := scheduleOk_keyExpansion (key := keyBytes s)
    rw [show (keyBytes s).length = s.keyLen.toNat from length_groupBytes _ _] at hk
    exact hk (commandError_none_keyExpand.mp hc)
  · obtain ⟨hrk, hnr, hks⟩ := writesOf_schedule hi h
    rw [hks, hnr, hrk]
    exact hs

/-- The completion of a command in flight keeps the invariant. -/
theorem inv_exec {i : Instr} {s t : State} (h : Inv s) (hb : s.seq = .busy) (he : exec i s = .next t) : Inv t := by
  have hlive := h.live_of_busy hb
  obtain ⟨-, herr, -, -⟩ := h.busyReport hb
  obtain ⟨hbuf, hsch, -⟩ := inv_iff.mp h
  rcases exec_next_cases he with ⟨c, hc, rfl⟩ | ⟨hc, u, hu, rfl⟩
  · exact inv_completeError h hlive (commandError_ne_noError hc)
  · have hw := writesOf_writtenWithin hc hu
    have hsu := writesOf_scheduleOk hsch hc hu
    have hfr := writesOf_frame hu
    have hcfg : u.cfg = s.cfg := by rw [hfr]
    have hul : u.live = true := by rw [hfr]; exact hlive
    have hue : u.err = false := by rw [hfr]; exact herr
    refine inv_iff.mpr ⟨⟨hw.wf hbuf.wf, ?_⟩, hsu, .of_idle rfl hul (by simp [hue])⟩
    exact hw.bound _ (by rw [reportSuccess_cfg, hcfg]; exact storedRange_le_bufBytes hc)
      (by rw [reportSuccess_cfg, hcfg]; exact hbuf.bound)

/-! ### The bus -/

theorem inv_respond {s : State} (h : Inv s) (x : Resp) : Inv (respond x s) :=
  ⟨h.memWf, h.memBound, h.validIffRounds, h.validSchedule, h.noSchedule, h.busyReport, h.errIffCode, h.beforeReset⟩

/-- A register write to a live machine leaves a sound report: CMD clears it, STATUS clears ERR and ERRCODE together. -/
theorem reportOk_writeReg {s : State} (h : ReportOk s) (hlive : s.live = true) (r : Reg) (v : Word) :
    ReportOk (writeReg r v s) := by
  have dead (t : State) (ht : t.live = s.live) (p : Prop) (hd : t.live = false) : p := by simp [ht, hlive] at hd
  unfold writeReg
  split
  · exact ⟨h.busy, h.errIffCode, h.beforeReset⟩
  · cases r
    case cmd => exact ⟨fun _ => ⟨rfl, rfl, rfl, rfl⟩, by simp [storeReg], dead _ rfl _⟩
    case status =>
      refine ⟨fun hb => ?_, ?_, dead _ rfl _⟩
      · obtain ⟨hd, he, hc, hl⟩ := h.busy hb
        simp [storeReg, hd, he, hc, hl]
      · cases hv : v.getLsbD 2 <;> simp [storeReg, hv, h.errIffCode, and_comm]
    case ctrl => exact ⟨h.busy, h.errIffCode, dead _ rfl _⟩
    all_goals exact ⟨h.busy, h.errIffCode, h.beforeReset⟩

theorem inv_writeReg {s : State} (h : Inv s) (hlive : s.live = true) (r : Reg) (v : Word) : Inv (writeReg r v s) := by
  obtain ⟨hbuf, hsch, hrep⟩ := inv_iff.mp h
  have hsame := writeReg_sameResults r v s
  refine inv_iff.mpr ⟨?_, ?_, reportOk_writeReg hrep hlive r v⟩
  · rw [hsame.cfg, hsame.mem]; exact hbuf
  · rw [hsame.ksValid, hsame.nr, hsame.rk]; exact hsch

theorem inv_writeOffset {s : State} (h : Inv s) (hlive : s.live = true) (off : Nat) (v : Word) : Inv (writeOffset off v s) := by
  unfold writeOffset
  split
  · exact inv_writeReg h hlive _ v
  · exact h

theorem inv_busEffect {r : BusReq} {s t : State} (h : Inv s) (hlive : s.live = true) (hb : BusEffect r s t) : Inv t := by
  cases hb with
  | onlyResponse x => exact inv_respond h x
  | registerWrite off v hr h4 => exact inv_respond (inv_writeOffset h hlive off v) _
  | bufferWrite a bs hin =>
    obtain ⟨hbuf, hsch, hrep⟩ := inv_iff.mp h
    exact inv_iff.mpr ⟨hbuf.memWrite hin, hsch, hrep.busy, hrep.errIffCode, hrep.beforeReset⟩

/-- Settles O60: each case of a step keeps the buffer, the schedule and the report sound. -/
theorem stepKeepsTheInvariant : Obligations.StepKeepsTheInvariant := by
  intro s t h hstep
  cases step_next_cases hstep with
  | idleTurn hs hi => exact h.withInputs _
  | command q i t hs hd he hr hp => exact inv_exec (h.withInputs q) hs he
  | illegal q e hs hd hr hp => exact inv_failed (h.withInputs q) (h.live_of_busy hs) (by decide)
  | reset rest hi => exact inv_resetEvent (h.withInputs rest)
  | powerOn rest hi => exact inv_powerOnEvent _
  | access r rest t hi hl hb => exact inv_busEffect (h.withInputs rest) hl hb

/-! ### What a register shows after a write -/

/-- The low `n` bits of a word, read back as a word. -/
theorem setWidth_setWidth_eq_and (v : Word) (n : Nat) :
    (v.setWidth n).setWidth 32 = v &&& BitVec.ofNat 32 (2 ^ n - 1) := by
  apply BitVec.eq_of_getLsbD_eq
  intro k hk
  simp only [BitVec.getLsbD_setWidth, BitVec.getLsbD_and, BitVec.getLsbD_ofNat, Nat.testBit_two_pow_sub_one, hk, decide_true,
    Bool.true_and]
  exact Bool.and_comm _ _

theorem and_allOnes (v : Word) : v &&& 0xFFFFFFFF = v := BitVec.and_allOnes

/-- A RW register reads the writable bits stored in it (rules R26 to R42). -/
theorem readReg_storeReg_same {r : Reg} {mask : Word} (h : writableMask r = some mask) (v : Word) (s : State) :
    readReg r (storeReg r v s) = v &&& mask := by
  cases r <;> cases h
  case ctrl =>
    have hbit : BitVec.ofBool (v.getLsbD 0) = v.setWidth 1 := by
      apply BitVec.eq_of_getLsbD_eq
      intro k hk
      obtain rfl : k = 0 := by omega
      simp
    simp only [readReg, storeReg, hbit]
    exact setWidth_setWidth_eq_and v _
  case keyLen | ivLen | rkSel | gfA | gfB => exact setWidth_setWidth_eq_and v _
  case key j | iv j | blkIn j => rw [and_allOnes]; exact Vector.getElem_set_self j.isLt
  all_goals exact (and_allOnes v).symm

/-- Storing in one register of a group leaves the others. -/
theorem getElem_set_other {n : Nat} (w : Vector Word n) {j k : Fin n} (h : k ≠ j) (v : Word) : (w.set j v)[k] = w[k] :=
  Vector.getElem_set_ne j.isLt k.isLt (fun he => h (Fin.ext he.symm))

/-- A store in a RW register is not seen in any other, but for RK_DATA, which shows the key RK_SEL selects (rule R41). -/
theorem readReg_storeReg_other {r q : Reg} {mask : Word} (hr : writableMask r = some mask) (hq : q ≠ r)
    (hsel : r = .rkSel → ∀ j, q ≠ .rkData j) (v : Word) (s : State) : readReg q (storeReg r v s) = readReg q s := by
  cases r <;> cases hr
  case key j =>
    cases q
    case key k => exact getElem_set_other s.key (fun h => hq (congrArg Reg.key h)) v
    all_goals rfl
  case iv j =>
    cases q
    case iv k => exact getElem_set_other s.iv (fun h => hq (congrArg Reg.iv h)) v
    all_goals rfl
  case blkIn j =>
    cases q
    case blkIn k => exact getElem_set_other s.blkIn (fun h => hq (congrArg Reg.blkIn h)) v
    all_goals rfl
  case rkSel =>
    cases q
    case rkSel => exact absurd rfl hq
    case rkData j => exact absurd rfl (hsel rfl j)
    all_goals rfl
  all_goals cases q <;> first | rfl | exact absurd rfl hq

/-- Settles O7: while IDLE the write is stored, in its own register only. -/
theorem writableRegistersStoreTheirBits : Obligations.WritableRegistersStoreTheirBits := by
  intro s r mask v hidle hmask
  rw [writeReg_idle hidle]
  refine ⟨readReg_storeReg_same hmask v s, fun q hq hsel => readReg_storeReg_other hmask hq hsel v s, ?_⟩
  cases r <;> cases hmask <;> exact ⟨rfl, rfl, rfl, rfl, rfl, rfl, rfl, rfl, rfl, rfl⟩

/-! ### Read-only registers and reserved offsets -/

theorem writeReg_readOnly {r : Reg} (h : r ∈ readOnlyRegs) (v : Word) (s : State) : writeReg r v s = s := by
  have hkept : dropsWhileBusy r = false ∧ storeReg r v s = s := by
    cases r <;> simp [readOnlyRegs] at h <;> exact ⟨rfl, rfl⟩
  rw [writeReg_kept hkept.1, hkept.2]

theorem writeOffset_reserved {off : Nat} (h : regAt off = none) (v : Word) (s : State) : writeOffset off v s = s := by
  simp only [writeOffset, h]

theorem readOffset_reserved {off : Nat} (h : regAt off = none) (s : State) : readOffset off s = 0 := by
  simp only [readOffset, h]

theorem regAt_eq_some_iff {off : Nat} {r : Reg} : regAt off = some r ↔ off = regOffset r :=
  ⟨regAt_some, fun h => h ▸ regAt_regOffset r⟩

/-- No register lies past BUFSIZE (rule R21). -/
theorem regAt_none_of_le {off : Nat} (h : 0xB8 ≤ off) : regAt off = none := by
  cases hr : regAt off with
  | none => rfl
  | some r =>
    have := regOffset_lt r
    rw [← regAt_some hr] at this
    omega

/-- Settles O8: no write reaches a read-only register, and `regAt` and `regOffset` are the two readings of one table. -/
theorem readOnlyAndReservedIgnoreWrites : Obligations.ReadOnlyAndReservedIgnoreWrites :=
  ⟨fun s _ v hr => writeReg_readOnly hr v s, fun s _ v h => ⟨writeOffset_reserved h v s, readOffset_reserved h s⟩,
    fun _ => regAt_none_of_le, fun _ _ => regAt_eq_some_iff,
    ⟨rfl, rfl, rfl, rfl, rfl, rfl, rfl, rfl, rfl, rfl, rfl, rfl, rfl, rfl, rfl, rfl, rfl, rfl⟩,
    rfl, rfl, rfl, rfl, rfl, rfl⟩

/-! ### STATUS -/

/-- A field of STATUS, by its bits. -/
theorem statusWord_field {s : State} {n start : Nat} {f : BitVec n}
    (h : ∀ k, k < n → (statusWord s).getLsbD (start + k) = f.getLsbD k) : (statusWord s).extractLsb' start n = f := by
  apply BitVec.eq_of_getLsbD_eq
  intro k hk
  simp [hk, h k hk]

theorem rounds_toNat_lt (n : Rounds) : n.toNat < 2 ^ 4 := by
  cases n <;> decide

/-- Settles O10: each field is read off `statusWord_bit`, the value of STATUS bit by bit. -/
theorem statusFieldsReadAtTheirBits : Obligations.StatusFieldsReadAtTheirBits := by
  refine ⟨⟨rfl, rfl, rfl, rfl, rfl, rfl, rfl, rfl⟩, ⟨rfl, rfl, rfl, rfl⟩, fun s => ?_⟩
  have hnr : (statusWord s).extractLsb' 16 4 = BitVec.ofNat 4 s.nr.toNat :=
    statusWord_field fun k hk => by rw [statusWord_bit]; interval_cases k <;> rfl
  refine ⟨?busy, statusWord_bit s 1, statusWord_bit s 2, statusWord_bit s 3, statusWord_bit s 4, ?_, ?_, ?_, ?nr, ?_, ?_⟩
  case busy =>
    rw [show (readReg .status s).getLsbD 0 = s.busy from statusWord_bit s 0]
    exact busy_eq_true
  case nr =>
    show ((statusWord s).extractLsb' 16 4).toNat = _
    rw [hnr, BitVec.toNat_ofNat, Nat.mod_eq_of_lt (rounds_toNat_lt _)]
  all_goals exact statusWord_field fun k hk => by rw [statusWord_bit]; interval_cases k <;> rfl

/-- The value a W1C bit keeps, as a choice. -/
theorem and_not_eq_ite (b c : Bool) : (b && !c) = if c then false else b := by
  cases b <;> cases c <;> rfl

/-- A STATUS write, busy or not (rule R25). -/
theorem writeReg_status (s : State) (v : Word) : writeReg .status v s =
    { s with
      done := if v.getLsbD 1 then false else s.done
      err := if v.getLsbD 2 then false else s.err
      errCode := if v.getLsbD 2 then .noError else s.errCode
      ovr := if v.getLsbD 3 then false else s.ovr } := by
  simp only [writeReg_kept (r := .status) rfl, storeReg, writeStatus, and_not_eq_ite]

/-- Settles O11. -/
theorem statusWriteClearsOnes : Obligations.StatusWriteClearsOnes := writeReg_status

/-! ### CMD, and register accesses while BUSY -/

/-- Settles O9: an issue is `acceptCommand`, and the engine's turn then finds the illegal word in PENDING. -/
theorem cmdWriteIssues : Obligations.CmdWriteIssues := by
  refine fun s v => ⟨rfl, fun hs => ?_, fun hs => writeReg_busy hs rfl v, fun hs e rest hd => ?_⟩
  · rw [writeReg_idle hs]; rfl
  · rw [writeReg_idle hs, step_engine rfl]
    exact engineTurn_error rfl hd

theorem isHeld_register {r : BusReq} {s : State} {off : Nat} (h : targetOf s.cfg (reqAddr r) = .register off) :
    isHeld r s = false := by
  simp only [isHeld, h]

/-- Settles O12: the classes of rule R49 are those of `dropsWhileBusy`, and no register access is held. -/
theorem writesWhileBusyAreDropped : Obligations.WritesWhileBusyAreDropped := by
  refine fun s v hb => ⟨fun r hr => writeReg_busy hb (mem_droppedRegs.mp hr) v, writeReg_kept rfl v s, writeReg_status s v,
    fun r hr => writeReg_readOnly hr v s, fun off h => writeOffset_reserved h v s, fun addr off ht h4 => ?_⟩
  obtain ⟨rfl, hlt⟩ := targetOf_register ht
  exact ⟨isHeld_register ht, busAccess_read_word h4 hlt⟩

/-- Settles O20: a register's offset is a word-aligned offset of the register part that `regAt` maps back to it. -/
theorem registerAccessEffects : Obligations.RegisterAccessEffects := by
  refine ⟨fun s r => ?_, fun s off h4 hlt => ⟨busAccess_read_word h4 hlt, busAccess_write_word h4 hlt⟩,
    fun s r => ⟨isHeld_iff, fun rest hi hl hh => step_access hi hl hh⟩⟩
  have hlt : regOffset r < 0x1000 := Nat.lt_trans (regOffset_lt r) (by decide)
  have hread : readOffset (regOffset r) s = readReg r s := by simp only [readOffset, regAt_regOffset]
  have hwrite (v : Word) : writeOffset (regOffset r) v s = writeReg r v s := by simp only [writeOffset, regAt_regOffset]
  exact ⟨hread ▸ busAccess_read_word (regOffset_mod r) hlt,
    fun v => hwrite v ▸ busAccess_write_word (regOffset_mod r) hlt v⟩

/-! ### RK_DATA, ID and BUFSIZE -/

/-- Byte `r` of a register word is row `r` of its column (rule R10). -/
theorem extractLsb'_colWord (c : Col) (r : Fin 4) : (colWord c).extractLsb' (8 * r.val) 8 = colRow c r := by
  have h : colRow (wordCol (colWord c)) r = (colWord c).extractLsb' (8 * r.val) 8 := by fin_cases r <;> rfl
  rw [← h, wordCol_colWord]

theorem readReg_rkData_invalid {s : State} (j : Fin 4) (h : ¬(s.ksValid = true ∧ s.rkSel.toNat ≤ s.nr.toNat)) :
    readReg (.rkData j) s = 0 :=
  if_neg h

/-- Settles O13: RK_DATAj is the word of column `j` of the selected round key. -/
theorem rkDataReadsSelectedRoundKey : Obligations.RkDataReadsSelectedRoundKey := by
  refine fun s j => ⟨fun hv hle m hm => ?_, readReg_rkData_invalid j, readReg_rkData_invalid j nofun,
    fun v => writeReg_readOnly (by simp [readOnlyRegs]) v s⟩
  have hread : readReg (.rkData j) s = colWord (blockCol (roundKey s.rk s.rkSel.toNat) j) := if_pos ⟨hv, hle⟩
  rw [hread, extractLsb'_colWord _ ⟨m, hm⟩, Nat.add_comm, blockByte_matrixAt _ ⟨m, hm⟩ j]
  rfl

theorem readReg_bufSize (s : State) : (readReg .bufSize s).toNat = s.cfg.bufBytes :=
  Nat.mod_eq_of_lt (Nat.lt_of_le_of_lt (bufBytes_le s.cfg) (by decide))

/-- Settles O16: BUFSIZE shows a parameter, and no step changes the parameters. -/
theorem identificationNeverChanges : Obligations.IdentificationNeverChanges := by
  refine fun s t => ⟨rfl, readReg_bufSize s, fun h => ⟨rfl, ?_, step_cfg h⟩⟩
  simp only [readReg, step_cfg h]

/-- Settles O56: a reset leaves zero in the fields each register shows, but for the two constants. -/
theorem resetValues : Obligations.ResetValues := by
  refine fun c => ⟨fun r hid hbuf => ?_, rfl, readReg_bufSize (State.resetWith c), rfl, rfl, rfl, rfl, fun k => ?_, rfl, rfl⟩
  · cases r
    case id => exact absurd rfl hid
    case bufSize => exact absurd rfl hbuf
    case status => show statusWord (State.resetWith Config.specExamples) = 0; decide
    case key j | iv j | blkIn j | blkOut j | chain j => simp [readReg, State.resetWith]
    all_goals rfl
  · rw [resetWith_rk, roundKey, Vector.getElem?_replicate]
    split <;> rfl

/-! ### What commands leave unchanged -/

/-- Settles O15: of the steps that are no reset and no power-on, only a completion of KEY_EXPAND reaches the store. -/
theorem scheduleWrittenOnlyByKeyExpandAndReset : Obligations.ScheduleWrittenOnlyByKeyExpandAndReset := by
  intro s t hstep hchanged
  have changes : ¬(t.rk = s.rk ∧ t.nr = s.nr ∧ t.ksValid = s.ksValid) := by
    rintro ⟨hrk, hnr, hks⟩
    simp [hrk, hnr, hks] at hchanged
  cases step_next_cases hstep with
  | idleTurn hs hi => exact absurd ⟨rfl, rfl, rfl⟩ changes
  | command q i _ hs hd he hr hp =>
    by_cases hi : i = .keyExpand
    · subst hi
      exact .inl ⟨hs, hd, by rw [exec_frame he]⟩
    · exact absurd (exec_schedule (s := { s with inputs := q }) hi he) changes
  | illegal q e hs hd hr hp => exact absurd ⟨rfl, rfl, rfl⟩ changes
  | reset rest hi => exact .inr (.inl (by rw [hi]; rfl))
  | powerOn rest hi => exact .inr (.inr (by rw [hi]; rfl))
  | access r rest _ hi hl hb =>
    obtain ⟨-, -, hrk, hnr, hks, -⟩ := hb.same
    exact absurd ⟨hrk, hnr, hks⟩ changes

/-- Settles O17: a failed command writes the report, and the writes of each family go to its own result. -/
theorem registerCommandFrames : Obligations.RegisterCommandFrames := by
  refine fun s t => ⟨fun h => ?_, fun i hi h => ?_, fun i hi h => ?_⟩
  · rcases exec_next_cases h with ⟨c, -, rfl⟩ | ⟨-, u, hu, rfl⟩
    · cases c <;> rfl
    · cases hu; rfl
  · rcases exec_next_failed_or_writes (by rintro rfl; simp at hi) h with ⟨c, rfl⟩ | ⟨u, hu, rfl⟩
    · rfl
    · rw [writesOf_block_frame hi hu]; rfl
  · rcases exec_next_failed_or_writes (by rintro rfl; simp at hi) h with ⟨c, rfl⟩ | ⟨u, hu, rfl⟩
    · rfl
    · rw [writesOf_probe_frame hi hu]; rfl

/-- The stored range of a command over `[DST, DST+LEN)`. -/
theorem storedRange_dst_len {i : Instr} (hi : i ∈ [Instr.ecbEnc, .ecbDec, .cbcEnc, .cbcDec, .ctrXform]) (s : State) :
    storedRange i s = (s.dst.toNat, s.len.toNat) := by
  simp only [List.mem_cons, List.not_mem_nil, or_false] at hi
  rcases hi with rfl | rfl | rfl | rfl | rfl <;> rfl

/-- Settles O18: the fields by the frame of each family's writes, the buffer bytes by `exec_writtenWithin`. -/
theorem bufferCommandFrames : Obligations.BufferCommandFrames := by
  refine fun s t => ⟨fun i hi h => ?_, fun i hi h => ?_, fun i hi h a ha => ?_, fun h a ha => ?_⟩
  · rcases exec_next_failed_or_writes (by rintro rfl; simp at hi) h with ⟨c, rfl⟩ | ⟨u, hu, rfl⟩
    · rfl
    · rw [writesOf_buffer_frame hi hu]; rfl
  · rcases exec_next_failed_or_writes (by rintro rfl; simp at hi) h with ⟨c, rfl⟩ | ⟨u, hu, rfl⟩
    · rfl
    · rw [writesOf_cbc_frame hi hu]; rfl
  · exact (exec_writtenWithin h).frame a (by rw [storedRange_dst_len hi]; exact ha)
  · exact (exec_writtenWithin h).frame a ha

/-! ### The commands that write no buffer byte -/

/-- Settles O27: the schedule check is the only one of these two commands. -/
theorem blockCommandsTransformBlkIn : Obligations.BlockCommandsTransformBlkIn := by
  refine fun s => ⟨fun hk => ?_, fun hk => ?_⟩
  · have hpass {i : Instr} (hi : i ∈ [Instr.blockEnc, .blockDec]) : commandError i s = none :=
      (commandError_none_block hi).mpr hk
    exact ⟨exec_ok (hpass (i := .blockEnc) (by simp)) rfl, exec_ok (hpass (i := .blockDec) (by simp)) rfl⟩
  · have hfail {i : Instr} (hi : i ∈ [Instr.blockEnc, .blockDec]) : commandError i s = some .noKeySchedule := by
      rw [commandError_block hi, if_pos hk]
    exact ⟨exec_failed (hfail (by simp)) (by decide), exec_failed (hfail (by simp)) (by decide)⟩

/-- Settles O35: a probe has no check, and one write. -/
theorem probeCommandsWriteGfR : Obligations.ProbeCommandsWriteGfR := by
  intro s
  exact ⟨exec_ok (i := .gfMul) (commandError_probe (by simp) s) rfl,
    exec_ok (i := .gfInv) (commandError_probe (by simp) s) rfl,
    exec_ok (i := .sboxFwd) (commandError_probe (by simp) s) rfl,
    exec_ok (i := .sboxInv) (commandError_probe (by simp) s) rfl⟩

/-! ### The mode commands -/

theorem chunkCount_of_mod {len : Nat} (h : len % 16 = 0) : chunkCount len = len / 16 := by
  unfold chunkCount; omega

/-- One chunk of a run from block 0 over a whole number of blocks. -/
theorem ChunkTrace.block {f : ChunkFn} {src dst len : Nat} {bufs : Nat → Memory} {chain : Nat → Block}
    (h : ChunkTrace f src dst len (chunkCount len) 0 bufs chain) (hlen : len % 16 = 0) {k : Nat} (hk : k < len / 16) :
    ∃ d, memRead (bufs k) (src + 16 * k) 16 = .ok d ∧ chain (k + 1) = (f k (chain k) d).2 ∧
      bufs (k + 1) = memWrite (bufs k) (dst + 16 * k) (f k (chain k) d).1 := by
  have hchunk := h.chunk k (by rw [chunkCount_of_mod hlen]; exact hk)
  rwa [Nat.zero_add, show min 16 (len - 16 * k) = 16 by omega] at hchunk

/-- A command that leaves only the buffer changed completes when its checks pass and its source is initialised. -/
theorem exec_bufferWrites {i : Instr} {f : ChunkFn} {s : State} (hw : writesOf i s = bufferWrites f s)
    (hc : commandError i s = none) (hinit : Initialised s.mem s.src.toNat s.len.toNat) :
    ∃ bufs chain, bufs 0 = s.mem ∧ ChunkTrace f s.src.toNat s.dst.toNat s.len.toNat (chunkCount s.len.toNat) 0 bufs chain ∧
      exec i s = .next { s with
        mem := bufs (chunkCount s.len.toNat), errCode := .noError, done := true, seq := .idle } := by
  obtain ⟨u, hu⟩ := bufferWrites_completes (f := f) hinit
  obtain ⟨bufs, chain, h0, -, ht, rfl⟩ := bufferWrites_ok hu
  exact ⟨bufs, chain, h0, ht, exec_ok hc (hw.trans hu)⟩

/-- So does a CBC command, which leaves the last chaining value in CHAIN. -/
theorem exec_cbcWrites {i : Instr} {f : ChunkFn} {s : State} (hw : writesOf i s = cbcWrites f s)
    (hc : commandError i s = none) (hinit : Initialised s.mem s.src.toNat s.len.toNat) :
    ∃ bufs chain, bufs 0 = s.mem ∧ chain 0 = groupBlock s.iv ∧
      ChunkTrace f s.src.toNat s.dst.toNat s.len.toNat (chunkCount s.len.toNat) 0 bufs chain ∧
      exec i s = .next { s with
        mem := bufs (chunkCount s.len.toNat), chain := blockGroup (chain (chunkCount s.len.toNat))
        errCode := .noError, done := true, seq := .idle } := by
  obtain ⟨u, hu⟩ := cbcWrites_completes (f := f) hinit
  obtain ⟨bufs, chain, h0, hc0, ht, rfl⟩ := cbcWrites_ok hu
  exact ⟨bufs, chain, h0, hc0, ht, exec_ok hc (hw.trans hu)⟩

/-- Settles O36: the run of the chunk loop is the sequence of buffers. -/
theorem ecbProcessesBlocksInOrder : Obligations.EcbProcessesBlocksInOrder := by
  intro s i f hif hk hlen hfit hinit
  have hi : i ∈ [Instr.ecbEnc, .ecbDec] ∧ writesOf i s = bufferWrites (ecbChunk f) s := by
    simp only [List.mem_cons, List.not_mem_nil, or_false, Prod.mk.injEq] at hif
    rcases hif with ⟨rfl, rfl⟩ | ⟨rfl, rfl⟩ <;> exact ⟨by simp, rfl⟩
  obtain ⟨bufs, chain, h0, ht, he⟩ := exec_bufferWrites hi.2 ((commandError_none_ecb hi.1).mpr ⟨hk, hlen, hfit⟩) hinit
  rw [chunkCount_of_mod hlen] at he
  refine ⟨bufs, h0, fun k hkn => ?_, he⟩
  obtain ⟨d, hd, -, hb⟩ := ht.block hlen hkn
  exact ⟨d, hd, hb⟩

/-- Settles O37: the chaining values are those of the run. -/
theorem cbcEncryptChainsCiphertext : Obligations.CbcEncryptChainsCiphertext := by
  intro s hk hiv hlen hfit hinit
  obtain ⟨bufs, chain, h0, hc0, ht, he⟩ := exec_cbcWrites (i := .cbcEnc) (f := cbcEncChunk s) rfl
    ((commandError_none_cbc (by simp)).mpr ⟨hk, hiv, hlen, hfit⟩) hinit
  rw [chunkCount_of_mod hlen] at he
  refine ⟨bufs, chain, h0, hc0, fun k hkn => ?_, he⟩
  obtain ⟨d, hd, hc, hb⟩ := ht.block hlen hkn
  exact ⟨d, hd, hc, hc ▸ hb⟩

/-- Settles O38: the chaining value after a block is the block read. -/
theorem cbcDecryptChainsInput : Obligations.CbcDecryptChainsInput := by
  intro s hk hiv hlen hfit hinit
  obtain ⟨bufs, chain, h0, hc0, ht, he⟩ := exec_cbcWrites (i := .cbcDec) (f := cbcDecChunk s) rfl
    ((commandError_none_cbc (by simp)).mpr ⟨hk, hiv, hlen, hfit⟩) hinit
  rw [chunkCount_of_mod hlen] at he
  exact ⟨bufs, chain, h0, hc0, fun k hkn => ht.block hlen hkn, he⟩

/-! ### CTR -/

/-- Byte `j` of the 8-byte little-endian encoding is bits `8j+7 : 8j` (rule R8). -/
theorem getElem?_leBytes (v : Nat) {j : Nat} (hj : j < 8) :
    (leBytes 8 v)[j]? = some ((BitVec.ofNat 64 v).extractLsb' (8 * j) 8) := by
  have hbyte : BitVec.ofNat 8 (v >>> (8 * j)) = (BitVec.ofNat 64 v).extractLsb' (8 * j) 8 := by
    apply BitVec.eq_of_getLsbD_eq
    intro k hk
    rw [BitVec.getLsbD_extractLsb', BitVec.getLsbD_ofNat, BitVec.getLsbD_ofNat, Nat.testBit_shiftRight]
    simp [hk, show 8 * j + k < 64 by omega]
  simp [leBytes, hj, hbyte]

/-- NONCE is NONCE_HI:NONCE_LO as one number (rule R31). -/
theorem ofNat_nonce (s : State) : BitVec.ofNat 64 (nonce s) = s.nonceHi ++ s.nonceLo := by
  apply BitVec.eq_of_toNat_eq
  have hlo := s.nonceLo.isLt
  have hhi := s.nonceHi.isLt
  rw [BitVec.toNat_ofNat, BitVec.toNat_append, ← Nat.shiftLeft_add_eq_or_of_lt hlo, Nat.shiftLeft_eq, nonce]
  exact Nat.mod_eq_of_lt (by omega)

theorem blockByte_ctrBlock_low (n i : Nat) {j : Nat} (hj : j < 8) :
    blockByte (ctrBlock n i) j = (BitVec.ofNat 64 n).extractLsb' (8 * j) 8 := by
  apply Option.some.inj
  rw [ctrBlock, ← getElem?_eq_blockByte (by simp) (by omega), List.getElem?_append_left (by simp [hj]), getElem?_leBytes n hj]

theorem blockByte_ctrBlock_high (n i : Nat) {j : Nat} (hj : j < 8) :
    blockByte (ctrBlock n i) (8 + j) = (BitVec.ofNat 64 i).extractLsb' (8 * j) 8 := by
  apply Option.some.inj
  rw [ctrBlock, ← getElem?_eq_blockByte (by simp) (by omega), List.getElem?_append_right (by simp), length_leBytes,
    Nat.add_sub_cancel_left, getElem?_leBytes i hj]

/-- A sum with as many keystream bytes as the chunk has is the sum with the whole block, cut to the chunk (rule R156). -/
theorem xorBytes_take {d ks : List Byte} (h : d.length ≤ ks.length) :
    xorBytes d (ks.take d.length) = List.zipWith (· ^^^ ·) d ks := by
  rw [xorBytes, List.zipWith_eq_zipWith_take_min (l₁ := d) (l₂ := ks), Nat.min_eq_left h, List.take_length]

/-- Settles O39: the counter block byte by byte, and the run of the chunk loop. -/
theorem ctrTransformAddsKeystream : Obligations.CtrTransformAddsKeystream := by
  refine fun s => ⟨fun k j hj => ⟨?_, blockByte_ctrBlock_high _ _ hj⟩, fun hk hfit hinit => ?_⟩
  · rw [blockByte_ctrBlock_low _ _ hj, ofNat_nonce]
  · obtain ⟨bufs, chain, h0, ht, he⟩ := exec_bufferWrites (i := .ctrXform) (f := ctrChunk s) rfl
      (commandError_none_ctrXform.mpr ⟨hk, hfit⟩) hinit
    refine ⟨bufs, h0, fun k hkn => ?_, he⟩
    obtain ⟨d, hd, -, hb⟩ := ht.chunk k hkn
    rw [Nat.zero_add] at hd hb
    have hlen : d.length ≤ (blockBytes (keystream s k)).length := by
      rw [memRead_length hd, length_blockBytes]; omega
    exact ⟨d, hd, hb.trans (congrArg (memWrite (bufs k) (s.dst.toNat + 16 * k)) (xorBytes_take hlen))⟩

/-- Settles O40: the run of the edit loop is the sequence of buffers. -/
theorem ctrEditRewritesItsBytes : Obligations.CtrEditRewritesItsBytes := by
  intro s hk hfit hinit
  obtain ⟨u, hu⟩ := ctrEditWrites_completes hinit
  obtain ⟨bufs, h0, ht, rfl⟩ := ctrEditWrites_ok hu
  refine ⟨bufs, h0, fun j hj => ?_, exec_ok (commandError_none_ctrEdit.mpr ⟨hk, hfit⟩) hu⟩
  obtain ⟨b, hb, hset⟩ := ht j hj
  rw [Nat.zero_add] at hb hset
  rw [← Nat.add_assoc] at hset
  exact ⟨b, hb, hset⟩

/-! ### One CBC message in two commands -/

/-- The chunk loop sees its chunk function, addresses and length only through the whole blocks it has left. -/
theorem chunkLoop_congr {f : ChunkFn} (hf : ∀ i j, f i = f j) {src dst len src' dst' len' n i j : Nat} {ch : Block} {m : Memory}
    (hs : src + 16 * i = src' + 16 * j) (hd : dst + 16 * i = dst' + 16 * j) (hl : 16 * (i + n) ≤ len)
    (hl' : 16 * (j + n) ≤ len') :
    chunkLoop f src dst len n i ch m = chunkLoop f src' dst' len' n j ch m := by
  induction n generalizing i j ch m with
  | zero => rfl
  | succ n ih =>
    have hmin : min 16 (len - 16 * i) = min 16 (len' - 16 * j) := by omega
    simp only [chunkLoop, hs, hd, hmin, hf i j]
    cases memRead m (src' + 16 * j) (min 16 (len' - 16 * j)) with
    | error e => rfl
    | ok d => exact ih (by omega) (by omega) (by omega) (by omega)

/-- The operands of the command that goes on with a CBC message where another stopped (rule R161). -/
def cbcContinued (a : State) (src2 dst2 len2 : Word) : State := { a with iv := a.chain, src := src2, dst := dst2, len := len2 }

/-- A run over a whole message is a run over its first `len1` bytes and then, with the chaining value that leaves, one over the
rest (rule R161). -/
theorem runChunks_split {f : ChunkFn} (hf : ∀ i j, f i = f j) {s : State} {ch : Block} {r : Memory × Block}
    {len1 len2 src2 dst2 : Word} (h1 : len1.toNat % 16 = 0) (h2 : len2.toNat % 16 = 0)
    (hlen : s.len.toNat = len1.toNat + len2.toNat) (hsrc : src2.toNat = s.src.toNat + len1.toNat)
    (hdst : dst2.toNat = s.dst.toNat + len1.toNat) (h : runChunks f ch s = .ok r) :
    ∃ r1, runChunks f ch { s with len := len1 } = .ok r1 ∧
      ∀ a : State, a.mem = r1.1 → runChunks f r1.2 (cbcContinued a src2 dst2 len2) = .ok r := by
  have hn : chunkCount s.len.toNat = len1.toNat / 16 + len2.toNat / 16 := by unfold chunkCount; omega
  rw [runChunks, hn, chunkLoop_add] at h
  split at h
  · cases h
  · rename_i r1 hr1
    refine ⟨r1, ?_, fun a ha => ?_⟩
    · rw [runChunks, chunkCount_of_mod h1, ← hr1]
      exact chunkLoop_congr hf rfl rfl (by simp only; omega) (by omega)
    · rw [runChunks, show (cbcContinued a src2 dst2 len2).len = len2 from rfl, chunkCount_of_mod h2, ← h]
      simp only [cbcContinued, ha]
      exact chunkLoop_congr hf (by omega) (by omega) (by omega) (by omega)

/-- The chunk function of each CBC command: the key is all it takes from the state. -/
def cbcChunk (i : Instr) (s : State) : ChunkFn := if i = .cbcEnc then cbcEncChunk s else cbcDecChunk s

theorem cbcChunk_index (i : Instr) (s : State) (k l : Nat) : cbcChunk i s k = cbcChunk i s l := by
  unfold cbcChunk; split <;> rfl

theorem cbcChunk_congr (i : Instr) {s t : State} (hrk : t.rk = s.rk) (hnr : t.nr = s.nr) : cbcChunk i t = cbcChunk i s := by
  funext k ch d
  simp only [cbcChunk]
  split <;> simp only [cbcEncChunk, cbcDecChunk, State.encrypt, State.decrypt, hrk, hnr]

theorem writesOf_cbc {i : Instr} (hi : i ∈ [Instr.cbcEnc, .cbcDec]) (s : State) : writesOf i s = cbcWrites (cbcChunk i s) s := by
  simp only [List.mem_cons, List.not_mem_nil, or_false] at hi
  rcases hi with rfl | rfl <;> rfl

/-- The state a CBC command leaves whose run left the buffer `r.1` and the chaining value `r.2`. -/
def cbcCompleted (s : State) (r : Memory × Block) : State := reportSuccess { s with mem := r.1, chain := blockGroup r.2 }

theorem exec_cbc_completed {i : Instr} (hi : i ∈ [Instr.cbcEnc, .cbcDec]) {s : State} {r : Memory × Block}
    (hc : commandError i s = none) (hr : runChunks (cbcChunk i s) (groupBlock s.iv) s = .ok r) :
    exec i s = .next (cbcCompleted s r) :=
  exec_ok hc (by rw [writesOf_cbc hi, cbcWrites, hr])

/-- The second command runs with the key of the first and from its chaining value. -/
theorem exec_cbcContinued {i : Instr} (hi : i ∈ [Instr.cbcEnc, .cbcDec]) {s a : State} {src2 dst2 len2 : Word}
    {r1 r : Memory × Block} (hrk : a.rk = s.rk) (hnr : a.nr = s.nr) (hchain : a.chain = blockGroup r1.2)
    (hpass : commandError i (cbcContinued a src2 dst2 len2) = none)
    (hr : runChunks (cbcChunk i s) r1.2 (cbcContinued a src2 dst2 len2) = .ok r) :
    exec i (cbcContinued a src2 dst2 len2) = .next (cbcCompleted (cbcContinued a src2 dst2 len2) r) := by
  refine exec_cbc_completed hi hpass ?_
  have hiv : groupBlock (cbcContinued a src2 dst2 len2).iv = r1.2 := (congrArg groupBlock hchain).trans (groupBlock_blockGroup _)
  rw [cbcChunk_congr i (s := s) (t := cbcContinued a src2 dst2 len2) hrk hnr, hiv]
  exact hr

/-- Settles O45: the run over the whole message splits where the first command ends, and CHAIN carries the chaining value. -/
theorem cbcContinuesAcrossCommands : Obligations.CbcContinuesAcrossCommands := by
  intro s i len1 len2 src2 dst2 hi hk hiv hfit hinit h1 h2 hlen hsrc hdst
  obtain ⟨hfs, hfd⟩ := hfit
  obtain ⟨r, hr⟩ := chunkLoop_completes (f := cbcChunk i s) (dst := s.dst.toNat) (n := chunkCount s.len.toNat) (i := 0)
    (ch := groupBlock s.iv) hinit
  obtain ⟨r1, hr1, hr2⟩ := runChunks_split (cbcChunk_index i s) h1 h2 hlen hsrc hdst hr
  have hone : exec i s = .next (cbcCompleted s r) :=
    exec_cbc_completed hi ((commandError_none_cbc hi).mpr ⟨hk, hiv, by omega, hfs, hfd⟩) hr
  have hfit1 : RangesFit { s with len := len1 } := ⟨by simp only; omega, by simp only; omega⟩
  have hfirst : exec i { s with len := len1 } = .next (cbcCompleted { s with len := len1 } r1) :=
    exec_cbc_completed hi ((commandError_none_cbc hi).mpr ⟨hk, hiv, h1, hfit1⟩) hr1
  have hfit2 : RangesFit (cbcContinued (cbcCompleted { s with len := len1 } r1) src2 dst2 len2) := by
    show src2.toNat + len2.toNat ≤ s.cfg.bufBytes ∧ dst2.toNat + len2.toNat ≤ s.cfg.bufBytes
    omega
  have hsecond := exec_cbcContinued hi (s := s) (a := cbcCompleted { s with len := len1 } r1) rfl rfl rfl
    ((commandError_none_cbc hi).mpr ⟨hk, hiv, h2, hfit2⟩) (hr2 _ rfl)
  exact ⟨_, _, _, hone, hfirst, hsecond, rfl, rfl⟩

/-! ### When a command completes, and when it stops -/

theorem writesOf_completes {i : Instr} {s : State} (h : Initialised s.mem (readRange i s).1 (readRange i s).2) :
    ∃ u, writesOf i s = .ok u := by
  cases i
  case ecbEnc | ecbDec | ctrXform => exact bufferWrites_completes h
  case cbcEnc | cbcDec => exact cbcWrites_completes h
  case ctrEdit => exact ctrEditWrites_completes h
  all_goals exact ⟨_, rfl⟩

theorem writesOf_error {i : Instr} {s : State} {f : Fault} (h : writesOf i s = .error f) :
    ∃ a, f = .uninitBufferRead a ∧ s.mem.byteAt a = none ∧ (readRange i s).1 ≤ a ∧
      a < (readRange i s).1 + (readRange i s).2 := by
  cases i
  case ecbEnc | ecbDec | ctrXform => exact bufferWrites_error h
  case cbcEnc | cbcDec => exact cbcWrites_error h
  case ctrEdit => exact ctrEditWrites_error h
  all_goals cases h

theorem bufferWrites_firstError {f : ChunkFn} {s : State} (hf : KeepsLength f s.len.toNat)
    (hc : NoClobber s.src.toNat s.dst.toNat s.len.toNat) {k : Nat} (hk : k < s.len.toNat)
    (hinit : Initialised s.mem s.src.toNat k) (hnone : s.mem.byteAt (s.src.toNat + k) = none) :
    bufferWrites f s = .error (.uninitBufferRead (s.src.toNat + k)) := by
  simp only [bufferWrites, runChunks_firstError hf hc hk hinit hnone]

theorem cbcWrites_firstError {f : ChunkFn} {s : State} (hf : KeepsLength f s.len.toNat)
    (hc : NoClobber s.src.toNat s.dst.toNat s.len.toNat) {k : Nat} (hk : k < s.len.toNat)
    (hinit : Initialised s.mem s.src.toNat k) (hnone : s.mem.byteAt (s.src.toNat + k) = none) :
    cbcWrites f s = .error (.uninitBufferRead (s.src.toNat + k)) := by
  simp only [cbcWrites, runChunks_firstError hf hc hk hinit hnone]

/-- Where its writes do not reach its later reads, a command stops at the first uninitialised byte it reads (rules R72 and R150). -/
theorem writesOf_firstError {i : Instr} {s : State} (hpass : commandError i s = none)
    (hc : NoClobber (readRange i s).1 (storedRange i s).1 (readRange i s).2) {k : Nat} (hk : k < (readRange i s).2)
    (hinit : Initialised s.mem (readRange i s).1 k) (hnone : s.mem.byteAt ((readRange i s).1 + k) = none) :
    writesOf i s = .error (.uninitBufferRead ((readRange i s).1 + k)) := by
  have hmod (hi : i ∈ [Instr.ecbEnc, .ecbDec, .cbcEnc, .cbcDec]) := len_mod_of_commandError_none hi hpass
  cases i
  case ecbEnc | ecbDec => exact bufferWrites_firstError (keepsLength_ecb (hmod (by simp))) hc hk hinit hnone
  case cbcEnc => exact cbcWrites_firstError (keepsLength_cbcEnc (hmod (by simp))) hc hk hinit hnone
  case cbcDec => exact cbcWrites_firstError (keepsLength_cbcDec (hmod (by simp))) hc hk hinit hnone
  case ctrXform => exact bufferWrites_firstError (keepsLength_ctr s _) hc hk hinit hnone
  case ctrEdit => exact ctrEditWrites_firstError hc hk hinit hnone
  all_goals exact absurd hk (Nat.not_lt_zero k)

theorem exec_completes {i : Instr} {s : State} (h : Initialised s.mem (readRange i s).1 (readRange i s).2) :
    ∃ t, exec i s = .next t := by
  cases hc : commandError i s with
  | some c => exact ⟨_, exec_error hc⟩
  | none =>
    obtain ⟨u, hu⟩ := writesOf_completes h
    exact ⟨_, exec_ok hc hu⟩

/-- Settles O50: a command faults only in its writes, and there only on a byte it reads. -/
theorem commandsStopOnlyOnUninitialisedBytes : Obligations.CommandsStopOnlyOnUninitialisedBytes := by
  refine fun s i => ⟨exec_completes, fun t h => ?_, fun f h => writesOf_error (exec_fault_cases h).2,
    fun k hpass hc hk hinit hnone => exec_fault hpass (writesOf_firstError hpass hc hk hinit hnone), exec_not_refused i s⟩
  rw [exec_frame h]
  exact ⟨rfl, rfl⟩

/-! ### Register accesses between issue and completion -/

/-- `s` with the fields a register access while BUSY can change, as `t` has them (rule R49). -/
def State.withReport (s t : State) : State :=
  { s with ovr := t.ovr, ie := t.ie, done := t.done, err := t.err, errCode := t.errCode, resp := t.resp }

/-- While BUSY a register write reaches the report, IE and OVR only. -/
theorem writeReg_busy_withReport {s : State} (hb : s.seq = .busy) (r : Reg) (v : Word) :
    writeReg r v s = s.withReport (writeReg r v s) := by
  cases hr : dropsWhileBusy r with
  | true => rw [writeReg_busy hb hr]; rfl
  | false =>
    rw [writeReg_kept hr]
    cases r <;> cases hr <;> rfl

theorem writeOffset_busy_withReport {s : State} (hb : s.seq = .busy) (off : Nat) (v : Word) :
    writeOffset off v s = s.withReport (writeOffset off v s) := by
  cases hr : regAt off with
  | none => rw [writeOffset_reserved hr]; rfl
  | some r =>
    simp only [writeOffset, hr]
    exact writeReg_busy_withReport hb r v

theorem busAccess_register {r : BusReq} {s : State} {off : Nat} (h : targetOf s.cfg (reqAddr r) = .register off) :
    busAccess r s = .next (registerAccess r off s) := by
  simp only [busAccess, h]

/-- While BUSY an access to the register part reaches the report, IE, OVR and the response only. -/
theorem registerAccess_busy_withReport {s : State} (hb : s.seq = .busy) (r : BusReq) (off : Nat) :
    registerAccess r off s = s.withReport (registerAccess r off s) := by
  unfold registerAccess
  split
  · cases r with
    | read w a => rfl
    | write w a v =>
      show respond _ (writeOffset off v s) = s.withReport (respond _ (writeOffset off v s))
      rw [writeOffset_busy_withReport hb off v]; rfl
  · cases r <;> rfl

theorem commandError_withReport (i : Instr) (s t : State) : commandError i (s.withReport t) = commandError i s := by
  cases i <;> rfl

theorem bufferWrites_withReport {f : ChunkFn} {s u : State} (t : State) (h : bufferWrites f s = .ok u) :
    bufferWrites f (s.withReport t) = .ok (u.withReport t) := by
  have hrun : runChunks f Block.zero (s.withReport t) = runChunks f Block.zero s := rfl
  unfold bufferWrites at h ⊢
  rw [hrun]
  split at h
  · cases h
  · cases h; rfl

theorem cbcWrites_withReport {f : ChunkFn} {s u : State} (t : State) (h : cbcWrites f s = .ok u) :
    cbcWrites f (s.withReport t) = .ok (u.withReport t) := by
  have hrun : runChunks f (groupBlock s.iv) (s.withReport t) = runChunks f (groupBlock s.iv) s := rfl
  unfold cbcWrites at h ⊢
  rw [show (s.withReport t).iv = s.iv from rfl, hrun]
  split at h
  · cases h
  · cases h; rfl

theorem editLoop_withReport (s t : State) (n j : Nat) (m : Memory) : editLoop (s.withReport t) n j m = editLoop s n j m := by
  induction n generalizing j m with
  | zero => rfl
  | succ n ih => simp only [editLoop, ih]; rfl

theorem ctrEditWrites_withReport {s u : State} (t : State) (h : ctrEditWrites s = .ok u) :
    ctrEditWrites (s.withReport t) = .ok (u.withReport t) := by
  unfold ctrEditWrites at h ⊢
  rw [editLoop_withReport, show (s.withReport t).eLen = s.eLen from rfl, show (s.withReport t).mem = s.mem from rfl]
  split at h
  · cases h
  · cases h; rfl

/-- The writes of a command do not depend on the report (rule R48). -/
theorem writesOf_withReport {i : Instr} {s u : State} (t : State) (h : writesOf i s = .ok u) :
    writesOf i (s.withReport t) = .ok (u.withReport t) := by
  cases i
  case ecbEnc | ecbDec | ctrXform => exact bufferWrites_withReport t h
  case cbcEnc | cbcDec => exact cbcWrites_withReport t h
  case ctrEdit => exact ctrEditWrites_withReport t h
  all_goals cases h; rfl

/-- A command answers with the same results whatever the report was before it. -/
theorem exec_withReport {i : Instr} {s u : State} (t : State) (h : exec i s = .next u) :
    ∃ v, exec i (s.withReport t) = .next v ∧ v.mem = u.mem ∧ v.blkOut = u.blkOut ∧ v.chain = u.chain ∧ v.gfR = u.gfR ∧
      v.rk = u.rk ∧ v.nr = u.nr ∧ v.ksValid = u.ksValid ∧ v.errCode = u.errCode := by
  rcases exec_next_cases h with ⟨c, hc, rfl⟩ | ⟨hc, w, hw, rfl⟩
  · refine ⟨_, exec_error ((commandError_withReport i s t).trans hc), ?_⟩
    cases c <;> exact ⟨rfl, rfl, rfl, rfl, rfl, rfl, rfl, rfl⟩
  · exact ⟨_, exec_ok ((commandError_withReport i s t).trans hc) (writesOf_withReport t hw),
      rfl, rfl, rfl, rfl, rfl, rfl, rfl, rfl⟩

/-- Settles O54: a register access while BUSY reaches only the report, which no command reads. -/
theorem resultIsAsAtIssue : Obligations.ResultIsAsAtIssue := by
  intro s t u r i off hb ht hacc hexec
  rw [busAccess_register ht, Host.Outcome.next.injEq] at hacc
  rw [← hacc, registerAccess_busy_withReport hb r off]
  exact exec_withReport _ hexec

/-! ### The engine's turn, and a command from issue to completion -/

/-- Settles O5: one equation of `step` for each place the engine has its turn. -/
theorem stepRunsDecodedCommand : Obligations.StepRunsDecodedCommand := by
  refine ⟨fun s i hb hd => ⟨fun h => ?_, fun rest h => ?_, fun r rest h hl hh => ?_⟩,
    fun s hs => ⟨fun h => ?_, fun rest h => ?_⟩, fun s nbits w i hd => ?_⟩
  · rw [step_empty h, engineTurn_ok hb hd]
  · rw [step_engine h]; exact engineTurn_ok hb hd
  · rw [step_held h hl hh, engineTurn_ok hb hd]
  · rw [step_empty h, engineTurn_idle hs]
  · rw [step_engine h]; exact engineTurn_idle hs
  · rw [step_engine (s := s.withFetchWord nbits w) rfl]
    exact engineTurn_ok rfl (decodeTableWord_some hd)

/-- Settles O6: the three turns of the engine, on a word that is no command. -/
theorem illegalCommandCompletesWithError : Obligations.IllegalCommandCompletesWithError := by
  refine fun s e hb hd => ⟨fun h => ?_, fun rest h => ?_, fun r rest h hl hh => ?_⟩
  · rw [step_empty h]; exact engineTurn_error hb hd
  · rw [step_engine h]; exact engineTurn_error hb hd
  · rw [step_held h hl hh]; exact engineTurn_error hb hd

/-- The encoder's word decodes to its command (rule R102). -/
theorem decode_encode (i : Instr) : decode (encode i) = .ok i := by
  cases i <;> decide

/-- The issue of a command changes none of its operands (rule R47). -/
theorem commandError_acceptCommand (i : Instr) (v : Word) (s : State) : commandError i (acceptCommand v s) = commandError i s := by
  cases i <;> rfl

/-- A CMD write to a live idle machine issues the word (rules R47 and R74). -/
theorem step_issue {s : State} {v : Word} {rest : List Event} (hl : s.live = true) (hs : s.seq = .idle)
    (h : s.inputs = .access (.write .w32 (s.cfg.base + regOffset .cmd) v) :: rest) :
    step s = .next (respond .writeDone (acceptCommand v { s with inputs := rest })) := by
  have hheld : isHeld (.write .w32 (s.cfg.base + regOffset .cmd) v) s = false :=
    isHeld_register (off := regOffset .cmd) (targetOf_base_add (by decide))
  have hwrite : writeOffset (regOffset .cmd) v { s with inputs := rest } = acceptCommand v { s with inputs := rest } :=
    writeReg_idle (s := { s with inputs := rest }) hs .cmd v
  calc step s
    _ = busAccess (.write .w32 (s.cfg.base + regOffset .cmd) v) { s with inputs := rest } := step_access h hl hheld
    _ = .next { writeOffset (regOffset .cmd) v { s with inputs := rest } with resp := some .writeDone } :=
      busAccess_write_word (s := { s with inputs := rest }) (by decide) (by decide) v
    _ = .next (respond .writeDone (acceptCommand v { s with inputs := rest })) := by rw [hwrite]; rfl

theorem commandError_respond (i : Instr) (x : Resp) (s : State) : commandError i (respond x s) = commandError i s := by
  cases i <;> rfl

theorem encode_op (i : Instr) : (encode i).extractLsb' 0 8 = opcode i := by
  cases i <;> decide

/-- Settles O55: the issue keeps the operands, so the read range is still initialised when the engine has its turn. -/
theorem issueThenCompletion : Obligations.IssueThenCompletion := by
  intro s i rest hl hs hin hinit
  have hissue := step_issue hl hs hin
  obtain ⟨u, hu⟩ := exec_completes (i := i)
    (s := respond .writeDone (acceptCommand (encode i) { s with inputs := rest })) (by cases i <;> exact hinit)
  obtain ⟨hcode, -⟩ := exec_report hu
  have hframe := exec_frame hu
  refine ⟨_, u, hissue, rfl, rfl, rfl, ?_, ?_, ?_, ?_, ?_, ?_⟩
  · rw [step_engine (rest := rest) rfl, ← hu]
    exact engineTurn_ok rfl (decode_encode i)
  · rw [hframe]
  · rw [hframe]
  · rw [hframe]; exact encode_op i
  · rw [hframe]; rfl
  · rw [hcode, commandError_respond, commandError_acceptCommand, commandError_inputs]

end Sys2Proof.Machine

/-! PROOFS. Bus errors, a host read of an uninitialised byte, the hold of buffer accesses while BUSY, and the accesses AESX does not
answer. -/

namespace Sys2Proof.Machine

/-! ### Bus errors -/

theorem registerAccess_illegal {r : BusReq} {off : Nat} (h : ¬(reqWidth r = .w32 ∧ off % 4 = 0)) (s : State) :
    registerAccess r off s = busError r s := if_neg h

theorem bufferAccess_misaligned {r : BusReq} {a : Nat} (h : a % widthBytes (reqWidth r) ≠ 0) (s : State) :
    bufferAccess r a s = .ok (busError r s) := if_neg fun hok => h hok.1

theorem busAccess_buffer_ok {r : BusReq} {s t : State} {a : Nat} (ht : targetOf s.cfg (reqAddr r) = .buffer a)
    (h : bufferAccess r a s = .ok t) : busAccess r s = .next t := by
  simp only [busAccess, ht, h]

theorem busAccess_buffer_error {r : BusReq} {s : State} {a : Nat} {f : Fault} (ht : targetOf s.cfg (reqAddr r) = .buffer a)
    (h : bufferAccess r a s = .error f) : busAccess r s = .fault f := by
  simp only [busAccess, ht, h]

/-- Settles O19: in either part of the window the access is a `busError`, which writes the response alone. -/
theorem busErrorsChangeNothing : Obligations.BusErrorsChangeNothing := by
  intro s r h
  have herror : busAccess r s = .next (busError r s) := by
    rcases h with ⟨off, ht, hill⟩ | ⟨a, ht, hmis⟩
    · rw [busAccess_register ht, registerAccess_illegal hill]
    · exact busAccess_buffer_ok ht (bufferAccess_misaligned hmis s)
  rw [herror]
  cases r <;> rfl

/-! ### Uninitialised bytes -/

/-- A read stops at the first uninitialised byte of its range (rule R72; log entry 10). -/
theorem memRead_firstError {m : Memory} {a n k : Nat} (hk : k < n) (hinit : Initialised m a k) (hnone : m.byteAt (a + k) = none) :
    memRead m a n = .error (.uninitBufferRead (a + k)) := by
  cases hr : memRead m a n with
  | ok bs =>
    obtain ⟨hlen, hbytes⟩ := memRead_ok_iff.mp hr
    have hpast := (hbytes k hk).symm.trans hnone
    rw [List.getElem?_eq_none_iff] at hpast
    omega
  | error f =>
    obtain ⟨j, -, hjnone, rfl, hbelow⟩ := memRead_error hr
    rcases Nat.lt_trichotomy j k with hlt | rfl | hgt
    · simpa [hjnone] using hinit j hlt
    · rfl
    · simpa [hnone] using hbelow k hgt

/-- An aligned host read inside the buffer stops where its `memRead` stops (rules R72 and R75). -/
theorem bufferAccess_read_error {s : State} {w : Width} {addr a : Nat} {f : Fault} (hin : a + widthBytes w ≤ s.cfg.bufBytes)
    (hal : a % widthBytes w = 0) (hr : memRead s.mem a (widthBytes w) = .error f) :
    bufferAccess (.read w addr) a s = .error f := by
  simp only [bufferAccess, reqWidth, hal, hin, and_self, if_true, hr]

/-- Settles O22: an aligned read lies inside the buffer, and the fault is that of its `memRead`. -/
theorem uninitialisedHostReadFaults : Obligations.UninitialisedHostReadFaults := by
  intro s w addr a k ht hal hk hinit hnone
  have hin := aligned_access_in_buffer (targetOf_buffer ht).2 hal
  exact busAccess_buffer_error (r := .read w addr) ht (bufferAccess_read_error hin hal (memRead_firstError hk hinit hnone))

/-! ### The hold of buffer accesses -/

/-- The completion of the command in flight leaves SEQ idle and answers no access (rule R48). -/
theorem engineTurn_busy_next {s t : State} (hb : s.seq = .busy) (h : engineTurn s = .next t) :
    t.seq = .idle ∧ t.inputs = s.inputs ∧ t.resp = s.resp ∧ t.live = s.live := by
  cases hd : decode s.pending with
  | ok i =>
    rw [engineTurn_ok hb hd] at h
    rw [exec_frame h]
    exact ⟨rfl, rfl, rfl, rfl⟩
  | error e =>
    rw [engineTurn_error hb hd] at h
    cases h
    exact ⟨rfl, rfl, rfl, rfl⟩

theorem isHeld_idle {s : State} (h : s.seq = .idle) (r : BusReq) : isHeld r s = false := by
  simp [← Bool.not_eq_true, isHeld_iff, h]

/-- Settles O23: the held access is still at the head of `inputs` after the completion, and an idle machine holds nothing. -/
theorem bufferAccessHeldWhileBusy : Obligations.BufferAccessHeldWhileBusy := by
  intro s t r rest a hl hb hi ht
  have hturn : step s = engineTurn s := step_held hi hl (isHeld_iff.mpr ⟨hb, a, ht⟩)
  refine ⟨hturn, fun hstep => ?_⟩
  obtain ⟨hseq, hinputs, hresp, hlive⟩ := engineTurn_busy_next hb (hturn.symm.trans hstep)
  exact ⟨hseq, hinputs, hresp, step_access (hinputs.trans hi) (hlive.trans hl) (isHeld_idle hseq r)⟩

/-! ### Accesses that are not answered -/

theorem targetOf_outside {c : Config} {addr : Nat} (h : addr < c.base ∨ c.base + 0x1000 + c.bufBytes ≤ addr) :
    targetOf c addr = .outside := by
  unfold targetOf
  rcases h with hbelow | habove
  · rw [if_pos hbelow]
  · rw [if_neg (by omega), if_neg (by omega), if_neg (by omega)]

theorem busAccess_outside {r : BusReq} {s : State} (h : targetOf s.cfg (reqAddr r) = .outside) :
    busAccess r s = .next (respond .unselected s) := by
  simp only [busAccess, h]

theorem step_access_before_reset {s : State} {r : BusReq} {rest : List Event} (h : s.inputs = .access r :: rest)
    (hl : s.live = false) : step s = .fault .busBeforeReset := by
  simp only [step, h, hl, if_true]

/-- Settles O24: below and above the window the access has no target, and no access reaches the port before the first reset. -/
theorem unansweredAccesses : Obligations.UnansweredAccesses :=
  ⟨fun _ _ h => busAccess_outside (targetOf_outside h), fun _ _ _ hl hi => step_access_before_reset hi hl⟩

end Sys2Proof.Machine

/-! PROOFS. The opcode map in both directions, the words that are no command, and the round trip of a command word. -/

namespace Sys2Proof.Machine

/-! ### The thirteen commands and their opcodes -/

/-- The commands in the order of the opcode map (rule R101). -/
def allCommands : List Instr :=
  [.keyExpand, .blockEnc, .blockDec, .ecbEnc, .ecbDec, .cbcEnc, .cbcDec, .ctrXform, .ctrEdit, .gfMul, .gfInv, .sboxFwd, .sboxInv]

theorem mem_allCommands (i : Instr) : i ∈ allCommands := by
  cases i <;> decide

/-- The legal opcodes are those of the commands, each once and in order (rule R101). -/
theorem listedOps_eq_map_opcode : listedOps = allCommands.map opcode := rfl

theorem exists_commandOfOp_iff {b : Byte} : (∃ i, commandOfOp b = some i) ↔ b ∈ listedOps := by
  rw [listedOps_eq_map_opcode, List.mem_map]
  constructor
  · rintro ⟨i, h⟩
    exact ⟨i, mem_allCommands i, (commandOfOp_some h).symm⟩
  · rintro ⟨i, -, rfl⟩
    exact ⟨i, commandOfOp_opcode i⟩

theorem commandOfOp_none_iff {b : Byte} : commandOfOp b = none ↔ b ∉ listedOps := by
  rw [← exists_commandOfOp_iff, ← Option.isSome_iff_exists, Option.not_isSome_iff_eq_none]

theorem cmdWord_wf_iff {c : CmdWord} : c.wf = true ↔ c.rsv = 0 ∧ c.op ∈ listedOps := by
  simp [CmdWord.wf, CmdWord.rsvZero, CmdWord.opListed]

/-! ### A command has one word -/

/-- A word that decodes to a command has that command's two fields, so it is the encoder's word (rules R100 and R101). -/
theorem encode_of_decode {w : Word} {i : Instr} (h : decode w = .ok i) : encode i = w := by
  obtain ⟨hrsv, hop⟩ := decode_ok_iff.mp h
  calc encode i
    _ = CmdWord.toWord ⟨(CmdWord.ofWord w).rsv, (CmdWord.ofWord w).op⟩ := by rw [hrsv, commandOfOp_some hop]; rfl
    _ = w := toWord_ofWord w

theorem decode_ok_iff_encode {w : Word} {i : Instr} : decode w = .ok i ↔ encode i = w :=
  ⟨encode_of_decode, fun h => h ▸ decode_encode i⟩

/-- A command word, numbered as the opcode table numbers it, is that word (rule R100). -/
theorem decodeTableWord_of_decode {w : Word} {i : Instr} (h : decode w = .ok i) : decodeTableWord 32 w.toNat = some i := by
  have hvalue : tableValue 32 w.toNat = w.toNat := Nat.mod_eq_of_lt w.isLt
  rw [decodeTableWord, hvalue, if_pos w.isLt, BitVec.ofNat_toNat, BitVec.setWidth_eq, h]

/-! ### The obligations -/

/-- Settles O4: the word is its two fields, and the decoder reads both. -/
theorem encodeReturnsTheDecodedWord : Obligations.EncodeReturnsTheDecodedWord :=
  fun _ _ h => encode_of_decode h

/-- Settles O2: the rows of the map are the encoder's words, and a word decodes to a command exactly when it is that command's. -/
theorem decodeFollowsOpcodeMap : Obligations.DecodeFollowsOpcodeMap := by
  intro w i
  change decode w = .ok i ↔ (w, i) ∈ allCommands.map fun j => (encode j, j)
  rw [decode_ok_iff_encode, List.mem_map]
  constructor
  · rintro rfl
    exact ⟨i, mem_allCommands i, rfl⟩
  · rintro ⟨j, -, hrow⟩
    obtain ⟨hword, rfl⟩ := Prod.mk.inj hrow
    exact hword

/-- Settles O3: the decoder's answers by the word's fields, with the opcodes the map leaves out being the unlisted ones. -/
theorem illegalWordsAreRefusedByName : Obligations.IllegalWordsAreRefusedByName := by
  refine fun w => ⟨decode_reserved_iff, ?_, ?_⟩
  · rw [decode_unlisted_iff, commandOfOp_none_iff]; rfl
  · simp only [decode_ok_iff, exists_and_left, exists_commandOfOp_iff, cmdWord_wf_iff]

/-- Settles O1: the samples by evaluation, and the encoder's words by the round trip. -/
theorem sampleWordsDecode : Obligations.SampleWordsDecode :=
  ⟨by decide, by decide, by decide, by decide, by decide,
    fun i _ => ⟨decode_encode i, decodeTableWord_of_decode (decode_encode i)⟩⟩

end Sys2Proof.Machine

/-! PROOFS. The cipher engine: the field laws and the inverse, the tables, the transforms and their inverses, the rounds, and the key
schedule. -/

namespace Sys2Proof.Machine

/-! ### The field of rules R120 to R122

Every byte is a sum of powers of x, so a law that is additive in a byte needs to be shown only of 1 and of a product with x. -/

theorem xtimes_xtime (n : Nat) (a : Byte) : xtimes n (xtime a) = xtime (xtimes n a) := by
  induction n generalizing a with
  | zero => rfl
  | succ n ih => exact ih (xtime a)

theorem gterm_xtime (a b : Byte) (i : Nat) : gterm (xtime a) b i = xtime (gterm a b i) := by
  unfold gterm; split
  · exact xtimes_xtime i a
  · exact xtime_zero.symm

theorem gmul_xtime_left (a b : Byte) : gmul (xtime a) b = xtime (gmul a b) := by
  simp only [gmul_eq_sum, gterm_xtime, xtime_xor]

@[simp] theorem gmul_one (a : Byte) : gmul a 1#8 = a := by
  simp [gmul_eq_sum, gterm, xtimes]

theorem gmul_two (a : Byte) : gmul a 2 = xtime a := by
  simp [gmul_eq_sum, gterm, xtimes]

@[simp] theorem gmul_zero (a : Byte) : gmul a 0#8 = 0#8 := by
  simp [gmul_eq_sum, gterm]

@[simp] theorem gmul_one_left (b : Byte) : gmul 1#8 b = b := by
  revert b; decide +kernel

/-- What holds of 1, and passes to the product with x and to sums, holds of every byte: `b = gmul 1 b` is a sum of powers of x. -/
theorem byte_induction {P : Byte → Prop} (one : P 1) (mulX : ∀ a, P a → P (xtime a)) (add : ∀ a b, P a → P b → P (a ^^^ b))
    (b : Byte) : P b := by
  have hzero : P 0 := by simpa using add 1 1 one one
  have hpow (n : Nat) : ∀ a, P a → P (xtimes n a) := by
    induction n with
    | zero => exact fun a ha => ha
    | succ n ih => exact fun a ha => ih _ (mulX a ha)
  have hterm (i : Nat) : P (gterm 1 b i) := by
    unfold gterm; split
    · exact hpow i 1 one
    · exact hzero
  rw [← gmul_one_left b, gmul_eq_sum]
  exact add _ _ (add _ _ (add _ _ (add _ _ (add _ _ (add _ _ (add _ _ (hterm 0) (hterm 1)) (hterm 2)) (hterm 3)) (hterm 4))
    (hterm 5)) (hterm 6)) (hterm 7)

theorem gmul_xtime_right (a b : Byte) : gmul a (xtime b) = xtime (gmul a b) := by
  induction a using byte_induction with
  | one => simp
  | mulX a ih => rw [gmul_xtime_left, gmul_xtime_left, ih]
  | add a c iha ihc => rw [gmul_xor_left, gmul_xor_left, iha, ihc, xtime_xor]

theorem gmul_comm (a b : Byte) : gmul a b = gmul b a := by
  induction b using byte_induction with
  | one => simp
  | mulX b ih => rw [gmul_xtime_right, gmul_xtime_left, ih]
  | add b c ihb ihc => rw [gmul_xor_right, gmul_xor_left, ihb, ihc]

theorem gmul_assoc (a b c : Byte) : gmul (gmul a b) c = gmul a (gmul b c) := by
  induction a using byte_induction with
  | one => simp
  | mulX a ih => simp only [gmul_xtime_left, ih]
  | add a d iha ihd => simp only [gmul_xor_left, iha, ihd]

@[simp] theorem gmul_zero_left (b : Byte) : gmul 0#8 b = 0#8 := by rw [gmul_comm, gmul_zero]

/-- Settles O33: the product is additive in each operand and commutes with `xtime`, so its laws follow from those of 1. -/
theorem fieldMultiplicationLaws : Obligations.FieldMultiplicationLaws :=
  fun a b c => ⟨gmul_comm a b, gmul_assoc a b c, gmul_xor_right a b c, gmul_xor_left a b c, gmul_one a, gmul_zero a, gmul_two a,
    xtime_eq a⟩

/-! ### Powers

Squaring is additive, because the field has characteristic 2, so eight squarings leave every byte as it is. -/

/-- `a^n`, the product of `n` factors `a`. -/
def gpow (a : Byte) (n : Nat) : Byte := (gmul a)^[n] 1

@[simp] theorem gpow_zero (a : Byte) : gpow a 0 = 1#8 := rfl

theorem gpow_succ (a : Byte) (n : Nat) : gpow a (n + 1) = gmul a (gpow a n) := Function.iterate_succ_apply' ..

@[simp] theorem gpow_one (a : Byte) : gpow a 1 = a := by rw [gpow_succ a 0, gpow_zero, gmul_one]

theorem gpow_add (a : Byte) (m n : Nat) : gpow a (m + n) = gmul (gpow a m) (gpow a n) := by
  induction m with
  | zero => simp
  | succ m ih => rw [Nat.add_right_comm, gpow_succ, gpow_succ, ih, gmul_assoc]

theorem gsquare_gpow (a : Byte) (n : Nat) : gsquare (gpow a n) = gpow a (n + n) := (gpow_add a n n).symm

theorem gsquare_eq_gpow (a : Byte) : gsquare a = gpow a 2 := by
  simpa only [gpow_one] using gsquare_gpow a 1

/-- The squarings of `ginv` and their product, as one power (rule R123). -/
theorem ginv_eq_gpow (a : Byte) : ginv a = gpow a 254 := by
  simp only [ginv, gsquare_eq_gpow a, gsquare_gpow, ← gpow_add]

theorem gsquare_xor (a b : Byte) : gsquare (a ^^^ b) = gsquare a ^^^ gsquare b := by
  have hcancel (p q r : Byte) : (p ^^^ q) ^^^ (q ^^^ r) = p ^^^ r := by simp [BitVec.xor_assoc, ← BitVec.xor_assoc q q]
  simp only [gsquare, gmul_xor_left, gmul_xor_right, gmul_comm b a, hcancel]

theorem gsquare_gmul (a b : Byte) : gsquare (gmul a b) = gmul (gsquare a) (gsquare b) := by
  simp only [gsquare, gmul_assoc]
  rw [← gmul_assoc b a, gmul_comm b a, gmul_assoc]

theorem iterate_gsquare_xor (n : Nat) (a b : Byte) : gsquare^[n] (a ^^^ b) = gsquare^[n] a ^^^ gsquare^[n] b := by
  induction n with
  | zero => rfl
  | succ n ih => simp only [Function.iterate_succ_apply', ih, gsquare_xor]

theorem iterate_gsquare_gmul (n : Nat) (a b : Byte) : gsquare^[n] (gmul a b) = gmul (gsquare^[n] a) (gsquare^[n] b) := by
  induction n with
  | zero => rfl
  | succ n ih => simp only [Function.iterate_succ_apply', ih, gsquare_gmul]

theorem iterate_gsquare_eq_gpow (n : Nat) (a : Byte) : gsquare^[n] a = gpow a (2 ^ n) := by
  induction n with
  | zero => exact (gpow_one a).symm
  | succ n ih => rw [Function.iterate_succ_apply', ih, gsquare_gpow, Nat.pow_succ, Nat.mul_two]

/-- Eight squarings keep 1 and x, and respect products and sums. -/
theorem iterate_gsquare_8 (a : Byte) : gsquare^[8] a = a := by
  have hone : gsquare 1 = 1 := gmul_one 1
  have hx : gsquare^[8] 2 = 2 := by decide +kernel
  induction a using byte_induction with
  | one => exact Function.iterate_fixed hone 8
  | mulX a ih => rw [← gmul_two, iterate_gsquare_gmul, ih, hx]
  | add a b iha ihb => rw [iterate_gsquare_xor, iha, ihb]

theorem gpow_256 (a : Byte) : gpow a 256 = a :=
  (iterate_gsquare_eq_gpow 8 a).symm.trans (iterate_gsquare_8 a)

/-! ### The inverse of rule R123, and the forward S-box

The S-box holds the inverses, behind the affine map of rule R124: undoing that map on an entry gives a byte whose product with the
index is 1, and such a byte is the 254th power of the index. -/

/-- The affine map of rule R124 as a sum of rotations: bit `i` of `b.rotateRight k` is bit `(i + k) mod 8` of `b`. -/
def sboxAffine (b : Byte) : Byte :=
  b ^^^ b.rotateRight 4 ^^^ b.rotateRight 5 ^^^ b.rotateRight 6 ^^^ b.rotateRight 7 ^^^ 0x63#8

/-- The inverse of the affine map. -/
def sboxAffineInv (c : Byte) : Byte := c.rotateRight 2 ^^^ c.rotateRight 5 ^^^ c.rotateRight 7 ^^^ 0x05#8

theorem sboxAffine_sboxAffineInv (c : Byte) : sboxAffine (sboxAffineInv c) = c := by
  revert c; decide +kernel

theorem gmul_sboxAffineInv_sbox {a : Byte} (ha : a ≠ 0) : gmul a (sboxAffineInv (sbox a)) = 1 := by
  revert a; decide +kernel

theorem eq_ginv_of_gmul_eq_one {a y : Byte} (h : gmul a y = 1) : y = ginv a := by
  have hcancel (z : Byte) : gmul y (gmul a z) = z := by
    rw [← gmul_assoc, gmul_comm y a, h]; exact gmul_one_left z
  calc y
    _ = gmul y 1 := (gmul_one y).symm
    _ = gmul y (gmul y (gpow a 256)) := by rw [gpow_256, gmul_comm y a, h]
    _ = gmul y (gpow a 255) := by rw [gpow_succ a 255, hcancel]
    _ = gpow a 254 := by rw [gpow_succ a 254, hcancel]
    _ = ginv a := (ginv_eq_gpow a).symm

theorem ginv_eq_sboxAffineInv {a : Byte} (ha : a ≠ 0) : ginv a = sboxAffineInv (sbox a) :=
  (eq_ginv_of_gmul_eq_one (gmul_sboxAffineInv_sbox ha)).symm

theorem gmul_ginv {a : Byte} (ha : a ≠ 0) : gmul a (ginv a) = 1 := by
  rw [ginv_eq_sboxAffineInv ha, gmul_sboxAffineInv_sbox ha]

@[simp] theorem ginv_zero : ginv 0#8 = 0#8 := by simp [ginv, gsquare]

/-- Settles O34: `ginv` is the 254th power, and any byte whose product with `a` is 1 is that power. -/
theorem inverseIsTheUniqueInverse : Obligations.InverseIsTheUniqueInverse :=
  ⟨ginv_zero, fun a => ⟨ginv_eq_gpow a, fun ha => ⟨gmul_ginv ha, fun _ => eq_ginv_of_gmul_eq_one⟩⟩⟩

theorem sbox_eq_affine (x : Byte) : sbox x = sboxAffine (ginv x) := by
  by_cases hx : x = 0
  · subst hx; decide +kernel
  · rw [ginv_eq_sboxAffineInv hx, sboxAffine_sboxAffineInv]

/-! ### The tables -/

theorem getLsbD_rotateRight_byte (b : Byte) {i k : Nat} (hi : i < 8) (hk : k < 8) :
    (b.rotateRight k).getLsbD i = b.getLsbD ((i + k) % 8) := by
  rw [BitVec.getLsbD_rotateRight_of_lt hk]
  rcases Nat.lt_or_ge i (8 - k) with h | h
  · simp [h, Nat.add_comm k i, Nat.mod_eq_of_lt (show i + k < 8 by omega)]
  · simp [Nat.not_lt.mpr h, hi, show i - (8 - k) = (i + k) % 8 by omega]

theorem getLsbD_sboxAffine (b : Byte) {i : Nat} (hi : i < 8) : (sboxAffine b).getLsbD i =
    (b.getLsbD i ^^ b.getLsbD ((i + 4) % 8) ^^ b.getLsbD ((i + 5) % 8) ^^ b.getLsbD ((i + 6) % 8) ^^ b.getLsbD ((i + 7) % 8) ^^
      (0x63#8).getLsbD i) := by
  have hrot {k : Nat} (hk : k < 8) := getLsbD_rotateRight_byte b hi hk
  simp only [sboxAffine, BitVec.getLsbD_xor, hrot (k := 4) (by decide), hrot (k := 5) (by decide), hrot (k := 6) (by decide),
    hrot (k := 7) (by decide)]

@[simp] theorem invSbox_sbox (x : Byte) : invSbox (sbox x) = x := by
  revert x; decide +kernel

@[simp] theorem sbox_invSbox (x : Byte) : sbox (invSbox x) = x := by
  revert x; decide +kernel

theorem sbox_no_fixed_point (x : Byte) : sbox x ≠ x ∧ sbox x ≠ x ^^^ 0xFF := by
  revert x; decide +kernel

theorem rcon_succ {j : Nat} (h1 : 1 ≤ j) (h9 : j ≤ 9) : rcon (j + 1) = xtime (rcon j) := by
  interval_cases j <;> decide

/-- Settles O32: each table by its entries, and the bits of the affine map by the rotations it is a sum of. -/
theorem tablesFollowTheirConstruction : Obligations.TablesFollowTheirConstruction := by
  refine ⟨fun x i hi => ?_, fun x => ⟨invSbox_sbox x, sbox_invSbox x, sbox_no_fixed_point x⟩, rfl, fun _ => rcon_succ⟩
  rw [sbox_eq_affine, getLsbD_sboxAffine _ hi]

/-! ### Bytes and columns of the transforms -/

theorem blockByte_mapBytes (f : Byte → Byte) (s : Block) {k : Nat} (hk : k < 16) :
    blockByte (mapBytes f s) k = f (blockByte s k) := by
  interval_cases k <;> rfl

theorem blockByte_xor (s t : Block) {k : Nat} (hk : k < 16) : blockByte (s.xor t) k = blockByte s k ^^^ blockByte t k := by
  interval_cases k <;> rfl

/-- The bytes of column `c` are bytes `4c .. 4c+3` of the block (rule R9). -/
theorem blockByte_blockCol (s : Block) (c r : Fin 4) : blockByte s (4 * c.val + r.val) = colRow (blockCol s c) r := by
  rw [Nat.add_comm, blockByte_matrixAt]; rfl

@[simp] theorem blockCol_mapCols (f : Col → Col) (s : Block) (c : Fin 4) : blockCol (mapCols f s) c = f (blockCol s c) := by
  fin_cases c <;> rfl

theorem blockByte_mapCols (f : Col → Col) (s : Block) (c r : Fin 4) :
    blockByte (mapCols f s) (4 * c.val + r.val) = colRow (f (blockCol s c)) r := by
  rw [blockByte_blockCol, blockCol_mapCols]

@[simp] theorem matrixAt_ofMatrix (f : Fin 4 → Fin 4 → Byte) (r c : Fin 4) : matrixAt (ofMatrix f) r c = f r c := by
  fin_cases r <;> fin_cases c <;> rfl

@[simp] theorem ofMatrix_matrixAt (s : Block) : (ofMatrix fun r c => matrixAt s r c) = s := rfl

@[simp] theorem matrixAt_shiftRows (s : Block) (r c : Fin 4) : matrixAt (shiftRows s) r c = matrixAt s r (c + r) :=
  matrixAt_ofMatrix _ r c

@[simp] theorem matrixAt_invShiftRows (s : Block) (r c : Fin 4) : matrixAt (invShiftRows s) r c = matrixAt s r (c - r) :=
  matrixAt_ofMatrix _ r c

/-! ### Substitutions and row shifts undone -/

theorem mapBytes_mapBytes_cancel {f g : Byte → Byte} (h : ∀ x, f (g x) = x) (s : Block) : mapBytes f (mapBytes g s) = s := by
  simp [mapBytes, mapCol, h]

@[simp] theorem invSubBytes_subBytes (s : Block) : invSubBytes (subBytes s) = s := mapBytes_mapBytes_cancel invSbox_sbox s

@[simp] theorem subBytes_invSubBytes (s : Block) : subBytes (invSubBytes s) = s := mapBytes_mapBytes_cancel sbox_invSbox s

@[simp] theorem invShiftRows_shiftRows (s : Block) : invShiftRows (shiftRows s) = s := by
  simp only [invShiftRows, matrixAt_shiftRows, sub_add_cancel, ofMatrix_matrixAt]

@[simp] theorem shiftRows_invShiftRows (s : Block) : shiftRows (invShiftRows s) = s := by
  simp only [shiftRows, matrixAt_invShiftRows, add_sub_cancel_right, ofMatrix_matrixAt]

/-! ### Column mixing undone

MixColumns and InvMixColumns are matrices over the field, and the two matrices are inverse to each other. -/

/-- The sum of products of two columns of field elements. -/
def colDot (k a : Col) : Byte := gmul k.b0 a.b0 ^^^ gmul k.b1 a.b1 ^^^ gmul k.b2 a.b2 ^^^ gmul k.b3 a.b3

/-- The product of the matrix with rows `m.c0 .. m.c3` and a column. -/
def mulCol (m : Block) (a : Col) : Col := ⟨colDot m.c0 a, colDot m.c1 a, colDot m.c2 a, colDot m.c3 a⟩

/-- The product of a row and the matrix with rows `m.c0 .. m.c3`. -/
def rowMul (k : Col) (m : Block) : Col :=
  ⟨colDot k ⟨m.c0.b0, m.c1.b0, m.c2.b0, m.c3.b0⟩, colDot k ⟨m.c0.b1, m.c1.b1, m.c2.b1, m.c3.b1⟩,
    colDot k ⟨m.c0.b2, m.c1.b2, m.c2.b2, m.c3.b2⟩, colDot k ⟨m.c0.b3, m.c1.b3, m.c2.b3, m.c3.b3⟩⟩

/-- The matrix of rule R131, by rows. -/
def mixMatrix : Block := ⟨⟨2, 3, 1, 1⟩, ⟨1, 2, 3, 1⟩, ⟨1, 1, 2, 3⟩, ⟨3, 1, 1, 2⟩⟩

/-- The matrix of rule R132, by rows. -/
def invMixMatrix : Block := ⟨⟨14, 11, 13, 9⟩, ⟨9, 14, 11, 13⟩, ⟨13, 9, 14, 11⟩, ⟨11, 13, 9, 14⟩⟩

/-- The identity matrix, by rows. -/
def oneMatrix : Block := ⟨⟨1, 0, 0, 0⟩, ⟨0, 1, 0, 0⟩, ⟨0, 0, 1, 0⟩, ⟨0, 0, 0, 1⟩⟩

theorem mixColumn_eq_mulCol (a : Col) : mixColumn a = mulCol mixMatrix a := by
  simp [mixColumn, mulCol, colDot, mixMatrix]

theorem invMixColumn_eq_mulCol (a : Col) : invMixColumn a = mulCol invMixMatrix a := rfl

theorem mulCol_oneMatrix (a : Col) : mulCol oneMatrix a = a := by
  simp [mulCol, colDot, oneMatrix]

theorem colDot_mulCol (k : Col) (m : Block) (a : Col) : colDot k (mulCol m a) = colDot (rowMul k m) a := by
  simp only [colDot, mulCol, rowMul, gmul_xor_left, gmul_xor_right, gmul_assoc]
  ac_rfl

theorem mulCol_mulCol (m n : Block) (a : Col) : mulCol m (mulCol n a) = mulCol (mapCols (rowMul · n) m) a := by
  simp only [mulCol, mapCols, ← colDot_mulCol]

theorem invMixColumn_mixColumn (a : Col) : invMixColumn (mixColumn a) = a := by
  have hinv : mapCols (rowMul · mixMatrix) invMixMatrix = oneMatrix := by decide +kernel
  rw [mixColumn_eq_mulCol, invMixColumn_eq_mulCol, mulCol_mulCol, hinv, mulCol_oneMatrix]

theorem mixColumn_invMixColumn (a : Col) : mixColumn (invMixColumn a) = a := by
  have hinv : mapCols (rowMul · invMixMatrix) mixMatrix = oneMatrix := by decide +kernel
  rw [mixColumn_eq_mulCol, invMixColumn_eq_mulCol, mulCol_mulCol, hinv, mulCol_oneMatrix]

@[simp] theorem invMixColumns_mixColumns (s : Block) : invMixColumns (mixColumns s) = s := by
  simp only [invMixColumns, mixColumns, mapCols, invMixColumn_mixColumn]

@[simp] theorem mixColumns_invMixColumns (s : Block) : mixColumns (invMixColumns s) = s := by
  simp only [invMixColumns, mixColumns, mapCols, mixColumn_invMixColumn]

/-- Settles O31: each transform undone on its bytes, rows or columns, and the byte moves read off the matrix. -/
theorem inverseTransformsUndo : Obligations.InverseTransformsUndo := by
  refine fun s => ⟨invSubBytes_subBytes s, invShiftRows_shiftRows s, invMixColumns_mixColumns s, mixColumns_invMixColumns s,
    fun r c => ?_, fun r c => ?_⟩
  · rw [← Fin.val_add, blockByte_matrixAt, blockByte_matrixAt, matrixAt_shiftRows]
  · rw [← Fin.val_add, blockByte_matrixAt, blockByte_matrixAt, matrixAt_invShiftRows, add_sub_cancel_right]

/-! ### Encryption and decryption undone -/

@[simp] theorem addRoundKey_addRoundKey (s k : Block) : addRoundKey (addRoundKey s k) k = s := block_xor_xor s k

theorem decRound_encRound (rk : Vector Block 15) (s : Block) (round : Nat) : decRound rk (encRound rk s round) round = s := by
  simp [decRound, encRound]

theorem encRound_decRound (rk : Vector Block 15) (s : Block) (round : Nat) : encRound rk (decRound rk s round) round = s := by
  simp [decRound, encRound]

/-- Steps that are each undone are undone in reverse order. -/
theorem foldl_reverse_foldl_cancel {α β : Type} {f g : α → β → α} (h : ∀ s x, g (f s x) x = s) (l : List β) (s : α) :
    l.reverse.foldl g (l.foldl f s) = s := by
  induction l generalizing s with
  | nil => rfl
  | cons x l ih => simp [ih, h]

theorem foldl_foldl_reverse_cancel {α β : Type} {f g : α → β → α} (h : ∀ s x, f (g s x) x = s) (l : List β) (s : α) :
    l.foldl f (l.reverse.foldl g s) = s := by
  simpa using foldl_reverse_foldl_cancel h l.reverse s

theorem decryptBlock_encryptBlock (rk : Vector Block 15) (nr : Nat) (p : Block) :
    decryptBlock rk nr (encryptBlock rk nr p) = p := by
  simp only [decryptBlock, encryptBlock, addRoundKey_addRoundKey, invShiftRows_shiftRows, invSubBytes_subBytes,
    foldl_reverse_foldl_cancel (decRound_encRound rk)]

theorem encryptBlock_decryptBlock (rk : Vector Block 15) (nr : Nat) (c : Block) :
    encryptBlock rk nr (decryptBlock rk nr c) = c := by
  simp only [decryptBlock, encryptBlock, addRoundKey_addRoundKey, shiftRows_invShiftRows, subBytes_invSubBytes,
    foldl_foldl_reverse_cancel (encRound_decRound rk)]

/-- Settles O30: the rounds of one undo those of the other in reverse order. -/
theorem decryptInvertsEncrypt : Obligations.DecryptInvertsEncrypt :=
  fun rk nr p => ⟨decryptBlock_encryptBlock rk nr p, encryptBlock_decryptBlock rk nr p⟩

/-! ### The rounds -/

/-- The state of encryption after `round` rounds (rule R136). -/
def encState (rk : Vector Block 15) (b : Block) (round : Nat) : Block :=
  (List.range' 1 round).foldl (encRound rk) (b.xor (roundKey rk 0))

theorem encState_succ (rk : Vector Block 15) (b : Block) (round : Nat) :
    encState rk b (round + 1) = encRound rk (encState rk b round) (round + 1) := by
  simp [encState, List.range'_concat, Nat.add_comm 1]

/-- The state of decryption when the rounds `nr - 1` down to `round + 1` are done (rule R137). -/
def decState (rk : Vector Block 15) (nr : Nat) (b : Block) (round : Nat) : Block :=
  (List.range' (round + 1) (nr - 1 - round)).reverse.foldl (decRound rk) (invSubBytes (invShiftRows (b.xor (roundKey rk nr))))

theorem decState_pred (rk : Vector Block 15) (nr : Nat) (b : Block) {round : Nat} (h : round + 1 < nr) :
    decState rk nr b round = decRound rk (decState rk nr b (round + 1)) (round + 1) := by
  have hlen : nr - 1 - round = (nr - 1 - (round + 1)) + 1 := by omega
  simp only [decState, hlen, List.range'_succ, List.reverse_cons, List.foldl_append, List.foldl_cons, List.foldl_nil]

/-- Settles O28: the transforms byte by byte and column by column, and the rounds as the folds' states in order. -/
theorem roundsFollowTheCipherRules : Obligations.RoundsFollowTheCipherRules := by
  refine ⟨fun s k hk => ⟨blockByte_mapBytes sbox s hk, blockByte_mapBytes invSbox s hk, fun t => blockByte_xor s t hk⟩,
    fun s c => ?_, fun rk nr b hnr => ⟨⟨encState rk b, rfl, fun round h1 hlt => ?_, rfl⟩, decState rk nr b, ?_, ?_, rfl⟩⟩
  · intro a m v
    have hmix (r : Fin 4) : m r = colRow (mixColumn (blockCol s c)) r := blockByte_mapCols mixColumn s c r
    have hinv (r : Fin 4) : v r = colRow (invMixColumn (blockCol s c)) r := blockByte_mapCols invMixColumn s c r
    rw [show a 0 = (blockCol s c).b0 from blockByte_blockCol s c 0, show a 1 = (blockCol s c).b1 from blockByte_blockCol s c 1,
      show a 2 = (blockCol s c).b2 from blockByte_blockCol s c 2, show a 3 = (blockCol s c).b3 from blockByte_blockCol s c 3]
    exact ⟨hmix 0, hmix 1, hmix 2, hmix 3, hinv 0, hinv 1, hinv 2, hinv 3⟩
  · obtain ⟨n, rfl⟩ := Nat.exists_eq_add_of_le' h1
    exact encState_succ rk b n
  · simp [decState]
  · intro round h1 hlt
    obtain ⟨n, rfl⟩ := Nat.exists_eq_add_of_le' h1
    exact decState_pred rk nr b hlt

/-! ### The key schedule -/

theorem roundsOfKeyLength_eq_some {n nr : Nat} :
    roundsOfKeyLength n = some nr ↔ n = 16 ∧ nr = 10 ∨ n = 24 ∧ nr = 12 ∨ n = 32 ∧ nr = 14 := by
  unfold roundsOfKeyLength
  split_ifs <;> simp <;> omega

/-- `colsOfBytes` ends where fewer than four bytes are left. -/
theorem length_lt_four {bs : List Byte} (h : ∀ a b c d rest, bs = a :: b :: c :: d :: rest → False) : bs.length < 4 := by
  match bs, h with
  | [], _ | [_], _ | [_, _], _ | [_, _, _], _ => simp
  | a :: b :: c :: d :: rest, h => exact (h a b c d rest rfl).elim

theorem colsOfBytes_length (bs : List Byte) : (colsOfBytes bs).length = bs.length / 4 := by
  induction bs using colsOfBytes.induct with
  | case1 a b c d rest ih => simp only [colsOfBytes, List.length_cons, ih]; omega
  | case2 bs h =>
    rw [colsOfBytes, Nat.div_eq_of_lt (length_lt_four h), List.length_nil]
    exact h

/-- Byte `m` of word `i` is byte `4i+m` of the sequence. -/
theorem getElem?_colsOfBytes {bs : List Byte} {i m : Nat} (hi : i < bs.length / 4) (hm : m < 4) :
    (colBytes ((colsOfBytes bs).getD i Col.zero))[m]? = bs[4 * i + m]? := by
  induction bs using colsOfBytes.induct generalizing i with
  | case1 a b c d rest ih =>
    cases i with
    | zero => interval_cases m <;> rfl
    | succ i =>
      have hi' : i < rest.length / 4 := by simp only [List.length_cons] at hi; omega
      rw [show 4 * (i + 1) + m = 4 * i + m + 1 + 1 + 1 + 1 by omega]
      exact ih hi'
  | case2 bs h =>
    have hshort := length_lt_four h
    omega

section MoreWords

variable {nk : Nat}

/-- Further words leave the first ones as they are. -/
theorem moreWords_getD_old (n : Nat) {w : List Col} {i : Nat} (hi : i < w.length) :
    (moreWords nk n w).getD i Col.zero = w.getD i Col.zero := by
  induction n generalizing w with
  | zero => rfl
  | succ n ih => rw [moreWords, ih (by simp; omega), List.getD_append _ _ _ _ hi]

/-- Each further word is the next word after those before it. -/
theorem moreWords_getD_new {n : Nat} {w : List Col} {i : Nat} (hnk : 0 < nk) (hw : nk ≤ w.length) (hlo : w.length ≤ i)
    (hhi : i < w.length + n) :
    (moreWords nk n w).getD i Col.zero = ((moreWords nk n w).getD (i - nk) Col.zero).xor
      (scheduleTemp nk i ((moreWords nk n w).getD (i - 1) Col.zero)) := by
  induction n generalizing w with
  | zero => omega
  | succ n ih =>
    rcases Nat.eq_or_lt_of_le hlo with rfl | hlt
    · have hold {j : Nat} (hj : j < w.length) := moreWords_getD_old (nk := nk) (n + 1) hj
      have hnext : (moreWords nk (n + 1) w).getD w.length Col.zero = nextWord nk w := by
        rw [moreWords, moreWords_getD_old _ (by simp)]; simp
      rw [hnext, hold (by omega), hold (by omega), nextWord]
    · exact ih (by simp; omega) (by simpa using hlt) (by simp; omega)

end MoreWords

theorem roundKey_keyExpansion {key : List Byte} {nr : Nat} (hnr : nr ≤ 14) (k : Nat) :
    roundKey (keyExpansion key nr) k = if k ≤ nr then roundKeyOf (scheduleWords key nr) k else Block.zero := by
  rcases Nat.lt_or_ge k 15 with hk | hk
  · simp [roundKey, keyExpansion, hk]
  · simp [roundKey, Nat.not_lt.mpr hk, show ¬k ≤ nr by omega]

theorem storeWord_column (rk : Vector Block 15) (k : Nat) (c : Fin 4) :
    storeWord rk (4 * k + c.val) = blockCol (roundKey rk k) c := by
  have hdiv : (4 * k + c.val) / 4 = k := by omega
  have hmod : (4 * k + c.val) % 4 = c.val := by omega
  simp only [storeWord, hdiv, hmod]
  fin_cases c <;> rfl

theorem blockCol_roundKeyOf (w : List Col) (k : Nat) (c : Fin 4) :
    blockCol (roundKeyOf w k) c = w.getD (4 * k + c.val) Col.zero := by
  fin_cases c <;> rfl

/-- The words of the store are those of the schedule. -/
theorem storeWord_keyExpansion {key : List Byte} {nr i : Nat} (hnr : nr ≤ 14) (hi : i < 4 * (nr + 1)) :
    storeWord (keyExpansion key nr) i = (scheduleWords key nr).getD i Col.zero := by
  obtain ⟨k, c, rfl⟩ : ∃ (k : Nat) (c : Fin 4), i = 4 * k + c.val :=
    ⟨i / 4, ⟨i % 4, Nat.mod_lt _ (by decide)⟩, (Nat.div_add_mod i 4).symm⟩
  rw [storeWord_column, roundKey_keyExpansion hnr, if_pos (by omega), blockCol_roundKeyOf]

/-- Settles O26: the schedule is the key's words followed by the words of the loop, and the store holds its words. -/
theorem keyScheduleFollowsRecurrence : Obligations.KeyScheduleFollowsRecurrence := by
  refine ⟨fun n nr => by simp [roundsOfKeyLength_eq_some], fun key nr hlen => ?_⟩
  have hlen := roundsOfKeyLength_eq_some.mp hlen
  have hnr : nr ≤ 14 := by omega
  have hnk : (colsOfBytes key).length = key.length / 4 := colsOfBytes_length key
  intro nk rk
  have hstore (i : Nat) (hi : i < 4 * (nr + 1)) : storeWord rk i = (scheduleWords key nr).getD i Col.zero :=
    storeWord_keyExpansion hnr hi
  have hwords : scheduleWords key nr = moreWords nk (4 * (nr + 1) - nk) (colsOfBytes key) := by
    simp only [scheduleWords, hnk, nk]
  refine ⟨fun i m hi hm => ?_, fun i hlo hhi => ?_, fun k hk => ?_⟩
  · rw [hstore i (by omega), hwords, moreWords_getD_old _ (hnk ▸ hi)]
    exact getElem?_colsOfBytes hi hm
  · intro t u
    have hnew := moreWords_getD_new (nk := nk) (w := colsOfBytes key) (n := 4 * (nr + 1) - nk) (i := i) (by omega) (by omega)
      (by omega) (by omega)
    rw [← hwords, ← hstore i hhi, ← hstore (i - nk) (by omega), ← hstore (i - 1) (by omega)] at hnew
    exact hnew
  · rw [roundKey_keyExpansion hnr, if_neg (by omega)]

/-- Settles O29: both vectors by running the model. -/
theorem knownAnswersHold : Obligations.KnownAnswersHold := by
  unfold Obligations.KnownAnswersHold
  decide +kernel

end Sys2Proof.Machine

/-! PROOFS. The mode commands over ranges that are equal or disjoint: each output comes from the input before the command, and from
that the inverse of each mode and the CTR edit as a transform of the edited plaintext. -/

namespace Sys2Proof.Machine

/-! ### Blocks in the buffer -/

theorem blockAt_of_memRead {m : Memory} {a : Nat} {d : List Byte} (h : memRead m a 16 = .ok d) :
    blockAt m a = some (blockOfBytes d) := by
  simp only [blockAt, h]

/-- A block in the buffer is its 16 bytes in order (rule R8). -/
theorem byteAt_of_blockAt {m : Memory} {a : Nat} {b : Block} (h : blockAt m a = some b) {k : Nat} (hk : k < 16) :
    m.byteAt (a + k) = some (blockByte b k) := by
  unfold blockAt at h
  split at h
  · rename_i d hd
    cases h
    obtain ⟨hlen, hbytes⟩ := memRead_ok_iff.mp hd
    rw [hbytes k hk, getElem?_eq_blockByte hlen hk]
  · cases h

/-- A range of whole blocks that are all present is initialised. -/
theorem initialised_of_blockAt {m : Memory} {a n : Nat} (hn : n % 16 = 0)
    (h : ∀ k, k < n / 16 → ∃ b, blockAt m (a + 16 * k) = some b) : Initialised m a n := by
  intro j hj
  obtain ⟨b, hb⟩ := h (j / 16) (by omega)
  have hbyte := byteAt_of_blockAt hb (k := j % 16) (by omega)
  rw [show a + 16 * (j / 16) + j % 16 = a + j by omega] at hbyte
  simp [hbyte]

/-- Two ranges with the same blocks have the same bytes. -/
theorem byteAt_eq_of_blockAt {m m' : Memory} {a a' n : Nat} (hn : n % 16 = 0)
    (h : ∀ k, k < n / 16 → ∃ b, blockAt m (a + 16 * k) = some b ∧ blockAt m' (a' + 16 * k) = some b) {j : Nat}
    (hj : j < n) : m.byteAt (a + j) = m'.byteAt (a' + j) := by
  obtain ⟨b, hb, hb'⟩ := h (j / 16) (by omega)
  have hbyte := byteAt_of_blockAt hb (k := j % 16) (by omega)
  have hbyte' := byteAt_of_blockAt hb' (k := j % 16) (by omega)
  rw [show a + 16 * (j / 16) + j % 16 = a + j by omega] at hbyte
  rw [show a' + 16 * (j / 16) + j % 16 = a' + j by omega] at hbyte'
  rw [hbyte, hbyte']

/-! ### A run over ranges that are equal or disjoint -/

/-- `ChunkTrace.result` for a run over whole blocks. -/
theorem ChunkTrace.blockResult {f : ChunkFn} {src dst len : Nat} {bufs : Nat → Memory} {chain : Nat → Block}
    (h : ChunkTrace f src dst len (chunkCount len) 0 bufs chain) (hf : KeepsLength f len) (hlen : len % 16 = 0)
    (hc : NoClobber src dst len) {k : Nat} (hk : k < len / 16) :
    ∃ b, blockAt (bufs 0) (src + 16 * k) = some b ∧ chain (k + 1) = (f k (chain k) (blockBytes b)).2 ∧
      blockAt (bufs (chunkCount len)) (dst + 16 * k) = some (blockOfBytes (f k (chain k) (blockBytes b)).1) := by
  obtain ⟨d, hd, hdl, hch, hout⟩ := h.result hf le_rfl hc (k := k) (by rw [chunkCount_of_mod hlen]; exact hk)
  have hmin : min 16 (len - 16 * k) = 16 := by omega
  rw [hmin] at hd hdl hout
  refine ⟨blockOfBytes d, blockAt_of_memRead hd, ?_, ?_⟩ <;> rw [blockBytes_blockOfBytes hdl]
  · exact hch
  · exact blockAt_of_memRead hout

/-- What CTR makes of byte `j` of its message: the sum with byte `j` of the keystream (rule R156). -/
def ctrByte (s : State) (j : Nat) (b : Byte) : Byte := b ^^^ blockByte (keystream s (j / 16)) (j % 16)

@[simp] theorem ctrByte_ctrByte (s : State) (j : Nat) (b : Byte) : ctrByte s j (ctrByte s j b) = b := by
  simp [ctrByte]

/-- Byte `b` of the output of CTR chunk `k` comes from byte `b` of the chunk alone. -/
theorem getElem?_ctrChunk (s : State) (ch : Block) {k b : Nat} {d : List Byte} (hd : d.length ≤ 16) (hb : b < 16) :
    (ctrChunk s k ch d).1[b]? = d[b]?.map (ctrByte s (16 * k + b)) := by
  have hbyte (x : Byte) : ctrByte s (16 * k + b) x = x ^^^ blockByte (keystream s k) b := by
    rw [ctrByte, show (16 * k + b) / 16 = k by omega, show (16 * k + b) % 16 = b by omega]
  rw [ctrChunk, xorBytes_take (by simpa using hd), List.getElem?_zipWith, getElem?_blockBytes _ hb]
  cases d[b]? <;> simp [hbyte]

/-! ### What a mode command leaves at its destination -/

/-- A command whose checks pass and that answers a next state made its writes. -/
theorem writesOf_of_exec {i : Instr} {s t : State} (hpass : commandError i s = none) (h : exec i s = .next t) :
    ∃ u, writesOf i s = .ok u ∧ t = reportSuccess u := by
  rcases exec_next_cases h with ⟨c, hc, -⟩ | ⟨-, hu⟩
  · rw [hpass] at hc; cases hc
  · exact hu

/-- Only a command whose checks pass leaves ERR clear. -/
theorem commandError_none_of_err {i : Instr} {s t : State} (h : exec i s = .next t) (herr : t.err = false) :
    commandError i s = none := by
  have hreport := (exec_report h).2
  cases hc : commandError i s with
  | none => rfl
  | some c => simp [hc, herr] at hreport

section Outputs

variable {s t : State} (hc : NoClobber s.src.toNat s.dst.toNat s.len.toNat)
include hc

/-- ECB: each output block is the block function applied to the input block in its place (rules R151 and R152). -/
theorem ecb_blockAt {i : Instr} {f : Block → Block} (hi : i ∈ [Instr.ecbEnc, .ecbDec])
    (hw : writesOf i s = bufferWrites (ecbChunk f) s) (hpass : commandError i s = none) (h : exec i s = .next t) {k : Nat}
    (hk : k < s.len.toNat / 16) :
    ∃ b, blockAt s.mem (s.src.toNat + 16 * k) = some b ∧ blockAt t.mem (s.dst.toNat + 16 * k) = some (f b) := by
  have hlen := ((commandError_none_ecb hi).mp hpass).2.1
  obtain ⟨u, hu, rfl⟩ := writesOf_of_exec hpass h
  obtain ⟨bufs, chain, h0, -, ht, rfl⟩ := bufferWrites_ok (hw ▸ hu)
  obtain ⟨b, hb, -, hout⟩ := ht.blockResult (keepsLength_ecb hlen) hlen hc hk
  exact ⟨b, h0 ▸ hb, hout⟩

theorem ecb_blockAt_map {i : Instr} {f : Block → Block} (hi : i ∈ [Instr.ecbEnc, .ecbDec])
    (hw : writesOf i s = bufferWrites (ecbChunk f) s) (hpass : commandError i s = none) (h : exec i s = .next t) {k : Nat}
    (hk : k < s.len.toNat / 16) :
    blockAt t.mem (s.dst.toNat + 16 * k) = (blockAt s.mem (s.src.toNat + 16 * k)).map f := by
  obtain ⟨b, hb, hout⟩ := ecb_blockAt hc hi hw hpass h hk
  rw [hb, hout, Option.map_some]

/-- CBC encryption: the chaining value of a block is the output block before it (rule R153). -/
theorem cbcEnc_blockAt (hpass : commandError .cbcEnc s = none) (h : exec .cbcEnc s = .next t) {k : Nat}
    (hk : k < s.len.toNat / 16) :
    ∃ p prev, blockAt s.mem (s.src.toNat + 16 * k) = some p ∧
      some prev = (if k = 0 then some (groupBlock s.iv) else blockAt t.mem (s.dst.toNat + 16 * (k - 1))) ∧
      blockAt t.mem (s.dst.toNat + 16 * k) = some (s.encrypt (p.xor prev)) := by
  have hlen := ((commandError_none_cbc (by simp)).mp hpass).2.2.1
  obtain ⟨u, hu, rfl⟩ := writesOf_of_exec hpass h
  obtain ⟨bufs, chain, h0, hc0, ht, rfl⟩ := cbcWrites_ok hu
  obtain ⟨p, hp, -, hout⟩ := ht.blockResult (keepsLength_cbcEnc hlen) hlen hc hk
  refine ⟨p, chain k, h0 ▸ hp, ?_, hout⟩
  cases k with
  | zero => simp [hc0]
  | succ k =>
    obtain ⟨q, -, hch, hprev⟩ := ht.blockResult (keepsLength_cbcEnc hlen) hlen hc (k := k) (by omega)
    rw [if_neg (by omega), hch]
    exact hprev.symm

/-- CBC decryption: the chaining value of a block is the input block before it (rule R154). -/
theorem cbcDec_blockAt (hpass : commandError .cbcDec s = none) (h : exec .cbcDec s = .next t) {k : Nat}
    (hk : k < s.len.toNat / 16) :
    ∃ c prev, blockAt s.mem (s.src.toNat + 16 * k) = some c ∧
      some prev = (if k = 0 then some (groupBlock s.iv) else blockAt s.mem (s.src.toNat + 16 * (k - 1))) ∧
      blockAt t.mem (s.dst.toNat + 16 * k) = some ((s.decrypt c).xor prev) := by
  have hlen := ((commandError_none_cbc (by simp)).mp hpass).2.2.1
  obtain ⟨u, hu, rfl⟩ := writesOf_of_exec hpass h
  obtain ⟨bufs, chain, h0, hc0, ht, rfl⟩ := cbcWrites_ok hu
  obtain ⟨c, hcb, -, hout⟩ := ht.blockResult (keepsLength_cbcDec hlen) hlen hc hk
  refine ⟨c, chain k, h0 ▸ hcb, ?_, hout⟩
  cases k with
  | zero => simp [hc0]
  | succ k =>
    obtain ⟨q, hq, hch, -⟩ := ht.blockResult (keepsLength_cbcDec hlen) hlen hc (k := k) (by omega)
    rw [if_neg (by omega), hch, ← h0]
    exact hq.symm

/-- CTR: each output byte is the input byte in its place plus its keystream byte (rule R156). -/
theorem ctrXform_byteAt (hpass : commandError .ctrXform s = none) (h : exec .ctrXform s = .next t) {j : Nat}
    (hj : j < s.len.toNat) :
    t.mem.byteAt (s.dst.toNat + j) = (s.mem.byteAt (s.src.toNat + j)).map (ctrByte s j) := by
  obtain ⟨u, hu, rfl⟩ := writesOf_of_exec hpass h
  obtain ⟨bufs, chain, h0, -, ht, rfl⟩ := bufferWrites_ok hu
  obtain ⟨d, hd, hdl, -, hout⟩ := ht.result (keepsLength_ctr s _) le_rfl hc (k := j / 16) (by unfold chunkCount; omega)
  have hin := (memRead_ok_iff.mp hd).2 (j % 16) (by omega)
  have hres := (memRead_ok_iff.mp hout).2 (j % 16) (by omega)
  rw [getElem?_ctrChunk s _ (by omega) (by omega), ← hin, h0] at hres
  rwa [Nat.add_assoc, Nat.add_assoc, show 16 * (j / 16) + j % 16 = j by omega] at hres

end Outputs

/-- Settles O41: a command that leaves ERR clear passed its checks, and then each output is the one its rule gives for the input. -/
theorem inPlaceEqualsSeparateBuffers : Obligations.InPlaceEqualsSeparateBuffers := by
  intro s t hc herr
  exact ⟨fun h _ hk => ecb_blockAt_map hc (by simp) rfl (commandError_none_of_err h herr) h hk,
    fun h _ hk => ecb_blockAt_map hc (by simp) rfl (commandError_none_of_err h herr) h hk,
    fun h _ hk => cbcEnc_blockAt hc (commandError_none_of_err h herr) h hk,
    fun h _ hk => cbcDec_blockAt hc (commandError_none_of_err h herr) h hk,
    fun h _ hj => ctrXform_byteAt hc (commandError_none_of_err h herr) h hj⟩

/-! ### A command and the one after it -/

/-- The state a command that changes only the buffer leaves when it leaves the buffer `m`. -/
def bufferCompleted (s : State) (m : Memory) : State := reportSuccess { s with mem := m }

/-- ECB and CTR change the buffer only. -/
theorem exec_buffer_completes {i : Instr} {s : State} (hi : i ∈ [Instr.ecbEnc, .ecbDec, .ctrXform, .ctrEdit])
    (hpass : commandError i s = none) (hinit : Initialised s.mem (readRange i s).1 (readRange i s).2) :
    ∃ m, exec i s = .next (bufferCompleted s m) := by
  obtain ⟨u, hu⟩ := writesOf_completes hinit
  refine ⟨u.mem, ?_⟩
  rw [exec_ok hpass hu, writesOf_buffer_frame hi hu]; rfl

/-- CBC changes the buffer and CHAIN only. -/
theorem exec_cbc_completes {i : Instr} {s : State} (hi : i ∈ [Instr.cbcEnc, .cbcDec]) (hpass : commandError i s = none)
    (hinit : Initialised s.mem s.src.toNat s.len.toNat) : ∃ r, exec i s = .next (cbcCompleted s r) := by
  obtain ⟨r, hr⟩ := chunkLoop_completes (f := cbcChunk i s) (dst := s.dst.toNat) (n := chunkCount s.len.toNat) (i := 0)
    (ch := groupBlock s.iv) hinit
  exact ⟨r, exec_cbc_completed hi hpass hr⟩

/-- `t` set to work on its destination in place. -/
def inPlace (t : State) : State := { t with src := t.dst }

theorem rangesFit_inPlace {t : State} (h : RangesFit t) : RangesFit (inPlace t) := ⟨h.2, h.2⟩

theorem noClobber_inPlace (t : State) : NoClobber (inPlace t).src.toNat (inPlace t).dst.toNat (inPlace t).len.toNat := .inl rfl

/-! ### CTR twice, and the CTR edit -/

/-- CTR_XFORM over ranges that are equal or disjoint: the buffer it leaves, at its destination and outside it. -/
theorem exec_ctrXform_completes {s : State} (hk : s.ksValid = true) (hfit : RangesFit s)
    (hc : NoClobber s.src.toNat s.dst.toNat s.len.toNat) (hinit : Initialised s.mem s.src.toNat s.len.toNat) :
    ∃ m, exec .ctrXform s = .next (bufferCompleted s m) ∧ WrittenWithin s.dst.toNat s.len.toNat s.mem m ∧
      ∀ j, j < s.len.toNat → m.byteAt (s.dst.toNat + j) = (s.mem.byteAt (s.src.toNat + j)).map (ctrByte s j) := by
  have hpass := commandError_none_ctrXform.mpr ⟨hk, hfit⟩
  obtain ⟨m, hm⟩ := exec_buffer_completes (by simp) hpass hinit
  exact ⟨m, hm, exec_writtenWithin hm, fun j hj => ctrXform_byteAt hc hpass hm hj⟩

/-- Two ranges with the same initialised bytes read alike. -/
theorem memRead_eq_of_byteAt {m m' : Memory} {a a' n : Nat} (hinit : Initialised m' a' n)
    (h : ∀ k, k < n → m.byteAt (a + k) = m'.byteAt (a' + k)) : memRead m a n = memRead m' a' n := by
  obtain ⟨bs, hbs⟩ := memRead_exists hinit
  obtain ⟨hlen, hbytes⟩ := memRead_ok_iff.mp hbs
  rw [hbs, memRead_ok_iff]
  exact ⟨hlen, fun k hk => (h k hk).trans (hbytes k hk)⟩

/-- Settles O42: the second run adds the same keystream byte to each byte that the first one left. -/
theorem ctrTransformIsAnInvolution : Obligations.CtrTransformIsAnInvolution := by
  intro s hk hfit hc hinit
  obtain ⟨m, hm, -, hbytes⟩ := exec_ctrXform_completes hk hfit hc hinit
  have hinit' : Initialised m s.dst.toNat s.len.toNat := fun j hj => by rw [hbytes j hj, Option.isSome_map]; exact hinit j hj
  obtain ⟨m', hm', -, hbytes'⟩ := exec_ctrXform_completes (s := inPlace (bufferCompleted s m)) hk (rangesFit_inPlace hfit)
    (noClobber_inPlace _) hinit'
  have hback : ∀ j, j < s.len.toNat → m'.byteAt (s.dst.toNat + j) = s.mem.byteAt (s.src.toNat + j) := fun j hj => by
    calc m'.byteAt (s.dst.toNat + j) = (m.byteAt (s.dst.toNat + j)).map (ctrByte s j) := hbytes' j hj
      _ = s.mem.byteAt (s.src.toNat + j) := by
        rw [hbytes j hj]; cases s.mem.byteAt (s.src.toNat + j) <;> simp
  exact ⟨_, _, hm, hm', memRead_eq_of_byteAt hinit hback, hback⟩

/-- CTR_EDIT with a new plaintext outside the ciphertext: the bytes it leaves there (rule R157). -/
theorem ctrEdit_byteAt {s t : State} (hpass : commandError .ctrEdit s = none) (h : exec .ctrEdit s = .next t)
    (hout : s.src.toNat + s.eLen.toNat ≤ s.dst.toNat ∨ s.dst.toNat + s.len.toNat ≤ s.src.toNat) (j : Nat) :
    t.mem.byteAt (s.dst.toNat + j) =
      if s.offset.toNat ≤ j ∧ j < s.offset.toNat + s.eLen.toNat then
        (s.mem.byteAt (s.src.toNat + (j - s.offset.toNat))).map (ctrByte s j)
      else s.mem.byteAt (s.dst.toNat + j) := by
  obtain ⟨-, hbounds, -⟩ := commandError_none_ctrEdit.mp hpass
  split
  · obtain ⟨u, hu, rfl⟩ := writesOf_of_exec hpass h
    obtain ⟨bufs, h0, ht, rfl⟩ := ctrEditWrites_ok hu
    have hres := ht.result (by omega) (k := j - s.offset.toNat) (by omega) le_rfl
    rw [h0, Nat.add_assoc, show s.offset.toNat + (j - s.offset.toNat) = j by omega] at hres
    exact hres
  · exact (exec_writtenWithin h).frame _ (by simp only [storedRange]; omega)

/-- Settles O43: both sides add keystream byte `j` to byte `j` of the edited plaintext. -/
theorem ctrEditEqualsTransformOfEdited : Obligations.CtrEditEqualsTransformOfEdited := by
  intro s newAt new hk hfit hc hinit hedit hout hnew
  obtain ⟨hnewLen, hnewBytes⟩ := memRead_ok_iff.mp hnew
  obtain ⟨m, hm, hwithin, hbytes⟩ := exec_ctrXform_completes hk hfit hc hinit
  obtain ⟨mv, hmv, -, hbytesv⟩ := exec_ctrXform_completes
    (s := { s with mem := memWrite s.mem (s.src.toNat + s.offset.toNat) new }) hk hfit hc
    fun j hj => byteAt_memWrite_isSome (hinit j hj)
  have hkept : ∀ k, k < s.eLen.toNat → m.byteAt (newAt.toNat + k) = new[k]? := fun k hk => by
    rw [hwithin.frame _ (by omega), hnewBytes k hk]
  have hpass : commandError .ctrEdit { bufferCompleted s m with src := newAt } = none :=
    commandError_none_ctrEdit.mpr ⟨hk, hedit⟩
  obtain ⟨mu, hmu⟩ := exec_buffer_completes (by simp) hpass fun k (hk : k < s.eLen.toNat) => by
    show (m.byteAt (newAt.toNat + k)).isSome = true
    simp [hkept k hk, hnewLen, hk]
  refine ⟨_, _, _, hm, hmu, hmv, fun j hj => ?_⟩
  calc mu.byteAt (s.dst.toNat + j)
      = if s.offset.toNat ≤ j ∧ j < s.offset.toNat + s.eLen.toNat then
          (m.byteAt (newAt.toNat + (j - s.offset.toNat))).map (ctrByte s j)
        else m.byteAt (s.dst.toNat + j) := ctrEdit_byteAt hpass hmu hout j
    _ = ((memWrite s.mem (s.src.toNat + s.offset.toNat) new).byteAt (s.src.toNat + j)).map (ctrByte s j) := by
      rw [byteAt_memWrite, hnewLen]
      split
      · rw [hkept _ (by omega), if_pos (by omega)]; congr 2; omega
      · rw [hbytes j hj, if_neg (by omega)]
    _ = mv.byteAt (s.dst.toNat + j) := (hbytesv j hj).symm

/-! ### Decryption undoes encryption in each mode -/

/-- From `s`, `enc` and then `dec` in place on its output complete, and leave the source blocks of `s` at its destination. -/
def RoundTripsBlocks (enc dec : Instr) (s : State) : Prop :=
  ∃ t u : State, exec enc s = .next t ∧ exec dec { t with src := s.dst } = .next u ∧
    ∀ k, k < s.len.toNat / 16 → ∃ b, blockAt u.mem (s.dst.toNat + 16 * k) = some b ∧
      blockAt s.mem (s.src.toNat + 16 * k) = some b

section RoundTrip

variable {s : State} (hk : s.ksValid = true) (hlen : s.len.toNat % 16 = 0) (hfit : RangesFit s)
  (hc : NoClobber s.src.toNat s.dst.toNat s.len.toNat) (hinit : Initialised s.mem s.src.toNat s.len.toNat)
include hk hlen hfit hc hinit

theorem ecb_roundTripsBlocks : RoundTripsBlocks .ecbEnc .ecbDec s := by
  have hpass : commandError .ecbEnc s = none := (commandError_none_ecb (by simp)).mpr ⟨hk, hlen, hfit⟩
  obtain ⟨m, hm⟩ := exec_buffer_completes (by simp) hpass hinit
  have henc {k : Nat} (hkn : k < s.len.toNat / 16) := ecb_blockAt hc (by simp) (f := s.encrypt) rfl hpass hm hkn
  have hinit' : Initialised m s.dst.toNat s.len.toNat := initialised_of_blockAt hlen fun k hkn => by
    obtain ⟨p, -, hout⟩ := henc hkn
    exact ⟨_, hout⟩
  have hpass' : commandError .ecbDec (inPlace (bufferCompleted s m)) = none :=
    (commandError_none_ecb (by simp)).mpr ⟨hk, hlen, rangesFit_inPlace hfit⟩
  obtain ⟨m', hm'⟩ := exec_buffer_completes (by simp) hpass' hinit'
  refine ⟨_, _, hm, hm', fun k hkn => ?_⟩
  obtain ⟨p, hp, hcipher⟩ := henc hkn
  obtain ⟨c, hcb, hplain⟩ := ecb_blockAt (noClobber_inPlace _) (by simp) (f := s.decrypt) rfl hpass' hm' hkn
  obtain rfl : s.encrypt p = c := Option.some.inj (hcipher.symm.trans hcb)
  exact ⟨p, hplain.trans (congrArg some (decryptBlock_encryptBlock s.rk s.nr.toNat p)), hp⟩

/-- CBC decryption in place takes as chaining values the ciphertext blocks that encryption took. -/
theorem cbc_roundTripsBlocks (hiv : s.ivLen.toNat = 16) : RoundTripsBlocks .cbcEnc .cbcDec s := by
  have hpass : commandError .cbcEnc s = none := (commandError_none_cbc (by simp)).mpr ⟨hk, hiv, hlen, hfit⟩
  obtain ⟨r, hr⟩ := exec_cbc_completes (by simp) hpass hinit
  have hinit' : Initialised r.1 s.dst.toNat s.len.toNat := initialised_of_blockAt hlen fun k hkn => by
    obtain ⟨p, prev, -, -, hout⟩ := cbcEnc_blockAt hc hpass hr hkn
    exact ⟨_, hout⟩
  have hpass' : commandError .cbcDec (inPlace (cbcCompleted s r)) = none :=
    (commandError_none_cbc (by simp)).mpr ⟨hk, hiv, hlen, rangesFit_inPlace hfit⟩
  obtain ⟨r', hr'⟩ := exec_cbc_completes (by simp) hpass' hinit'
  refine ⟨_, _, hr, hr', fun k hkn => ?_⟩
  obtain ⟨p, prev, hp, hprev, hcipher⟩ := cbcEnc_blockAt hc hpass hr hkn
  obtain ⟨c, prev', hcb, hprev', hplain⟩ := cbcDec_blockAt (noClobber_inPlace _) hpass' hr' hkn
  obtain rfl : s.encrypt (p.xor prev) = c := Option.some.inj (hcipher.symm.trans hcb)
  obtain rfl : prev = prev' := Option.some.inj (hprev.trans hprev'.symm)
  refine ⟨p, hplain.trans (congrArg some ?_), hp⟩
  calc (s.decrypt (s.encrypt (p.xor prev))).xor prev
      = (p.xor prev).xor prev := congrArg (·.xor prev) (decryptBlock_encryptBlock s.rk s.nr.toNat _)
    _ = p := block_xor_xor p prev

end RoundTrip

/-- Settles O44: block by block, each mode's decryption undoes its encryption. -/
theorem modesRoundTrip : Obligations.ModesRoundTrip := by
  intro s enc dec hmode hk hiv hlen hfit hc hinit
  have hblocks : RoundTripsBlocks enc dec s := by
    simp only [List.mem_cons, List.not_mem_nil, or_false, Prod.mk.injEq] at hmode
    rcases hmode with ⟨rfl, rfl⟩ | ⟨rfl, rfl⟩
    · exact ecb_roundTripsBlocks hk hlen hfit hc hinit
    · exact cbc_roundTripsBlocks hk hlen hfit hc hinit (hiv rfl)
  obtain ⟨t, u, ht, hu, hback⟩ := hblocks
  exact ⟨t, u, ht, hu, fun j hj => byteAt_eq_of_blockAt hlen hback hj⟩

end Sys2Proof.Machine

/-! PROOFS. The errors a command reports and what a failed command writes; the reset and power-on events; then what a step does to
the report, to `irq` and to OVR. -/

namespace Sys2Proof.Machine

/-! ### KEY_EXPAND -/

/-- Only the three key lengths of rule R134 have a schedule. -/
theorem roundsOfKeyLength_isNone {n : Nat} : (roundsOfKeyLength n).isNone = true ↔ n ∉ [16, 24, 32] := by
  unfold roundsOfKeyLength
  split_ifs <;> simp [*]

/-- KEY_EXPAND with a key length that has a schedule installs it, with the NR of that length (rules R134 and R139). -/
theorem exec_keyExpand_ok {s : State} (h : s.keyLen.toNat ∈ [16, 24, 32]) :
    exec .keyExpand s = .next
      { s with
        ksValid := true, nr := roundsField s.keyLen.toNat
        rk := keyExpansion (keyBytes s) (roundsField s.keyLen.toNat).toNat
        errCode := .noError, done := true, seq := .idle } :=
  exec_ok (commandError_none_keyExpand.mpr fun hn => roundsOfKeyLength_isNone.mp hn h) rfl

/-- KEY_EXPAND with any other key length destroys the schedule (rules R254 and R259). -/
theorem exec_keyExpand_error {s : State} (h : s.keyLen.toNat ∉ [16, 24, 32]) :
    exec .keyExpand s = .next (reportError .invalidKeyLength (invalidateSchedule s)) := by
  have hfail : commandError .keyExpand s = some .invalidKeyLength := by
    rw [commandError_keyExpand, if_pos (roundsOfKeyLength_isNone.mpr h)]
  rw [exec_error hfail, completeError_keyLength]

/-- Settles O25: the key length is the one check, and it fixes NR. -/
theorem keyExpandInstallsOrDestroysSchedule : Obligations.KeyExpandInstallsOrDestroysSchedule := by
  refine fun s => ⟨fun nr hnr => ?_, exec_keyExpand_error⟩
  have hlegal : s.keyLen.toNat ∈ [16, 24, 32] ∧ roundsField s.keyLen.toNat = nr := by
    simp only [List.mem_cons, List.not_mem_nil, or_false, Prod.mk.injEq] at hnr
    rcases hnr with ⟨hlen, rfl⟩ | ⟨hlen, rfl⟩ | ⟨hlen, rfl⟩ <;> rw [hlen] <;> exact ⟨by decide, rfl⟩
  obtain ⟨hlen, rfl⟩ := hlegal
  exact exec_keyExpand_ok hlen

/-! ### The errors of the cipher commands -/

/-- Every cipher command checks the schedule before anything else (rules R253 and R255). -/
theorem commandChecks_cipher {i : Instr} (hi : i ∈ cipherCommands) (s : State) :
    ∃ later, commandChecks i s = checkSchedule s :: later := by
  simp only [cipherCommands, List.mem_cons, List.not_mem_nil, or_false] at hi
  rcases hi with rfl | rfl | rfl | rfl | rfl | rfl | rfl | rfl <;> exact ⟨_, rfl⟩

theorem commandError_noKeySchedule {i : Instr} (hi : i ∈ cipherCommands) {s : State} (hk : s.ksValid = false) :
    commandError i s = some .noKeySchedule := by
  obtain ⟨later, hchecks⟩ := commandChecks_cipher hi s
  simp [commandError, hchecks, checkSchedule, failIf, hk]

/-- Settles O46: the schedule check is the first to fail, and a failed KEY_EXPAND has invalidated the store. -/
theorem cipherCommandsNeedSchedule : Obligations.CipherCommandsNeedSchedule := by
  refine ⟨fun s i hi hk => exec_failed (commandError_noKeySchedule hi hk) (by decide), fun _ => rfl, fun s t hlen h => ?_⟩
  rw [exec_keyExpand_error hlen] at h
  cases h
  rfl

theorem commandError_invalidIvLength {i : Instr} (hi : i ∈ [Instr.cbcEnc, .cbcDec]) {s : State} (hk : s.ksValid = true)
    (hiv : s.ivLen.toNat ≠ 16) : commandError i s = some .invalidIvLength := by
  rw [commandError_cbc hi, if_neg (by simp [hk]), if_pos hiv]

theorem commandError_lengthNotBlockMultiple {i : Instr} (hi : i ∈ [Instr.ecbEnc, .ecbDec, .cbcEnc, .cbcDec]) {s : State}
    (hk : s.ksValid = true) (hiv : i ∈ [Instr.cbcEnc, .cbcDec] → s.ivLen.toNat = 16) (hlen : s.len.toNat % 16 ≠ 0) :
    commandError i s = some .lengthNotBlockMultiple := by
  have hfam : i ∈ [Instr.ecbEnc, .ecbDec] ∨ i ∈ [Instr.cbcEnc, .cbcDec] := List.mem_append.mp hi
  rcases hfam with hecb | hcbc
  · rw [commandError_ecb hecb, if_neg (by simp [hk]), if_pos hlen]
  · rw [commandError_cbc hcbc, if_neg (by simp [hk]), if_neg (not_not.mpr (hiv hcbc)), if_pos hlen]

theorem commandError_outOfBounds {s : State} (hk : s.ksValid = true) (hb : s.offset.toNat + s.eLen.toNat > s.len.toNat) :
    commandError .ctrEdit s = some .outOfBounds := by
  rw [commandError_ctrEdit, if_neg (by simp [hk]), if_pos hb]

/-- With a schedule, CTR_XFORM checks its ranges only (rules R257 and R258). -/
theorem commandError_ctrXform_of_schedule {s : State} (hk : s.ksValid = true) :
    commandError .ctrXform s = none ∨ commandError .ctrXform s = some .bufferRange := by
  rw [commandError_ctrXform, if_neg (by simp [hk])]
  split
  · exact .inr rfl
  · exact .inl rfl

/-- Settles O47: each error is the first check that fails, whatever the checks after it would say. -/
theorem parameterErrorsReportedInOrder : Obligations.ParameterErrorsReportedInOrder := by
  refine fun s hk => ⟨fun i hi hiv => exec_failed (commandError_invalidIvLength hi hk hiv) (by decide),
    fun i hi hiv hlen => exec_failed (commandError_lengthNotBlockMultiple hi hk hiv hlen) (by decide),
    fun hb => exec_failed (commandError_outOfBounds hk hb) (by decide), fun t h => ?_⟩
  rw [(exec_report h).1]
  rcases commandError_ctrXform_of_schedule hk with hc | hc <;> rw [hc]
  · exact .inl rfl
  · exact .inr rfl

/-! ### What a failed command writes -/

@[simp] theorem completeError_errCode (c : ErrCode) (s : State) : (completeError c s).errCode = c := rfl

/-- A command that leaves ERR set where the issue had cleared it has failed a check (rules R47 and R48). -/
theorem exec_failed_cases {i : Instr} {s t : State} (hs : s.err = false) (h : exec i s = .next t) (ht : t.err = true) :
    ∃ c, commandError i s = some c ∧ t = completeError c s := by
  rcases exec_next_cases h with herror | ⟨hpass, -⟩
  · exact herror
  · have hkept := (exec_report h).2
    simp [hpass, hs, ht] at hkept

/-- Settles O49: INVALID_KEY_LENGTH alone has writes besides the report, and an illegal word has none. -/
theorem failedCommandsWriteOnlyTheReport : Obligations.FailedCommandsWriteOnlyTheReport := by
  refine ⟨fun s t i hs h ht => ?_, fun s e rest hb hd hin => ?_⟩
  · obtain ⟨c, hc, rfl⟩ := exec_failed_cases hs h ht
    refine ⟨commandError_ne_noError hc, fun hne => ?_, fun hkey => ?_⟩
    · exact completeError_eq_failed hne s
    · obtain rfl : c = .invalidKeyLength := hkey
      rfl
  · rw [step_engine hin]
    exact engineTurn_error (s := { s with inputs := rest }) hb hd

/-! ### Reset and power-on -/

/-- A reset is taken whatever SEQ is (rule R290). -/
theorem step_reset {s : State} {rest : List Event} (h : s.inputs = .reset :: rest) :
    step s = .next (resetEvent { s with inputs := rest }) := by
  unfold step; rw [h]

/-- So is power-on (rule R293). -/
theorem step_powerOn {s : State} {rest : List Event} (h : s.inputs = .powerOn :: rest) :
    step s = .next (powerOnEvent { s with inputs := rest }) := by
  unfold step; rw [h]

/-- With no command in flight a reset leaves the buffer (rules R290 and R292). -/
theorem resetMemory_idle {s : State} (h : s.seq = .idle) : resetMemory s = s.mem := by
  simp [resetMemory, abortedRange, h]

/-- Settles O57: both events write the reset values, and an idle machine has no range to abort. -/
theorem resetEventsRestoreResetValues : Obligations.ResetEventsRestoreResetValues :=
  ⟨fun s rest hin => ⟨resetMemory { s with inputs := rest }, step_reset hin,
      fun hs => resetMemory_idle (s := { s with inputs := rest }) hs⟩,
    fun _ _ hin => step_powerOn hin⟩

/-! ### A register write, field by field -/

/-- A write to a register other than CMD and STATUS leaves the report (rules R25 and R47). -/
theorem writeReg_report {r : Reg} (hcmd : r ≠ .cmd) (hstatus : r ≠ .status) (v : Word) (s : State) :
    (writeReg r v s).done = s.done ∧ (writeReg r v s).err = s.err ∧ (writeReg r v s).errCode = s.errCode := by
  unfold writeReg
  split
  · exact ⟨rfl, rfl, rfl⟩
  · cases r
    case cmd => exact absurd rfl hcmd
    case status => exact absurd rfl hstatus
    all_goals exact ⟨rfl, rfl, rfl⟩

/-- No register write sets DONE (rule R24). -/
theorem done_of_writeReg {r : Reg} {v : Word} {s : State} (h : (writeReg r v s).done = true) : s.done = true := by
  by_cases hcmd : r = .cmd
  · subst hcmd
    unfold writeReg at h
    split at h
    · exact h
    · cases h
  by_cases hstatus : r = .status
  · subst hstatus
    rw [writeReg_kept rfl] at h
    exact (Bool.and_eq_true_iff.mp h).1
  · rwa [(writeReg_report hcmd hstatus v s).1] at h

/-- Only a CTRL write reaches IE (rule R26). -/
theorem writeReg_ie {r : Reg} (hctrl : r ≠ .ctrl) (v : Word) (s : State) : (writeReg r v s).ie = s.ie := by
  unfold writeReg
  split
  · rfl
  · cases r
    case ctrl => exact absurd rfl hctrl
    all_goals rfl

theorem writeReg_ctrl (v : Word) (s : State) : writeReg .ctrl v s = { s with ie := v.getLsbD 0 } := writeReg_kept rfl v s

/-- A register write leaves a busy engine busy (rules R47 and R49). -/
theorem writeReg_seq_busy {s : State} (hb : s.seq = .busy) (r : Reg) (v : Word) : (writeReg r v s).seq = .busy := by
  rw [writeReg_busy_withReport hb r v]
  exact hb

/-- A write that is not dropped leaves OVR, unless it goes to STATUS (rules R25 and R266). -/
theorem storeReg_ovr {r : Reg} (hstatus : r ≠ .status) (v : Word) (s : State) : (storeReg r v s).ovr = s.ovr := by
  cases r
  case status => exact absurd rfl hstatus
  all_goals rfl

/-- Only a dropped write sets OVR (rule R266). -/
theorem dropped_of_writeReg_ovr {r : Reg} {v : Word} {s : State} (hs : s.ovr = false) (h : (writeReg r v s).ovr = true) :
    s.seq = .busy ∧ r ∈ droppedRegs := by
  unfold writeReg at h
  split at h
  · rename_i hdrop
    obtain ⟨hb, hr⟩ := Bool.and_eq_true_iff.mp hdrop
    exact ⟨busy_eq_true.mp hb, mem_droppedRegs.mpr hr⟩
  · by_cases hstatus : r = .status
    · subst hstatus; simp [storeReg, hs] at h
    · simp [storeReg_ovr hstatus, hs] at h

/-- Only a STATUS write with bit 3 set clears OVR (rules R25 and R266). -/
theorem status_of_writeReg_ovr {r : Reg} {v : Word} {s : State} (hs : s.ovr = true) (h : (writeReg r v s).ovr = false) :
    r = .status ∧ v.getLsbD 3 = true := by
  unfold writeReg at h
  split at h
  · cases h
  · by_cases hstatus : r = .status
    · subst hstatus; simpa [storeReg, hs] using h
    · simp [storeReg_ovr hstatus, hs] at h

/-! ### What a step does to the report -/

/-- The access that writes `v` to a register (rules R21 and R73). -/
def State.writeAccess (s : State) (r : Reg) (v : Word) : Event := .access (.write .w32 (s.cfg.base + regOffset r) v)

/-- A step that answers such an access has made the register write. -/
theorem step_writeAccess {s t : State} {r : Reg} {v : Word} (hin : s.inputs.head? = some (s.writeAccess r v))
    (h : step s = .next t) : t = respond .writeDone (writeReg r v { s with inputs := s.inputs.tail }) := by
  obtain ⟨rest, hin⟩ := List.head?_eq_some_iff.mp hin
  have hlt : regOffset r < 0x1000 := Nat.lt_trans (regOffset_lt r) (by decide)
  have hlive : s.live = true := by
    by_contra hdead
    rw [step_access_before_reset hin (by simpa using hdead)] at h
    cases h
  have hheld : isHeld (.write .w32 (s.cfg.base + regOffset r) v) s = false :=
    isHeld_register (targetOf_base_add hlt)
  have hwrite : writeOffset (regOffset r) v { s with inputs := rest } = writeReg r v { s with inputs := rest } := by
    simp only [writeOffset, regAt_regOffset]
  rw [step_access hin hlive hheld, busAccess_write_word (s := { s with inputs := rest }) (regOffset_mod r) hlt v, hwrite,
    Host.Outcome.next.injEq] at h
  rw [← h, hin]
  rfl

/-- The code a completion reports: the first check that fails, or ILLEGAL_COMMAND (rules R253 and R256). -/
def completionCode (s : State) : ErrCode :=
  match decode s.pending with
  | .ok i => (commandError i s).getD .noError
  | .error _ => .illegalCommand

/-- What one step does to the report, OVR, IE and SEQ. -/
inductive ReportEffect (s : State) : State → Prop where
  | unchanged (t : State) (hdone : t.done = s.done) (herr : t.err = s.err) (hcode : t.errCode = s.errCode)
      (hovr : t.ovr = s.ovr) (hie : t.ie = s.ie) (hseq : t.seq = s.seq) : ReportEffect s t
  | completion (t : State) (hbusy : s.seq = .busy) (hidle : t.seq = .idle) (hdone : t.done = true)
      (hcode : t.errCode = completionCode s) (hovr : t.ovr = s.ovr) (hie : t.ie = s.ie) : ReportEffect s t
  | reset (t : State) (hin : s.inputs.head? = some .reset ∨ s.inputs.head? = some .powerOn) (hie : t.ie = false)
      (hovr : t.ovr = false) : ReportEffect s t
  | write (r : Reg) (v : Word) (hin : s.inputs.head? = some (s.writeAccess r v)) :
      ReportEffect s (respond .writeDone (writeReg r v { s with inputs := s.inputs.tail }))

/-- An access does to the report what a register write does, or nothing. -/
theorem reportEffect_of_access {s t : State} {q : BusReq} {rest : List Event} (hin : s.inputs = .access q :: rest)
    (h : BusEffect q { s with inputs := rest } t) : ReportEffect s t := by
  cases h with
  | onlyResponse x => exact .unchanged _ rfl rfl rfl rfl rfl rfl
  | bufferWrite a bs hle => exact .unchanged _ rfl rfl rfl rfl rfl rfl
  | registerWrite off v hq h4 =>
    cases hr : regAt off with
    | none =>
      rw [writeOffset_reserved hr]
      exact .unchanged _ rfl rfl rfl rfl rfl rfl
    | some r =>
      obtain rfl := regAt_some hr
      have htail : rest = s.inputs.tail := by rw [hin]; rfl
      have hwrite : writeOffset (regOffset r) v { s with inputs := rest } = writeReg r v { s with inputs := s.inputs.tail } := by
        simp only [writeOffset, hr, htail]
      rw [hwrite]
      exact .write r v (by rw [hin, hq]; rfl)

/-- The report of a step, from what the step did. -/
theorem step_reportEffect {s t : State} (h : step s = .next t) : ReportEffect s t := by
  cases step_next_cases h with
  | idleTurn hs hi => exact .unchanged _ rfl rfl rfl rfl rfl rfl
  | command q i _ hs hd he hr hp =>
    have hcode : t.errCode = completionCode s := by
      simp only [completionCode, hd, (exec_report he).1, commandError_inputs]
    have hframe := exec_frame he
    exact .completion t hs (by rw [hframe]) (by rw [hframe]) hcode (by rw [hframe]) (by rw [hframe])
  | illegal q e hs hd hr hp =>
    exact .completion _ hs rfl rfl (by simp only [completionCode, hd]; rfl) rfl rfl
  | reset rest hi => exact .reset _ (.inl (by rw [hi]; rfl)) rfl rfl
  | powerOn rest hi => exact .reset _ (.inr (by rw [hi]; rfl)) rfl rfl
  | access q rest _ hi hl hb => exact reportEffect_of_access hi hb

/-- A step from BUSY to IDLE that is no reset and no power-on is a completion (rule R46). -/
theorem completion_of_busy_idle {s t : State} (h : step s = .next t) (hb : s.seq = .busy) (hi : t.seq = .idle)
    (hr : s.inputs.head? ≠ some .reset) (hp : s.inputs.head? ≠ some .powerOn) :
    t.done = true ∧ t.errCode = completionCode s ∧ t.ie = s.ie := by
  cases step_reportEffect h with
  | unchanged _ _ _ _ _ _ hseq => rw [hseq, hb] at hi; cases hi
  | completion _ _ _ hdone hcode _ hie => exact ⟨hdone, hcode, hie⟩
  | reset _ hin => exact absurd hin (not_or.mpr ⟨hr, hp⟩)
  | write r v hin =>
    rw [respond_seq, writeReg_seq_busy (s := { s with inputs := s.inputs.tail }) hb r v] at hi
    cases hi

/-- Settles O51: a completion writes the report whole, and of the other steps only a write of STATUS or CMD reaches it. -/
theorem reportIsExactAndStays : Obligations.ReportIsExactAndStays := by
  refine ⟨fun s t hinv hb h hi hr hp => ?_, fun s t hs h hr hp hw => ?_⟩
  · obtain ⟨hdone, hcode, -⟩ := completion_of_busy_idle h hb hi hr hp
    exact ⟨hdone, (stepKeepsTheInvariant s t hinv h).errIffCode, hcode⟩
  · cases step_reportEffect h with
    | unchanged _ hdone herr hcode _ _ _ => exact ⟨hdone, herr, hcode⟩
    | completion _ hb => rw [hs] at hb; cases hb
    | reset _ hin => exact absurd hin (not_or.mpr ⟨hr, hp⟩)
    | write r v hin =>
      obtain ⟨hstatus, hcmd⟩ := hw v
      exact writeReg_report (fun h => hcmd (h ▸ hin)) (fun h => hstatus (h ▸ hin)) v { s with inputs := s.inputs.tail }

/-! ### The interrupt output -/

theorem irq_eq_true {s : State} : s.irq = true ↔ s.ie = true ∧ s.done = true := Bool.and_eq_true_iff

theorem irq_false_of_ie {s : State} (h : s.ie = false) : s.irq = false := by simp [State.irq, h]

theorem irq_false_of_done {s : State} (h : s.done = false) : s.irq = false := by simp [State.irq, h]

/-- `irq` is what software reads of CTRL.IE and STATUS.DONE (rule R262). -/
theorem irq_eq_readReg (s : State) : s.irq = ((readReg .ctrl s).getLsbD 0 && (readReg .status s).getLsbD 1) := by
  have hie : (readReg .ctrl s).getLsbD 0 = s.ie := by cases h : s.ie <;> simp [readReg, h]
  have hdone : (readReg .status s).getLsbD 1 = s.done := statusWord_bit s 1
  rw [hie, hdone]
  rfl

/-- A register write that raises `irq` sets IE while DONE is set (rules R26 and R262). -/
theorem ctrl_of_writeReg_irq {r : Reg} {v : Word} {s : State} (hs : s.irq = false) (h : (writeReg r v s).irq = true) :
    r = .ctrl ∧ s.done = true ∧ v.getLsbD 0 = true := by
  obtain ⟨hie, hdone⟩ := irq_eq_true.mp h
  have hsdone := done_of_writeReg hdone
  by_cases hctrl : r = .ctrl
  · subst hctrl
    rw [writeReg_ctrl] at hie
    exact ⟨rfl, hsdone, hie⟩
  · rw [writeReg_ie hctrl] at hie
    simp [irq_eq_true.mpr ⟨hie, hsdone⟩] at hs

/-- The steps that raise `irq` (rule R262). -/
theorem irq_raised_cases {s t : State} (h : step s = .next t) (hs : s.irq = false) (ht : t.irq = true) :
    (s.seq = .busy ∧ t.seq = .idle ∧ s.ie = true) ∨
      (s.done = true ∧ ∃ v, s.inputs.head? = some (s.writeAccess .ctrl v) ∧ v.getLsbD 0 = true) := by
  obtain ⟨htie, htdone⟩ := irq_eq_true.mp ht
  cases step_reportEffect h with
  | unchanged _ hdone _ _ _ hie _ => simp [irq_eq_true.mpr ⟨hie ▸ htie, hdone ▸ htdone⟩] at hs
  | completion _ hb hi _ _ _ hie => exact .inl ⟨hb, hi, hie ▸ htie⟩
  | reset _ _ hie => rw [hie] at htie; cases htie
  | write r v hin =>
    obtain ⟨rfl, hdone, hv⟩ := ctrl_of_writeReg_irq (s := { s with inputs := s.inputs.tail }) hs ht
    exact .inr ⟨hdone, v, hin, hv⟩

/-- A W1C of DONE, a write of 0 to IE, and an issue each leave `irq` low (rule R262). -/
theorem irq_lowered_by_write {s t : State} (h : step s = .next t) {v : Word}
    (hw : (s.inputs.head? = some (s.writeAccess .status v) ∧ v.getLsbD 1 = true) ∨
      (s.inputs.head? = some (s.writeAccess .ctrl v) ∧ v.getLsbD 0 = false) ∨
      (s.inputs.head? = some (s.writeAccess .cmd v) ∧ s.seq = .idle)) : t.irq = false := by
  rcases hw with ⟨hin, hv⟩ | ⟨hin, hv⟩ | ⟨hin, hidle⟩ <;> rw [step_writeAccess hin h]
  · exact irq_false_of_done (by rw [respond_done, writeReg_status, if_pos hv])
  · exact irq_false_of_ie (by rw [respond_ie, writeReg_ctrl, hv])
  · rw [writeReg_idle (s := { s with inputs := s.inputs.tail }) hidle]
    exact irq_false_of_done rfl

/-- Settles O52: the steps that raise `irq` are those of `irq_raised_cases`, and each lowering event clears IE or DONE. -/
theorem interruptRaisedOnlyByCompletionOrEnable : Obligations.InterruptRaisedOnlyByCompletionOrEnable := by
  refine fun s t => ⟨irq_eq_readReg s, irq_raised_cases, fun h hb hi hr hp hie => ?_, fun h v hw => irq_lowered_by_write h hw,
    fun h hin => ?_⟩
  · obtain ⟨hdone, -, htie⟩ := completion_of_busy_idle h hb hi hr hp
    exact irq_eq_true.mpr ⟨htie.trans hie, hdone⟩
  · obtain ⟨rest, hin⟩ := List.head?_eq_some_iff.mp hin
    rw [step_reset hin] at h
    cases h
    rfl

/-! ### OVR -/

/-- Settles O53: the writes are the only steps that reach OVR besides a reset and power-on. -/
theorem overrunIsStickyAndOnlyFromDroppedWrites : Obligations.OverrunIsStickyAndOnlyFromDroppedWrites := by
  refine fun s t h => ⟨fun _ hb r hr v hin => ?_, fun hs ht => ?_, fun hs ht => ?_⟩
  · rw [step_writeAccess hin h, writeReg_busy (s := { s with inputs := s.inputs.tail }) hb (mem_droppedRegs.mp hr) v]
    rfl
  · cases step_reportEffect h with
    | unchanged _ _ _ _ hovr => simp [hovr, hs] at ht
    | completion _ _ _ _ _ hovr => simp [hovr, hs] at ht
    | reset _ _ _ hovr => simp [hovr] at ht
    | write r v hin =>
      obtain ⟨hb, hr⟩ := dropped_of_writeReg_ovr (s := { s with inputs := s.inputs.tail }) hs ht
      exact ⟨hb, r, hr, v, hin⟩
  · cases step_reportEffect h with
    | unchanged _ _ _ _ hovr => simp [hovr, hs] at ht
    | completion _ _ _ _ _ hovr => simp [hovr, hs] at ht
    | reset _ hin => exact hin.imp_right .inl
    | write r v hin =>
      obtain ⟨rfl, hv⟩ := status_of_writeReg_ovr (s := { s with inputs := s.inputs.tail }) hs ht
      exact .inr (.inr ⟨v, hin, hv⟩)

end Sys2Proof.Machine

/-! PROOFS. The abort of the command in flight by a reset, and the buffer it leaves. -/

namespace Sys2Proof.Machine

/-- A command outside the six mode commands stores nothing in the buffer (rule R292). -/
theorem storedRange_eq_zero {i : Instr} (hi : i ∉ [Instr.ecbEnc, .ecbDec, .cbcEnc, .cbcDec, .ctrXform, .ctrEdit]) (s : State) :
    storedRange i s = (0, 0) := by
  cases i
  case ecbEnc | ecbDec | cbcEnc | cbcDec | ctrXform | ctrEdit => simp at hi
  all_goals rfl

/-- The buffer a reset leaves does not depend on the events that wait (log entry 3). -/
theorem resetMemory_inputs (s : State) (q : List Event) : resetMemory { s with inputs := q } = resetMemory s := by
  have hrange : abortedRange { s with inputs := q } = abortedRange s := by
    simp only [abortedRange, commandError_inputs]
    rfl
  simp only [resetMemory, hrange]

/-- Where the checks of the command in flight pass, a reset clears the bytes the command stores and no others (rule R292). -/
theorem byteAt_resetMemory {s : State} {i : Instr} (hb : s.seq = .busy) (hd : decode s.pending = .ok i)
    (hpass : commandError i s = none) (a : Nat) :
    (resetMemory s).byteAt a =
      if (storedRange i s).1 ≤ a ∧ a < (storedRange i s).1 + (storedRange i s).2 then none else s.mem.byteAt a := by
  have hrange : abortedRange s = storedRange i s := by simp only [abortedRange, hb, hd, hpass]
  rw [resetMemory, hrange, byteAt_clearRange]

/-- Where the pending word is no command, or its checks fail, or it stores nothing, a reset leaves the buffer (rule R292). -/
theorem resetMemory_of_storesNothing {s : State} (hb : s.seq = .busy)
    (h : ∀ i, decode s.pending = .ok i → (commandError i s).isSome = true ∨ storedRange i s = (0, 0)) :
    resetMemory s = s.mem := by
  suffices hrange : abortedRange s = (0, 0) by rw [resetMemory, hrange, clearRange_zero]
  cases hd : decode s.pending with
  | error e => simp only [abortedRange, hb, hd]
  | ok i =>
    cases hc : commandError i s with
    | some c => simp only [abortedRange, hb, hd, hc]
    | none =>
      have hnone : storedRange i s = (0, 0) := (h i hd).resolve_left (by simp [hc])
      simp only [abortedRange, hb, hd, hc, hnone]

/-- Settles O58: the reset event clears the stored range of the pending command, which is the one R292 names for each command. -/
theorem resetAbortsCommandInFlight : Obligations.ResetAbortsCommandInFlight := by
  intro s t rest hb hin h
  rw [step_reset hin] at h
  cases h
  have hmem : (resetEvent { s with inputs := rest }).mem = resetMemory s := resetMemory_inputs s rest
  rw [hmem]
  refine ⟨by rw [← hmem]; rfl, fun i hd hpass hi a => ?_, fun hd hpass a => ?_, fun hnone => ?_⟩
  · rw [byteAt_resetMemory hb hd hpass, storedRange_dst_len hi]
  · rw [byteAt_resetMemory hb hd hpass]
    rfl
  · exact resetMemory_of_storesNothing hb fun i hd => (hnone i hd).imp_right fun hi => storedRange_eq_zero hi s

end Sys2Proof.Machine
